-- ==== Sys2Proof/Word.lean ====
section
/-! DEFINITION. The word types of the reader block (00_scope.md rule R10; 30_encoding.md rule R80). -/

namespace Sys2Proof

/-- A byte: 8 bits, 0x00 to 0xFF (R10). -/
abbrev Byte := BitVec 8

/-- A descriptor word of the command interface: 32 bits (R80). -/
abbrev Word := BitVec 32

/-- A status word: SW1 in bits 15..8, SW2 in bits 7..0 (R64, R94). -/
abbrev StatusWord := BitVec 16

end Sys2Proof
end

