-- ==== Sys2Proof/Config.lean ====
section
/-! DEFINITION. The implementation parameters of 00_scope.md rule R8 and their constraints (rule R9).
A parameter the spec fixes is a constant; a parameter it marks OPEN, and the two tables that
43_negotiation.md rule R233 asks to take as configuration, is a field of `Config`. The machine
carries its `Config` in `State.cfg`, so a claim about every state is a claim about every value. -/

namespace Sys2Proof

/-- The OPEN parameters of R8, one field each. Times are in the unit the name ends in. -/
structure Config where
  /-- `F_CLK`, the card clock in Hz. -/
  fClk : Nat
  /-- `W`, the width in bits of the millisecond counter. -/
  timerWidth : Nat
  /-- `GUARD_FACTOR`. -/
  guardFactor : Nat
  /-- `ATR_TIMEOUT_MS`. -/
  atrTimeoutMs : Nat
  /-- `ATR_EXTEND_MS`. -/
  atrExtendMs : Nat
  /-- `FALLBACK_SW`. -/
  fallbackSw : Bool
  /-- `SW_PB_TIMEOUT`. -/
  swPbTimeout : StatusWord
  /-- `SW_RX_TIMEOUT`. -/
  swRxTimeout : StatusWord
  /-- `SW_BAD_LENGTH`. -/
  swBadLength : StatusWord
  /-- `FI_TABLE`; `none` is the "not defined" marker RFU. -/
  fiTable : Vector (Option Nat) 16
  /-- `DI_TABLE`; `none` is RFU. -/
  diTable : Vector (Option Nat) 16
  /-- `TICK_NS`, the period of one glitch tick; R8 does not say that it is a whole number, a whole number
  of nanoseconds here (DESIGN CHOICE, log entry 6). -/
  tickNs : Nat
  /-- `GLITCH_LATENCY`; the spec names no unit, whole nanoseconds here (DESIGN CHOICE, log entry 6). -/
  glitchLatencyNs : Nat
  /-- `TRIGGER_WIDTH`; the spec names no unit, whole nanoseconds here (DESIGN CHOICE, log entry 6). -/
  triggerWidthNs : Nat
  deriving DecidableEq, Repr

namespace Config

/-- `ATR_MAX`, the capacity of the ATR buffer (R8, R61). -/
def atrMax : Nat := 32

/-- `RESET_WAIT_MS` (R8, R130). -/
def resetWaitMs : Nat := 12

/-- `GUARD_UNIT_US` (R8, R157). -/
def guardUnitUs : Nat := 104

/-- `CAP_MAX`, the largest capacity the 9-bit field of SEND_APDU names (R8). -/
def capMax : Nat := 511

/-- `NULL_BYTE`, the null procedure byte (R8, R259). -/
def nullByte : Byte := 0x60#8

/-- `FI_TABLE` of R233. -/
def isoFiTable : Vector (Option Nat) 16 :=
  #v[some 372, some 372, some 558, some 744, some 1116, some 1488, some 1860, none,
     none, some 512, some 768, some 1024, some 1536, some 2048, none, none]

/-- `DI_TABLE` of R233, whose entry 7 is the OPEN parameter `DI7`. -/
def isoDiTable (di7 : Option Nat) : Vector (Option Nat) 16 :=
  #v[none, some 1, some 2, some 4, some 8, some 16, some 32, di7,
     some 12, some 20, none, none, none, none, none, none]

/-- A sentinel's high nibble is neither 0x6 nor 0x9 (R9). -/
def sentinelOk (sw : StatusWord) : Bool :=
  sw.toNat / 2 ^ 12 != 0x6 && sw.toNat / 2 ^ 12 != 0x9

/-- The constraints of R9 and of the rows of R8. The bounds on the table entries are those of the
table of R233: they make every negotiated rate at least 1 (log entry 7). -/
structure Valid (c : Config) : Prop where
  fClk : 2048 ≤ c.fClk
  timerWidth : 2 ≤ c.timerWidth
  guardFactor : 1 ≤ c.guardFactor
  atrTimeout : 1 ≤ c.atrTimeoutMs
  atrDeadline : c.atrTimeoutMs + atrMax * c.atrExtendMs < 2 ^ (c.timerWidth - 1)
  pbRx : c.swPbTimeout ≠ c.swRxTimeout
  pbBad : c.swPbTimeout ≠ c.swBadLength
  rxBad : c.swRxTimeout ≠ c.swBadLength
  pbNibble : sentinelOk c.swPbTimeout = true
  rxNibble : sentinelOk c.swRxTimeout = true
  badNibble : sentinelOk c.swBadLength = true
  fiEntries : ∀ n, some n ∈ c.fiTable.toList → 1 ≤ n ∧ n ≤ 2048
  diEntries : ∀ n, some n ∈ c.diTable.toList → 1 ≤ n
  fiOne : c.fiTable[1] = some 372
  diOne : c.diTable[1] = some 1
  triggerWidth : 1 ≤ c.triggerWidthNs

/-- The parameter values of the test vectors (95_test_vectors.md, conventions and section 2.5), with
values of the model's own where the vectors give none (DESIGN CHOICE, log entry 5). -/
def vectors : Config where
  fClk := 3571200
  timerWidth := 16
  guardFactor := 1
  atrTimeoutMs := 1000
  atrExtendMs := 50
  fallbackSw := false
  swPbTimeout := 0x0001#16
  swRxTimeout := 0x0002#16
  swBadLength := 0x0003#16
  fiTable := isoFiTable
  diTable := isoDiTable (some 64)
  tickNs := 1
  glitchLatencyNs := 0
  triggerWidthNs := 1

end Config

end Sys2Proof
end

