-- ==== Sys2Proof/Syntax.lean ====
section
/-! DEFINITION. The 14 commands of the block, one constructor per row of spec/opcode_table.json
(30_encoding.md rules R81 to R83). -/

namespace Sys2Proof

/-- Direction of a SEND_APDU transfer (10_state.md rule R45; bit 23 of word 2, 1 = Send). -/
inductive Dir where
  | send
  | receive
  deriving DecidableEq, Repr

/-- A command with its operands. Counts and times are naturals; `WellFormed` holds their widths. -/
inductive Instr where
  /-- SET_POWER, 40_hcu.md R121. -/
  | setPower (on : Bool)
  /-- SET_RESET, 40_hcu.md R122. -/
  | setReset (asserted : Bool)
  /-- SET_CLOCK_FREERUN, 40_hcu.md R123. -/
  | setClockFreerun (run : Bool)
  /-- GLITCH_PULSE, 40_hcu.md R125. -/
  | glitchPulse (d : Nat)
  /-- TRIGGER_PULSE, 40_hcu.md R127. -/
  | triggerPulse
  /-- POWER_ON, 40_hcu.md R129. -/
  | powerOn
  /-- POWER_OFF, 40_hcu.md R131. -/
  | powerOff
  /-- SET_LISTENING, 41_transport.md R164. -/
  | setListening (on : Bool)
  /-- READ_BYTE, 41_transport.md R166. -/
  | readByte (timeoutMs : Nat)
  /-- WRITE_BYTE, 41_transport.md R168. -/
  | writeByte (b : Byte)
  /-- GET_CONVENTION, 41_transport.md R170. -/
  | getConvention
  /-- SET_CONVENTION, 41_transport.md R172. -/
  | setConvention (inverse : Bool)
  /-- ACQUIRE_ATR, 42_atr.md R191. -/
  | acquireAtr
  /-- SEND_APDU, 44_apdu.md R250. -/
  | sendApdu (timeoutMs : Nat) (cla ins p1 p2 p3 : Byte) (dir : Dir) (cap : Nat)
  deriving DecidableEq, Repr

end Sys2Proof
end

