-- ==== Sys2Proof/WellFormed.lean ====
section
/-! DEFINITION. What the fields of a descriptor can hold (30_encoding.md rules R81 and R82). -/

namespace Sys2Proof

/-- Every numeric operand fits its field: 16-bit ticks, 24-bit timeouts, a 9-bit capacity. -/
def Instr.wellFormed : Instr → Bool
  | .setPower _ => true
  | .setReset _ => true
  | .setClockFreerun _ => true
  | .glitchPulse d => d < 2 ^ 16
  | .triggerPulse => true
  | .powerOn => true
  | .powerOff => true
  | .setListening _ => true
  | .readByte timeoutMs => timeoutMs < 2 ^ 24
  | .writeByte _ => true
  | .getConvention => true
  | .setConvention _ => true
  | .acquireAtr => true
  | .sendApdu timeoutMs _ _ _ _ _ _ cap => timeoutMs < 2 ^ 24 && cap ≤ Config.capMax

/-- The check as a proposition. -/
abbrev Instr.WellFormed (i : Instr) : Prop := i.wellFormed = true

end Sys2Proof
end

