-- ==== Sys2Proof/Decode.lean ====
section
/-! DEFINITION. Decoder and encoder of the command interface (30_encoding.md rules R80 to R84), both
written from the format tables. -/

namespace Sys2Proof

/-- Why a descriptor is no command (R84). -/
inductive DecodeError where
  /-- There is no word to read. -/
  | noWord
  /-- The opcode of this word is not in R83. -/
  | undefinedOpcode (w : Word)
  /-- A reserved-zero bit of this word is set. -/
  | reservedBits (w : Word)
  /-- SEND_APDU's descriptor ends before its third word; this is word 0. -/
  | truncated (w : Word)
  deriving DecidableEq, Repr

/-- `v[hi:lo]` of R10: bits `hi` down to `lo`, zero-extended. -/
def field (v : Nat) (hi lo : Nat) : Nat := v / 2 ^ lo % 2 ^ (hi + 1 - lo)

/-- The opcode of a descriptor's word 0 (R80). -/
def opcodeOf (w : Word) : Nat := field w.toNat 31 24

/-- How many words a descriptor has, told by the opcode alone (R80). -/
def descriptorLength (w : Word) : Nat := if opcodeOf w = 0x40 then 3 else 1

/-- A word with its reserved-zero field clear decodes to `i`, another is refused (R84). -/
def withReserved (w : Word) (reserved : Nat) (i : Instr) (rest : List Word) :
    Except DecodeError (Instr × List Word) :=
  if reserved = 0 then .ok (i, rest) else .error (.reservedBits w)

/-- Format N: no operand (R81). -/
def formatN (w : Word) (i : Instr) (rest : List Word) : Except DecodeError (Instr × List Word) :=
  withReserved w (field w.toNat 23 0) i rest

/-- Format B: a Boolean in bit 0 (R81). -/
def formatB (w : Word) (k : Bool → Instr) (rest : List Word) :
    Except DecodeError (Instr × List Word) :=
  withReserved w (field w.toNat 23 1) (k (field w.toNat 0 0 == 1)) rest

/-- Format D: 16 bits of ticks (R81). -/
def formatD (w : Word) (k : Nat → Instr) (rest : List Word) :
    Except DecodeError (Instr × List Word) :=
  withReserved w (field w.toNat 23 16) (k (field w.toNat 15 0)) rest

/-- Format T: 24 bits of milliseconds (R81). -/
def formatT (w : Word) (k : Nat → Instr) (rest : List Word) :
    Except DecodeError (Instr × List Word) :=
  .ok (k (field w.toNat 23 0), rest)

/-- Format X: a byte (R81). -/
def formatX (w : Word) (k : Byte → Instr) (rest : List Word) :
    Except DecodeError (Instr × List Word) :=
  withReserved w (field w.toNat 23 8) (k (BitVec.ofNat 8 (field w.toNat 7 0))) rest

/-- Format A: SEND_APDU's three words (R82). -/
def formatA (w0 : Word) : List Word → Except DecodeError (Instr × List Word)
  | w1 :: w2 :: rest =>
    withReserved w2 (field w2.toNat 22 9)
      (.sendApdu (field w0.toNat 23 0)
        (BitVec.ofNat 8 (field w1.toNat 31 24)) (BitVec.ofNat 8 (field w1.toNat 23 16))
        (BitVec.ofNat 8 (field w1.toNat 15 8)) (BitVec.ofNat 8 (field w1.toNat 7 0))
        (BitVec.ofNat 8 (field w2.toNat 31 24))
        (if field w2.toNat 23 23 = 1 then .send else .receive) (field w2.toNat 8 0)) rest
  | _ => .error (.truncated w0)

/-- The decoder: the first command of a list of descriptor words and the words after it (R83, R84). -/
def decode : List Word → Except DecodeError (Instr × List Word)
  | [] => .error .noWord
  | w :: rest =>
    match opcodeOf w with
    | 0x01 => formatB w .setPower rest
    | 0x02 => formatB w .setReset rest
    | 0x03 => formatB w .setClockFreerun rest
    | 0x04 => formatD w .glitchPulse rest
    | 0x05 => formatN w .triggerPulse rest
    | 0x10 => formatN w .powerOn rest
    | 0x11 => formatN w .powerOff rest
    | 0x20 => formatB w .setListening rest
    | 0x21 => formatT w .readByte rest
    | 0x22 => formatX w .writeByte rest
    | 0x23 => formatN w .getConvention rest
    | 0x24 => formatB w .setConvention rest
    | 0x30 => formatN w .acquireAtr rest
    | 0x40 => formatA w rest
    | _ => .error (.undefinedOpcode w)

/-- The words that the host's `nbits`-bit number stands for: bit 0 is the least significant bit of the
first word, later words count on from it, every bit from `nbits` up is 0; as many words as the longest
descriptor. -/
def tableWords (nbits w : Nat) : List Word :=
  let v := w % 2 ^ nbits
  [BitVec.ofNat 32 v, BitVec.ofNat 32 (v / 2 ^ 32), BitVec.ofNat 32 (v / 2 ^ 64)]

/-- What the decoder reads from the words of `tableWords`. -/
def decodeTableWord (nbits w : Nat) : Option Instr :=
  match decode (tableWords nbits w) with
  | .ok (i, _) => some i
  | .error _ => none

/-- The opcode of a command (R83). -/
def Instr.opcode : Instr → Nat
  | .setPower _ => 0x01
  | .setReset _ => 0x02
  | .setClockFreerun _ => 0x03
  | .glitchPulse _ => 0x04
  | .triggerPulse => 0x05
  | .powerOn => 0x10
  | .powerOff => 0x11
  | .setListening _ => 0x20
  | .readByte _ => 0x21
  | .writeByte _ => 0x22
  | .getConvention => 0x23
  | .setConvention _ => 0x24
  | .acquireAtr => 0x30
  | .sendApdu .. => 0x40

/-- A word with an opcode in bits 31..24 and an operand field in bits 23..0 (R80). -/
def wordOf (opcode operand : Nat) : Word := BitVec.ofNat 32 (opcode * 2 ^ 24 + operand)

/-- A word of four bytes, the first in bits 31..24 (R82, word 1). -/
def wordOfBytes (a b c d : Byte) : Word :=
  BitVec.ofNat 32 (a.toNat * 2 ^ 24 + b.toNat * 2 ^ 16 + c.toNat * 2 ^ 8 + d.toNat)

/-- Word 2 of SEND_APDU: P3, the direction bit and the capacity (R82). -/
def lengthWord (p3 : Byte) (dir : Dir) (cap : Nat) : Word :=
  BitVec.ofNat 32 (p3.toNat * 2 ^ 24 + (if dir = .send then 2 ^ 23 else 0) + cap)

/-- The operand field of word 0 (R81, R82). -/
def Instr.operand : Instr → Nat
  | .setPower b => b.toNat
  | .setReset b => b.toNat
  | .setClockFreerun b => b.toNat
  | .glitchPulse d => d
  | .triggerPulse => 0
  | .powerOn => 0
  | .powerOff => 0
  | .setListening b => b.toNat
  | .readByte timeoutMs => timeoutMs
  | .writeByte b => b.toNat
  | .getConvention => 0
  | .setConvention b => b.toNat
  | .acquireAtr => 0
  | .sendApdu timeoutMs .. => timeoutMs

/-- The words after word 0: two for SEND_APDU, none for the others (R80, R82). -/
def Instr.laterWords : Instr → List Word
  | .sendApdu _ cla ins p1 p2 p3 dir cap => [wordOfBytes cla ins p1 p2, lengthWord p3 dir cap]
  | .setPower _ => []
  | .setReset _ => []
  | .setClockFreerun _ => []
  | .glitchPulse _ => []
  | .triggerPulse => []
  | .powerOn => []
  | .powerOff => []
  | .setListening _ => []
  | .readByte _ => []
  | .writeByte _ => []
  | .getConvention => []
  | .setConvention _ => []
  | .acquireAtr => []

/-- The encoder: the descriptor of a well-formed command (R80 to R83). -/
def encode (i : Instr) : List Word := wordOf i.opcode i.operand :: i.laterWords

end Sys2Proof
end

