-- ==== Sys2Proof/Machine/State.lean ====
section
/-! DEFINITION. The state of the block and of the agents around it, as plain data: the fields of
10_state.md rules R20 to R47, the two buffers of 20_memory.md, the engines' registers, the host's
pending commands, what the card and the time base will do, and the event trace of 00_scope.md rule R13. -/

namespace Sys2Proof.Machine

/-- `s.convention` (R24). -/
inductive Convention where
  | direct
  | inverse
  deriving DecidableEq, Repr

/-- `s.powerState` (R26). -/
inductive PowerState where
  | off
  | resetting
  | active
  deriving DecidableEq, Repr

/-- `s.ioMode`, the idle state of the I/O line (R32). -/
inductive IoMode where
  | released
  | driveHigh
  | driveLow
  deriving DecidableEq, Repr

/-- The byte class the next ATR byte is read as (R41). -/
inductive AtrState where
  | ts
  | t0
  | ta
  | tb
  | tc
  | td
  | hist
  deriving DecidableEq, Repr

/-- The class of a procedure byte (30_encoding.md R93). -/
inductive ProcClass where
  | ack1
  | ackAll
  | null
  | sw1
  | other
  deriving DecidableEq, Repr

/-- A byte buffer as a sparse list of (index, byte), strictly rising and with no zero byte: an
unlisted index reads 0x00 (DESIGN CHOICE, log entry 9). `Memory.wf` says the form holds. -/
abbrev Memory := List Host.Cell

/-- The two buffers of the block (R60). -/
inductive BufferName where
  | atr
  | apdu
  deriving DecidableEq, Repr

/-- The outcome of the negotiation step (43_negotiation.md R236). -/
inductive Negotiation where
  | notRun
  | ok (baud : Nat)
  | failed
  deriving DecidableEq, Repr

/-- The result of ACQUIRE_ATR (R44). -/
structure AtrRecord where
  rawBytes : List Byte
  historicalLength : Nat
  ta1Present : Bool
  ta1 : Byte
  expectedLength : Nat
  complete : Bool
  negotiation : Negotiation
  deriving DecidableEq, Repr

/-- The result of SEND_APDU (R46). `proc` is `none` exactly when `procPresent` is false. -/
structure ApduResult where
  sw : StatusWord
  count : Nat
  proc : Option Byte
  deriving DecidableEq, Repr

/-- What a command returns to the host (30_encoding.md R85). -/
inductive Result where
  /-- A command that returns nothing. -/
  | nothing
  /-- READ_BYTE: `none` is the "distinct not-available sentinel". -/
  | byte (b : Option Byte)
  /-- GET_CONVENTION: true = Inverse. -/
  | flag (b : Bool)
  /-- ACQUIRE_ATR. -/
  | atr (r : AtrRecord)
  /-- SEND_APDU. -/
  | apdu (r : ApduResult)
  deriving DecidableEq, Repr

/-- One character frame on the line: data bits, parity bit and the two stop bits as sent (R87). -/
structure Frame where
  data : Byte
  parity : Bool
  stop1 : Bool
  stop2 : Bool
  deriving DecidableEq, Repr

/-- An output and the value it is set to: the event `Pin(p, v)` of R12. -/
inductive PinWrite where
  | vcc (on : Bool)
  | rst (asserted : Bool)
  /-- `Pin(CLK, run)` is true, `Pin(CLK, stopped-low)` is false. -/
  | clk (running : Bool)
  | io (m : IoMode)
  | glitch (on : Bool)
  | trigger (on : Bool)
  deriving DecidableEq, Repr

/-- The trace's entries. The first five are the events of R12 and R125; the next three record
durations that R12 has no event for (log entry 12); the last is a command's result (R13). -/
inductive Event where
  /-- `Pin(p, v)`. -/
  | pin (w : PinWrite)
  /-- `WaitMs(n)`, at least `n` ms. -/
  | waitMs (n : Nat)
  /-- `WaitUs(n)`, at least `n` µs. -/
  | waitUs (n : Nat)
  /-- `Tx(r, par)`, with the baud rate read when the frame starts (R155). -/
  | tx (f : Frame) (baud : Nat)
  /-- `Glitch(d)`. -/
  | glitch (d : Nat)
  /-- A delay of exactly `n` ns (R126). -/
  | exactNs (n : Nat)
  /-- `hold TRIGGER_WIDTH` (R127). -/
  | holdNs (n : Nat)
  /-- `WaitClkLow()`, at most one clock period (R124). -/
  | clkLowWait
  /-- The command's result (R85). -/
  | returned (r : Result)
  deriving DecidableEq, Repr

/-- The step of the APDU sequencer (44_apdu.md R252) with the datum the step works on. -/
inductive ApduStep where
  | header
  | proc
  /-- A granted transfer of `n` bytes. -/
  | xfer (n : Nat)
  /-- After this SW1. -/
  | sw2 (sw1 : Byte)
  | final
  /-- Ended with this status word. -/
  | done (sw : StatusWord)
  deriving DecidableEq, Repr

/-- The registers of the ATR engine (R39, R41, R42); the buffer is `atrBuf` (R61). -/
structure AtrEngine where
  buf : Memory
  count : Nat
  expected : Nat
  pending : BitVec 4
  histLen : Nat
  ta1 : Option Byte
  deadline : Nat
  state : AtrState
  deriving DecidableEq, Repr

/-- The ATR engine between commands: "None survives the command" (R39). -/
def AtrEngine.idle : AtrEngine where
  buf := []
  count := 0
  expected := 0
  pending := 0#4
  histLen := 0
  ta1 := none
  deadline := 0
  state := .ts

/-- The registers of the APDU engine (R40): the request (R45), `count`, `proc` and the step (R252). -/
structure ApduEngine where
  timeoutMs : Nat
  cla : Byte
  ins : Byte
  p1 : Byte
  p2 : Byte
  p3 : Byte
  dir : Dir
  cap : Nat
  count : Nat
  proc : Option Byte
  step : ApduStep
  deriving DecidableEq, Repr

/-- The APDU engine between commands: "transient, one per call, no retained state" (R40). -/
def ApduEngine.idle : ApduEngine where
  timeoutMs := 0
  cla := 0#8
  ins := 0#8
  p1 := 0#8
  p2 := 0#8
  p3 := 0#8
  dir := .receive
  cap := 0
  count := 0
  proc := none
  step := .header

/-- A frame the card sends (R159). `rate` is the bit rate it is sent at, `none` for the block's current
etu; `misread` is what the receiver assembles if the rate is another one (R339), `none` for nothing;
`replace` is the `RX_OVERRUN` draw of this event: replace the held byte (true) or lose the new one. -/
structure CardFrame where
  frame : Frame
  rate : Option Nat
  misread : Option Byte
  replace : Bool
  deriving DecidableEq, Repr

/-- One act of the time base or of the card (R20). -/
inductive EnvEvent where
  /-- A millisecond elapses (R38). -/
  | ms
  /-- A frame of the card is complete (R159). -/
  | frame (f : CardFrame)
  /-- The free-running clock output is now in its high (true) or low (false) phase (R124). -/
  | clk (high : Bool)
  deriving DecidableEq, Repr

/-- What the card and the time base will do: the draws of R161 and R347 as data (log entries 1 and 2).
`script` gives, turn by turn, the events of each turn of the environment. Once it is used up the time
base counts on, a frame of `card` arrives at each poll that finds no character (the `CARD:` lines of
R86), then `flood` at every such poll for ever, or nothing more if it is `none` (`CARD: silent`). -/
structure Environment where
  script : List (List EnvEvent)
  card : List CardFrame
  flood : Option CardFrame
  deriving DecidableEq, Repr

/-- A command the host will issue: its descriptor words and, if the host names a new buffer with it,
the buffer's bytes (30_encoding.md R82). -/
structure Submission where
  words : List Word
  data : Option (List Byte)
  deriving DecidableEq, Repr

/-- The machine. -/
structure State where
  /-- The parameters of this block (R8); no step writes them. -/
  cfg : Config
  /-- R23. -/
  sessionValid : Bool
  /-- R24. -/
  convention : Convention
  /-- R25, in bits per second. -/
  baudRate : Nat
  /-- R26. -/
  powerState : PowerState
  /-- R27. -/
  negotiatedThisCycle : Bool
  /-- R28. -/
  vccOn : Bool
  /-- R29, logical level. -/
  rstAsserted : Bool
  /-- R30. -/
  clkRunning : Bool
  /-- The level of the clock output, which R30 holds low while the clock is stopped and R124 observes
  (DEDUCED, log entry 11). -/
  clkHigh : Bool
  /-- R31. -/
  glitchOut : Bool
  /-- R31. -/
  triggerOut : Bool
  /-- R32. -/
  ioMode : IoMode
  /-- R33, a raw byte. -/
  rxHold : Option Byte
  /-- R38, below `2^W`. -/
  msCounter : Nat
  /-- The host's APDU buffer `B` (R62). -/
  buffer : Memory
  /-- R39; idle between commands. -/
  atr : AtrEngine
  /-- R40; idle between commands. -/
  apdu : ApduEngine
  /-- The commands the host will issue, the next one first (R20). -/
  pending : List Submission
  /-- The card and the time base (R20). -/
  env : Environment
  /-- The trace of the run so far, oldest first (R13). -/
  trace : List Event
  deriving DecidableEq, Repr

/-- Why the machine stops with a fault (60_exceptions.md R302). -/
inductive Fault where
  /-- A command reads a session field while no session exists; info: the opcode. Raised by READ_BYTE,
  WRITE_BYTE, GET_CONVENTION, SET_CONVENTION, ACQUIRE_ATR, SEND_APDU. Safe: toward unprovable. -/
  | noSession (opcode : Nat)
  /-- READ_BYTE while not listening or WRITE_BYTE while not transmit-armed; info: the opcode and
  `ioMode`. Safe: toward unprovable. -/
  | directionFault (opcode : Nat) (mode : IoMode)
  /-- A buffer index at or above the capacity, raised by the buffer accesses of ACQUIRE_ATR and
  SEND_APDU; unreachable (R60). Safe: toward unprovable. -/
  | bufferBounds (buffer : BufferName) (index : Nat)
  /-- The stuck state of SEND_APDU: the card sends NULL or OTHER procedure bytes for ever (R267,
  93_implementation_defined.md I3). Safe: the command has no final state. -/
  | commandNeverEnds
  deriving DecidableEq, Repr

/-- Why a command is refused: it is not executed and nothing changes. -/
inductive Refusal where
  /-- No meaning for this instruction; only a refused arm of `exec` answers so, and there is none. Safe. -/
  | notModelled (mnemonic : String)
  /-- `IllegalCommand` of R84 and R302; info: the word. Raised by `step` when the decoder rejects the
  descriptor. Safe: toward unprovable. -/
  | illegalCommand (word : Word)
  /-- A timeout operand of `2^(W-1)` or more: "such a command is outside the admitted set and a model
  refuses it" (70_reset_and_hazards.md R343). Raised by READ_BYTE and SEND_APDU. Safe. -/
  | timeoutNotAdmitted (timeoutMs : Nat)
  deriving DecidableEq, Repr

/-- What the spec leaves to a draw at block reset: the fields R47 says so of, R30's clock level, and what
the card and the time base do from then on (93_implementation_defined.md I26). -/
structure ResetDraws where
  vccOn : Bool
  rstAsserted : Bool
  clkRunning : Bool
  clkHigh : Bool
  ioMode : IoMode
  msCounter : Nat
  env : Environment
  deriving DecidableEq, Repr

/-- The block-reset column of R47 for a configuration and the draws it leaves open. The session fields
hold no value there: each stands at a value no command can read (DESIGN CHOICE, log entry 4). -/
def State.blockReset (c : Config) (d : ResetDraws) : State where
  cfg := c
  sessionValid := false
  convention := .direct
  baudRate := 0
  powerState := .off
  negotiatedThisCycle := false
  vccOn := d.vccOn
  rstAsserted := d.rstAsserted
  clkRunning := d.clkRunning
  clkHigh := d.clkRunning && d.clkHigh
  glitchOut := false
  triggerOut := false
  ioMode := d.ioMode
  rxHold := none
  msCounter := d.msCounter % 2 ^ c.timerWidth
  buffer := []
  atr := AtrEngine.idle
  apdu := ApduEngine.idle
  pending := []
  env := d.env
  trace := []

/-- The draws of `State.reset`: all zero, the line released (DESIGN CHOICE, log entry 3), the card silent
and unscripted (DESIGN CHOICE, log entry 22). -/
def ResetDraws.zero : ResetDraws where
  vccOn := false
  rstAsserted := false
  clkRunning := false
  clkHigh := false
  ioMode := .released
  msCounter := 0
  env := { script := [], card := [], flood := none }

/-- The machine right after block reset (R47), with the parameters of the test vectors (log entry 5). -/
def State.reset : State := State.blockReset Config.vectors ResetDraws.zero

end Sys2Proof.Machine
end

