-- ==== Sys2Proof/Machine/Operands.lean ====
section
/-! DEFINITION. Bytes and their fields: convention translation, parity and framing (41_transport.md),
the ATR format characters and TA1 (30_encoding.md R89, R91), the procedure-byte classes (R93) and the
rates computed from TA1 (43_negotiation.md). -/

namespace Sys2Proof.Machine

/-- `inv(b)`: "for each bit position i (0–7) of b that is 0, setting bit (7−i) of the output; bits that
are 1 contribute nothing" (R88). -/
def inv (b : Byte) : Byte :=
  (List.range 8).foldl (fun out i => if b.getLsbD i then out else out ||| (1#8 <<< (7 - i))) 0#8

/-- `translate(c, b)` (R151). -/
def translate : Convention → Byte → Byte
  | .direct, b => b
  | .inverse, b => inv b

/-- The other convention (R196). -/
def Convention.flip : Convention → Convention
  | .direct => .inverse
  | .inverse => .direct

/-- The convention a Boolean stands for: true = Inverse (R169). -/
def Convention.ofFlag (inverse : Bool) : Convention := if inverse then .inverse else .direct

/-- The number of 1 bits of a byte (R10). -/
def popcount (b : Byte) : Nat := (List.range 8).countP b.getLsbD

/-- `parity(c, r)`: even over the raw data bits and the parity bit for Direct, odd for Inverse (R154). -/
def parity : Convention → Byte → Bool
  | .direct, r => popcount r % 2 == 1
  | .inverse, r => popcount r % 2 == 0

/-- The line levels of a frame in time order: start low, the data bits from bit 0 up, the parity bit,
the stop bits; true is the high level (R87). -/
def Frame.levels (f : Frame) : List Bool :=
  false :: ((List.range 8).map f.data.getLsbD ++ [f.parity, f.stop1, f.stop2])

/-- The byte the receiver assembles from the levels of a frame: the eight levels after the start bit,
least significant bit first; parity and stop bits are not looked at (R153, R158). -/
def assemble (levels : List Bool) : Byte :=
  ((levels.drop 1).take 8).foldr (fun bit acc => acc <<< 1 ||| (if bit then 1#8 else 0#8)) 0#8

/-- The frame the block sends for a raw byte and its parity bit: both stop bits high (R156). -/
def txFrame (r : Byte) (par : Bool) : Frame where
  data := r
  parity := par
  stop1 := true
  stop2 := true

/-- Bits 7..4 of a byte: FI of TA1 (R91), the class nibble of a status byte (R93). -/
def highNibble (b : Byte) : Nat := field b.toNat 7 4

/-- Bits 3..0 of a byte: DI of TA1 (R91), the historical count of T0 (R89). -/
def lowNibble (b : Byte) : Nat := field b.toNat 3 0

/-- The presence bits of T0 or TDn: bit 0 TA, bit 1 TB, bit 2 TC, bit 3 TD (R89, R42). -/
def presence (b : Byte) : BitVec 4 := BitVec.ofNat 4 (highNibble b)

/-- How many interface bytes a group of presence bits announces (R197). -/
def presenceCount (p : BitVec 4) : Nat := (List.range 4).countP p.getLsbD

/-- `classify(b, INS)`: the first class in the order of R93 whose condition holds. -/
def classify (b ins : Byte) : ProcClass :=
  if b = ~~~ins ∨ b = ~~~(ins + 1) then .ack1
  else if b = ins ∨ b = ins + 1 then .ackAll
  else if b = Config.nullByte then .null
  else if highNibble b = 0x6 ∨ highNibble b = 0x9 then .sw1
  else .other

/-- `SW1 || SW2` (R64). -/
def statusWord (sw1 sw2 : Byte) : StatusWord := sw1 ++ sw2

/-- `ATR_BAUD = F_CLK div 372` (R8). -/
def atrBaud (c : Config) : Nat := c.fClk / 372

/-- Entry `i` of one of the two 16-entry tables; `none` is RFU (R233). -/
def tableEntry (t : Vector (Option Nat) 16) (i : Nat) : Option Nat := t.toList.getD i none

/-- The rate TA1 encodes, `(F_CLK × Di) div Fi`, or `none` if either table entry is RFU (R231, R235). -/
def negotiatedBaud (c : Config) (ta1 : Byte) : Option Nat :=
  match tableEntry c.fiTable (highNibble ta1), tableEntry c.diTable (lowNibble ta1) with
  | some fi, some di => some (c.fClk * di / fi)
  | _, _ => none

end Sys2Proof.Machine
end

