-- ==== Sys2Proof/Machine/Flags.lean ====
section
/-! DEFINITION. The derived flags and tests (10_state.md R35: the block has no arithmetic condition
codes): listening, the elapsed-time test, the admission of timeouts, and the ATR engine's next byte
class. -/

namespace Sys2Proof.Machine

/-- `listening := (s.ioMode = Released)` (R32). -/
def State.listening (s : State) : Bool := s.ioMode == .released

/-- `sdiff_W(a, b)`: `(a - b) mod 2^W` read as a W-bit two's-complement number (R10). -/
def sdiffW (w a b : Nat) : Int :=
  let d := (a + 2 ^ w - b % 2 ^ w) % 2 ^ w
  if d < 2 ^ (w - 1) then d else (d : Int) - 2 ^ w

/-- A deadline `d` has elapsed at counter value `t` iff `sdiff_W(t, d) ≥ 0` (R311). -/
def elapsedAt (w t d : Nat) : Bool := decide (0 ≤ sdiffW w t d)

/-- The deadline test against `Now()` (R311, R12). -/
def State.elapsed (s : State) (deadline : Nat) : Bool :=
  elapsedAt s.cfg.timerWidth s.msCounter deadline

/-- `Now() + n` mod `2^W` (R160, R192). -/
def State.deadlineIn (s : State) (n : Nat) : Nat := (s.msCounter + n) % 2 ^ s.cfg.timerWidth

/-- A timeout operand is admitted if it is below `2^(W-1)` (R343). -/
def State.admits (s : State) (timeoutMs : Nat) : Bool :=
  decide (timeoutMs < 2 ^ (s.cfg.timerWidth - 1))

/-- `Next(p)` (42_atr.md R198). -/
def nextAtrState (p : BitVec 4) : AtrState :=
  if p.getLsbD 0 then .ta
  else if p.getLsbD 1 then .tb
  else if p.getLsbD 2 then .tc
  else if p.getLsbD 3 then .td
  else .hist

/-- `pending[i] <- 0` (R199, R200). -/
def clearPending (p : BitVec 4) (i : Nat) : BitVec 4 := p &&& ~~~(1#4 <<< i)

/-- `procPresent` (R46). -/
def ApduResult.procPresent (r : ApduResult) : Bool := r.proc.isSome

/-- The entries of a trace that R12 and R125 call events. -/
def Event.isRecorded : Event → Bool
  | .pin _ => true
  | .waitMs _ => true
  | .waitUs _ => true
  | .tx _ _ => true
  | .glitch _ => true
  | .exactNs _ => false
  | .holdNs _ => false
  | .clkLowWait => false
  | .returned _ => false

/-- The events of R12 in a trace, in order. -/
def recordedEvents (trace : List Event) : List Event := trace.filter Event.isRecorded

/-- The result of the last command that returned (R43: the host keeps it). -/
def State.lastResult (s : State) : Option Result :=
  s.trace.reverse.findSome? fun e => match e with
    | .returned r => some r
    | _ => none

end Sys2Proof.Machine
end

