-- ==== Sys2Proof/Machine/Ops.lean ====
section
/-! DEFINITION. The named operations over buffers, outputs, time and the line: MemRead and MemWrite
(20_memory.md R60), the primitives of 00_scope.md R12, the turns of the card and of the time base
(10_state.md R20), and TxChar, RxChar and Listen (41_transport.md R156, R160, R163). The block has no
trap, so there is no exception entry and no return from one (60_exceptions.md R300, R301). -/

namespace Sys2Proof.Machine

/-! ## Buffers -/

/-- Byte `i` of a buffer; an unlisted index reads 0x00 (log entry 9). -/
def Memory.read : Memory → Nat → Byte
  | [], _ => 0#8
  | (k, v) :: m, i => if k = i then v else Memory.read m i

/-- Sets byte `i` of a buffer, keeping the canonical form. -/
def Memory.write : Memory → Nat → Byte → Memory
  | [], i, v => if v = 0#8 then [] else [(i, v)]
  | (k, u) :: m, i, v =>
    if i < k then (if v = 0#8 then (k, u) :: m else (i, v) :: (k, u) :: m)
    else if i = k then (if v = 0#8 then m else (i, v) :: m)
    else (k, u) :: Memory.write m i v

/-- The canonical form: indices strictly rising, no byte equal to what an unlisted index reads. -/
def Memory.wf : Memory → Bool
  | [] => true
  | (k, v) :: m => v != 0#8 && m.all (fun c => decide (k < c.1)) && Memory.wf m

/-- The buffer that holds `bytes` from index `i` on. -/
def Memory.ofBytes : Nat → List Byte → Memory
  | _, [] => []
  | i, b :: bytes => Memory.write (Memory.ofBytes (i + 1) bytes) i b

/-- The first `n` bytes of a buffer. -/
def Memory.take (m : Memory) (n : Nat) : List Byte := (List.range n).map (Memory.read m)

/-- `MemRead(B, i, 1)` on a buffer of capacity `cap` (R60). -/
def memRead (b : BufferName) (cap : Nat) (m : Memory) (i : Nat) : Except Fault Byte :=
  if i < cap then .ok (Memory.read m i) else .error (.bufferBounds b i)

/-- `MemWrite(B, i, 1, v)` on a buffer of capacity `cap` (R60). -/
def memWrite (b : BufferName) (cap : Nat) (m : Memory) (i : Nat) (v : Byte) : Except Fault Memory :=
  if i < cap then .ok (Memory.write m i v) else .error (.bufferBounds b i)

/-! ## Trace and outputs -/

/-- Appends an entry to the trace (R13). -/
def State.emit (s : State) (e : Event) : State := { s with trace := s.trace ++ [e] }

/-- `s.vccOn <- on; Pin(VCC, on)`. -/
def State.setVcc (s : State) (on : Bool) : State := { s with vccOn := on }.emit (.pin (.vcc on))

/-- `s.rstAsserted <- asserted; Pin(RST, asserted)`. -/
def State.setRst (s : State) (asserted : Bool) : State :=
  { s with rstAsserted := asserted }.emit (.pin (.rst asserted))

/-- `s.clkRunning <- true; Pin(CLK, run)`: the phase of a running clock is kept (R123). -/
def State.startClock (s : State) : State := { s with clkRunning := true }.emit (.pin (.clk true))

/-- `s.glitchOut <- on; Pin(GLITCH, on)`. -/
def State.setGlitch (s : State) (on : Bool) : State :=
  { s with glitchOut := on }.emit (.pin (.glitch on))

/-- `s.triggerOut <- on; Pin(TRIGGER, on)`. -/
def State.setTrigger (s : State) (on : Bool) : State :=
  { s with triggerOut := on }.emit (.pin (.trigger on))

/-- `s.ioMode <- m; s.rxHold <- none; Pin(IO, m)` (R129, R131). -/
def State.idleLine (s : State) (m : IoMode) : State :=
  { s with ioMode := m, rxHold := none }.emit (.pin (.io m))

/-- The idle level a direction stands for (R163). -/
def ioModeFor (on : Bool) : IoMode := if on then .released else .driveHigh

/-- `Listen(on)`: a change of the mode empties `rxHold`, the mode already in force keeps it (R163). -/
def State.listen (s : State) (on : Bool) : State :=
  { s with ioMode := ioModeFor on,
           rxHold := if s.ioMode = ioModeFor on then s.rxHold else none }.emit
    (.pin (.io (ioModeFor on)))

/-! ## The card and the time base -/

/-- `n` milliseconds elapse (R38). -/
def State.advance (s : State) (n : Nat) : State :=
  { s with msCounter := (s.msCounter + n) % 2 ^ s.cfg.timerWidth }

/-- What the receiver assembles from a frame: its data byte at the block's rate (R159), the frame's own
`misread` draw at any other rate (R339) or while no session gives a rate (log entry 8). -/
def State.assembled (s : State) (c : CardFrame) : Option Byte :=
  if c.rate = none ∨ (s.sessionValid = true ∧ c.rate = some s.baudRate) then
    some (assemble c.frame.levels)
  else c.misread

/-- Character reception: lost while not listening; else into `rxHold`, where `RX_OVERRUN` decides if
it is already full (R33, R159). -/
def State.receive (s : State) (c : CardFrame) : State :=
  if s.listening then
    match s.assembled c with
    | none => s
    | some r => if s.rxHold = none ∨ c.replace = true then { s with rxHold := some r } else s
  else s

/-- One act of the environment. -/
def State.act (s : State) : EnvEvent → State
  | .ms => s.advance 1
  | .frame f => s.receive f
  | .clk high => if s.clkRunning then { s with clkHigh := high } else s

/-- The turns of the environment still to come. -/
def State.withScript (s : State) (script : List (List EnvEvent)) : State :=
  { s with env := { script := script, card := s.env.card, flood := s.env.flood } }

/-- The frames of the card still to come after the script. -/
def State.withCard (s : State) (card : List CardFrame) : State :=
  { s with env := { script := s.env.script, card := card, flood := s.env.flood } }

/-- One turn of the environment: the next batch of its script, if any is left. -/
def State.envTurn (s : State) : State :=
  match s.env.script with
  | [] => s
  | batch :: rest => batch.foldl State.act (s.withScript rest)

/-- The milliseconds of the next turn of the environment. -/
def State.nextTicks (s : State) : Nat := (s.env.script.headD []).countP (· == .ms)

/-- A busy-wait in which at least `n` whole milliseconds elapse: the environment has a turn, and time
goes on until `n` have passed (R12: every wait is a lower bound). -/
def State.elapse (s : State) (n : Nat) : State := s.envTurn.advance (n - s.nextTicks)

/-- `WaitMs(n)`: the counter moves on by `n + 1` or more, since a counter difference of `n` guarantees
only more than `n - 1` ms (R36, R38, R130). -/
def State.waitMs (s : State) (n : Nat) : State := (s.emit (.waitMs n)).elapse (n + 1)

/-- `WaitUs(n)`. -/
def State.waitUs (s : State) (n : Nat) : State := (s.emit (.waitUs n)).elapse (n / 1000)

/-- `WaitClkLow()`: a busy-wait that ends in a low phase of the clock (R124). How long it lasts is open
between 0 and one clock period (93_implementation_defined.md I27): the environment has a turn in it, as in
every busy-wait (log entry 2), and no count is added of the model's own (DESIGN CHOICE, log entry 23). -/
def State.waitClkLow (s : State) : State := { (s.emit .clkLowWait).envTurn with clkHigh := false }

/-- `if s.clkRunning: WaitClkLow(); s.clkRunning <- false; Pin(CLK, stopped-low)` (R123, R131). -/
def State.stopClock (s : State) : State :=
  { (if s.clkRunning then s.waitClkLow else s) with clkRunning := false, clkHigh := false }.emit
    (.pin (.clk false))

/-! ## Characters -/

/-- `LineTx(r, par)`: one frame of 12 etu at the session's rate (R87, R155, R156). -/
def State.lineTx (s : State) (r : Byte) (par : Bool) : State :=
  (s.emit (.tx (txFrame r par) s.baudRate)).elapse (12 * 1000 / s.baudRate)

/-- `TxChar(b)`: translation, parity, guard time, frame (R156). -/
def State.txChar (s : State) (b : Byte) : State :=
  (s.waitUs (Config.guardUnitUs * s.cfg.guardFactor)).lineTx (translate s.convention b)
    (parity s.convention (translate s.convention b))

/-- `TxChar` for each byte of a list, in order. -/
def State.txAll : State → List Byte → State
  | s, [] => s
  | s, b :: bytes => (s.txChar b).txAll bytes

/-- `rxHold` emptied, what `RxTake()` leaves (R12). -/
def State.clearHold (s : State) : State := { s with rxHold := none }

/-- Time goes on until the deadline has elapsed. -/
def State.expire (s : State) (deadline : Nat) : State :=
  if s.elapsed deadline then s else { s with msCounter := deadline }

/-- Polling once the environment's script is used up and `rxHold` is empty: each frame the card still
sends arrives at a poll, then its flood, else the deadline passes. -/
def tailPoll (deadline : Nat) : List CardFrame → State → Option Byte × State
  | [], s =>
    match s.env.flood with
    | none => (none, s.expire deadline)
    | some f =>
      match (s.receive f).rxHold with
      | some r => (some r, (s.receive f).clearHold)
      | none => (none, (s.receive f).expire deadline)
  | f :: fs, s =>
    match ((s.withCard fs).receive f).rxHold with
    | some r => (some r, ((s.withCard fs).receive f).clearHold)
    | none => tailPoll deadline fs ((s.withCard fs).receive f)

/-- The end of a poll loop, after the script: a held byte, else `tailPoll`. -/
def State.lastPolls (s : State) (deadline : Nat) : Option Byte × State :=
  match s.rxHold with
  | some r => (some r, s.clearHold)
  | none => tailPoll deadline s.env.card s

/-- The poll loop of R160 and R193, availability before the deadline in every iteration (R309). The
environment has a turn before `RxTake()` and another before the deadline test. The first argument
bounds the iterations by the length of the script, of which each uses up a turn at least. -/
def pollLoop (deadline : Nat) : Nat → State → Option Byte × State
  | 0, s => s.lastPolls deadline
  | n + 1, s =>
    match s.env.script with
    | [] => s.lastPolls deadline
    | _ :: _ =>
      match s.envTurn.rxHold with
      | some r => (some r, s.envTurn.clearHold)
      | none =>
        if s.envTurn.envTurn.elapsed deadline then (none, s.envTurn.envTurn)
        else pollLoop deadline n s.envTurn.envTurn

/-- The poll loop with a deadline: a raw byte or `none` (`AtrTake`, R193). -/
def State.awaitChar (s : State) (deadline : Nat) : Option Byte × State :=
  pollLoop deadline s.env.script.length s

/-- `RxChar(timeoutMs)`: a logical byte or `none`; the convention is the one in force when the byte is
taken (R160). The environment has a turn before `Now()` is read. -/
def State.rxChar (s : State) (timeoutMs : Nat) : Option Byte × State :=
  let r := s.envTurn.awaitChar (s.envTurn.deadlineIn timeoutMs)
  (r.1.map (translate r.2.convention), r.2)

/-! ## Commands -/

/-- The end of a command: its result is returned (R318). -/
def State.finish (s : State) (r : Result) : Host.Outcome State Fault Refusal :=
  .next (s.emit (.returned r))

/-- A command that reads a session field faults `NoSession` while there is none (R23, R302). -/
def State.withSession (s : State) (opcode : Nat) (k : Host.Outcome State Fault Refusal) :
    Host.Outcome State Fault Refusal :=
  if s.sessionValid then k else .fault (.noSession opcode)

/-- A timeout operand outside the admitted set is refused (R343, log entry 10). -/
def State.withTimeout (s : State) (timeoutMs : Nat) (k : Host.Outcome State Fault Refusal) :
    Host.Outcome State Fault Refusal :=
  if s.admits timeoutMs then k else .refused (.timeoutNotAdmitted timeoutMs)

end Sys2Proof.Machine
end

