-- ==== Sys2Proof/Machine/Apdu.lean ====
section
/-! DEFINITION. SEND_APDU: the T=0 procedure-byte sequencer (44_apdu.md), as the state machine of
R252. -/

namespace Sys2Proof.Machine

/-- The sequencer goes to a step (R252). -/
def State.toStep (s : State) (st : ApduStep) : State := { s with apdu := { s.apdu with step := st } }

/-- The loop test `count < P3`: another procedure byte, or the final status (R255, R263). -/
def State.loopTest (s : State) : State :=
  s.toStep (if s.apdu.count < s.apdu.p3.toNat then .proc else .final)

/-- The five header bytes in their order (R92). -/
def ApduEngine.header (a : ApduEngine) : List Byte := [a.cla, a.ins, a.p1, a.p2, a.p3]

/-- `SendHeader()` and the switch to listening (R253, R254). -/
def State.sendHeader (s : State) : State :=
  ((s.listen false).txAll s.apdu.header).listen true

/-- The `n` bytes of a Send transfer, each `TxChar(MemRead(B, count, 1)); count <- count + 1` (R266). -/
def sendBytes : Nat → State → Except Fault State
  | 0, s => .ok s
  | n + 1, s =>
    match memRead .apdu s.apdu.cap s.buffer s.apdu.count with
    | .error f => .error f
    | .ok b =>
      let s1 := s.txChar b
      sendBytes n { s1 with apdu := { s1.apdu with count := s1.apdu.count + 1 } }

/-- The `n` bytes of a Receive transfer; false if one times out (R266). -/
def receiveBytes : Nat → State → Except Fault (Bool × State)
  | 0, s => .ok (true, s)
  | n + 1, s =>
    match s.rxChar s.apdu.timeoutMs with
    | (none, s1) => .ok (false, s1)
    | (some d, s1) =>
      match memWrite .apdu s1.apdu.cap s1.buffer s1.apdu.count d with
      | .error f => .error f
      | .ok m =>
        receiveBytes n { s1 with buffer := m, apdu := { s1.apdu with count := s1.apdu.count + 1 } }

/-- `Transfer(n)` (R266). -/
def State.transfer (s : State) (n : Nat) : Except Fault (Bool × State) :=
  match s.apdu.dir with
  | .send =>
    match sendBytes n (s.listen false) with
    | .ok s1 => .ok (true, s1.listen true)
    | .error f => .error f
  | .receive => receiveBytes n s

/-- The status of `RxTimeoutResult()`: the last two bytes of the buffer if `FALLBACK_SW` and there are
two, else the receive-timeout sentinel (R262). -/
def State.rxTimeoutStatus (s : State) : Except Fault StatusWord :=
  if s.cfg.fallbackSw = true ∧ 2 ≤ s.apdu.count then
    match memRead .apdu s.apdu.cap s.buffer (s.apdu.count - 2),
      memRead .apdu s.apdu.cap s.buffer (s.apdu.count - 1) with
    | .ok a, .ok b => .ok (statusWord a b)
    | .error f, _ => .error f
    | .ok _, .error f => .error f
  else .ok s.cfg.swRxTimeout

/-- What a procedure byte makes the sequencer do next (R256 to R261). -/
def State.dispatchProc (s : State) (pb : Byte) : State :=
  match classify pb s.apdu.ins with
  | .ack1 => s.toStep (.xfer 1)
  | .ackAll => s.toStep (.xfer (s.apdu.p3.toNat - s.apdu.count))
  | .null => s
  | .sw1 => s.toStep (.sw2 pb)
  | .other => s

/-- Step PROC: read a procedure byte, keep it in `proc` (R264) and dispatch on it (R255). -/
def State.procStep (s : State) : State :=
  match s.rxChar s.apdu.timeoutMs with
  | (none, s1) => s1.toStep (.done s1.cfg.swPbTimeout)
  | (some pb, s1) => { s1 with apdu := { s1.apdu with proc := some pb } }.dispatchProc pb

/-- Step XFER: the granted transfer, then the loop test, or the receive timeout (R257, R258, R262). -/
def State.xferStep (s : State) (n : Nat) : Except Fault State :=
  match s.transfer n with
  | .error f => .error f
  | .ok (true, s1) => .ok s1.loopTest
  | .ok (false, s1) =>
    match s1.rxTimeoutStatus with
    | .error f => .error f
    | .ok sw => .ok (s1.toStep (.done sw))

/-- Step SW2: `StatusAfterSW1(sw1)` (R260). -/
def State.sw2Step (s : State) (sw1 : Byte) : State :=
  match s.rxChar s.apdu.timeoutMs with
  | (none, s1) => s1.toStep (.done s1.cfg.swPbTimeout)
  | (some sw2, s1) => s1.toStep (.done (statusWord sw1 sw2))

/-- Step FINAL: `FinalStatus()` reads SW1 directly, without classification (R263), and then SW2 in the
way of R260. -/
def State.finalStep (s : State) : State :=
  match s.rxChar s.apdu.timeoutMs with
  | (none, s1) => s1.toStep (.done s1.cfg.swPbTimeout)
  | (some sw1, s1) => s1.toStep (.sw2 sw1)

/-- One step of the sequencer (R252). -/
def State.apduStep (s : State) : Except Fault State :=
  match s.apdu.step with
  | .header => .ok s.sendHeader.loopTest
  | .proc => .ok s.procStep
  | .xfer n => s.xferStep n
  | .sw2 sw1 => .ok (s.sw2Step sw1)
  | .final => .ok s.finalStep
  | .done _ => .ok s

/-- The result `{sw, count, procPresent, proc}` with the current `count` and `proc` (R250, R46); the
engine's registers do not survive the command (R40). -/
def State.apduFinish (s : State) (sw : StatusWord) : Host.Outcome State Fault Refusal :=
  { s with apdu := ApduEngine.idle }.finish
    (.apdu { sw := sw, count := s.apdu.count, proc := s.apdu.proc })

/-- The sequencer runs to DONE (R252). The first argument bounds its steps; `apduFuel` makes it large
enough that it runs out only where the card's flood keeps the sequencer in step PROC for ever (R267). -/
def apduRun : Nat → State → Host.Outcome State Fault Refusal
  | 0, _ => .fault .commandNeverEnds
  | n + 1, s =>
    match s.apdu.step with
    | .done sw => s.apduFinish sw
    | _ =>
      match s.apduStep with
      | .ok s1 => apduRun n s1
      | .error f => .fault f

/-- More steps than a sequencer can take that does not stay in PROC under a flood: two for each
character of the environment and for each data byte, and the steps before and after them. -/
def State.apduFuel (s : State) (p3 : Byte) : Nat :=
  2 * (s.env.script.length + s.env.card.length + p3.toNat) + 8

/-- SEND_APDU (R250): the session, the admission of the timeout (R343), the capacity (R251), then the
sequencer. -/
def execSendApdu (timeoutMs : Nat) (cla ins p1 p2 p3 : Byte) (dir : Dir) (cap : Nat) (s : State) :
    Host.Outcome State Fault Refusal :=
  s.withSession 0x40
    (s.withTimeout timeoutMs
      (if cap < p3.toNat then
        s.finish (.apdu { sw := s.cfg.swBadLength, count := 0, proc := none })
      else
        apduRun (s.apduFuel p3)
          { s with apdu := { timeoutMs := timeoutMs, cla := cla, ins := ins, p1 := p1, p2 := p2,
                             p3 := p3, dir := dir, cap := cap, count := 0, proc := none,
                             step := .header } }))

end Sys2Proof.Machine
end

