-- ==== Sys2Proof/Machine/Atr.lean ====
section
/-! DEFINITION. ACQUIRE_ATR: the ATR acquisition state machine (42_atr.md) and the negotiation step
(43_negotiation.md). -/

namespace Sys2Proof.Machine

/-- `AtrEntry()` (R192): the ATR rate, listening, a fresh engine, the overall deadline. -/
def State.atrEntry (s : State) : State :=
  let s1 := { s with baudRate := atrBaud s.cfg }.listen true
  { s1 with atr := { AtrEngine.idle with
      expected := 2, deadline := s1.deadlineIn s1.cfg.atrTimeoutMs } }

/-- `Store(b)` (R202). -/
def State.atrStore (s : State) (b : Byte) : Except Fault State :=
  match memWrite .atr Config.atrMax s.atr.buf s.atr.count b with
  | .ok buf => .ok { s with atr := { s.atr with buf := buf, count := s.atr.count + 1 } }
  | .error f => .error f

/-- The two raw patterns of a wrong initial guess (R196, R90). -/
def wrongGuess (c : Convention) (r : Byte) : Bool :=
  (c == .direct && r == 0x03#8) || (c == .inverse && r == 0x3B#8)

/-- `AtrTS(r, b)`: convention auto-detect (R196). -/
def State.atrTs (s : State) (r b : Byte) : Except Fault State :=
  if wrongGuess s.convention r then
    { s with convention := s.convention.flip, atr := { s.atr with state := .t0 } }.atrStore
      (translate s.convention.flip r)
  else { s with atr := { s.atr with state := .t0 } }.atrStore b

/-- `AtrT0(b)` (R197). -/
def State.atrT0 (s : State) (b : Byte) : Except Fault State :=
  { s with atr := { s.atr with
      histLen := lowNibble b, pending := presence b,
      expected := s.atr.expected + presenceCount (presence b) + lowNibble b,
      state := nextAtrState (presence b) } }.atrStore b

/-- `pending[i] <- 0` and the next byte class (R199, R200). -/
def AtrEngine.clear (a : AtrEngine) (i : Nat) : AtrEngine :=
  { a with pending := clearPending a.pending i, state := nextAtrState (clearPending a.pending i) }

/-- `AtrTA(b)`: the first TA byte of the ATR is retained (R199). -/
def State.atrTa (s : State) (b : Byte) : Except Fault State :=
  { s with atr := { s.atr with ta1 := s.atr.ta1.or (some b) }.clear 0 }.atrStore b

/-- `AtrTB(b)` (R200). -/
def State.atrTb (s : State) (b : Byte) : Except Fault State :=
  { s with atr := s.atr.clear 1 }.atrStore b

/-- `AtrTC(b)` (R200). -/
def State.atrTc (s : State) (b : Byte) : Except Fault State :=
  { s with atr := s.atr.clear 2 }.atrStore b

/-- `AtrTD(b)`: the next group's presence bits; the low nibble is ignored (R201). -/
def State.atrTd (s : State) (b : Byte) : Except Fault State :=
  { s with atr := { s.atr with
      pending := presence b, expected := s.atr.expected + presenceCount (presence b),
      state := nextAtrState (presence b) } }.atrStore b

/-- A historical byte is only stored (R202). -/
def State.atrHist (s : State) (b : Byte) : Except Fault State := s.atrStore b

/-- The case distinction of R191 on the byte class, for a raw byte and its translation. -/
def State.atrCase (s : State) (r b : Byte) : Except Fault State :=
  match s.atr.state with
  | .ts => s.atrTs r b
  | .t0 => s.atrT0 b
  | .ta => s.atrTa b
  | .tb => s.atrTb b
  | .tc => s.atrTc b
  | .td => s.atrTd b
  | .hist => s.atrHist b

/-- `deadline <- deadline + ATR_EXTEND_MS` mod `2^W` (R195). -/
def State.atrExtend (s : State) : State :=
  { s with atr := { s.atr with
      deadline := (s.atr.deadline + s.cfg.atrExtendMs) % 2 ^ s.cfg.timerWidth } }

/-- The body of R191's loop for a received raw byte: the deadline is extended, the byte translated
under the current convention (R194) and read as its class. -/
def State.atrByte (s : State) (r : Byte) : Except Fault State :=
  s.atrExtend.atrCase r (translate s.convention r)

/-- R191's loop: it ends at the computed length (R203), at the buffer's capacity (R204) or at the
deadline (R203). Each iteration stores one byte, so its first argument bounds the iterations. -/
def atrLoop : Nat → State → Except Fault State
  | 0, s => .ok s
  | n + 1, s =>
    if s.atr.count = s.atr.expected then .ok s
    else if s.atr.count = Config.atrMax then .ok s
    else
      match s.awaitChar s.atr.deadline with
      | (none, s1) => .ok s1
      | (some r, s1) =>
        match s1.atrByte r with
        | .ok s2 => atrLoop n s2
        | .error f => .error f

/-- `AtrOutput()` (R205); the negotiation field is filled in by R191's last line. -/
def State.atrOutput (s : State) : AtrRecord where
  rawBytes := Memory.take s.atr.buf s.atr.count
  historicalLength := s.atr.histLen
  ta1Present := s.atr.ta1.isSome
  ta1 := s.atr.ta1.getD 0x00#8
  expectedLength := s.atr.expected
  complete := s.atr.count == s.atr.expected
  negotiation := .notRun

/-- `Negotiate(rec)`: the outcome and the state after it (R231). -/
def State.negotiate (s : State) (rec : AtrRecord) : Negotiation × State :=
  if rec.complete && rec.ta1Present && !s.negotiatedThisCycle then
    match negotiatedBaud s.cfg rec.ta1 with
    | none => (.failed, { s with negotiatedThisCycle := true })
    | some baud => (.ok baud, { s with negotiatedThisCycle := true, baudRate := baud })
  else (.notRun, s)

/-- The end of R191: output, negotiation, result; the engine's registers do not survive (R39). -/
def State.atrFinish (s : State) : Host.Outcome State Fault Refusal :=
  { (s.negotiate s.atrOutput).2 with atr := AtrEngine.idle }.finish
    (.atr { s.atrOutput with negotiation := (s.negotiate s.atrOutput).1 })

/-- ACQUIRE_ATR (R191). -/
def execAcquireAtr (s : State) : Host.Outcome State Fault Refusal :=
  s.withSession 0x30
    (match atrLoop (Config.atrMax + 1) s.atrEntry with
    | .ok s1 => s1.atrFinish
    | .error f => .fault f)

end Sys2Proof.Machine
end

