-- ==== Sys2Proof/Machine/Hcu.lean ====
section
/-! DEFINITION. The Hardware Control Unit and the power sequences: SET_POWER, SET_RESET,
SET_CLOCK_FREERUN, GLITCH_PULSE, TRIGGER_PULSE, POWER_ON, POWER_OFF (40_hcu.md). None reads a session
field and none faults (R120). -/

namespace Sys2Proof.Machine

/-- SET_POWER (R121). -/
def execSetPower (on : Bool) (s : State) : Host.Outcome State Fault Refusal :=
  (s.setVcc on).finish .nothing

/-- SET_RESET (R122). -/
def execSetReset (asserted : Bool) (s : State) : Host.Outcome State Fault Refusal :=
  (s.setRst asserted).finish .nothing

/-- SET_CLOCK_FREERUN (R123). -/
def execSetClockFreerun (run : Bool) (s : State) : Host.Outcome State Fault Refusal :=
  (if run then s.startClock else s.stopClock).finish .nothing

/-- The pulse of `d` ticks, none for `d = 0` (R125). -/
def State.glitchPulse (s : State) (d : Nat) : State :=
  if 0 < d then ((s.setGlitch true).emit (.exactNs (d * s.cfg.tickNs))).setGlitch false else s

/-- GLITCH_PULSE (R125, R126). -/
def execGlitchPulse (d : Nat) (s : State) : Host.Outcome State Fault Refusal :=
  ((((s.emit (.exactNs s.cfg.glitchLatencyNs)).glitchPulse d).emit (.glitch d)).elapse
    ((s.cfg.glitchLatencyNs + d * s.cfg.tickNs) / 1000000)).finish .nothing

/-- TRIGGER_PULSE (R127). -/
def execTriggerPulse (s : State) : Host.Outcome State Fault Refusal :=
  ((((s.setTrigger true).emit (.holdNs s.cfg.triggerWidthNs)).setTrigger false).elapse
    (s.cfg.triggerWidthNs / 1000000)).finish .nothing

/-- The first three lines of R129: the session is created or reset (R332). -/
def State.newSession (s : State) : State :=
  { s with sessionValid := true, powerState := .resetting, convention := .direct,
           baudRate := atrBaud s.cfg, negotiatedThisCycle := false }

/-- The power-up order of R128 and R129. -/
def State.powerUp (s : State) : State :=
  ((((((s.newSession.setRst true).waitMs Config.resetWaitMs).setVcc true).idleLine
    .released).startClock).setRst false)

/-- POWER_ON (R129). -/
def execPowerOn (s : State) : Host.Outcome State Fault Refusal :=
  { s.powerUp with powerState := .active }.finish .nothing

/-- The power-down order of R131. -/
def State.powerDown (s : State) : State :=
  (((s.setRst true).stopClock).idleLine .driveLow).setVcc false

/-- POWER_OFF (R131): no session is created, `powerState` is written only if there is one. -/
def execPowerOff (s : State) : Host.Outcome State Fault Refusal :=
  { s.powerDown with
    powerState := if s.sessionValid then .off else s.powerState }.finish .nothing

end Sys2Proof.Machine
end

