-- ==== Sys2Proof/Machine/Transport.lean ====
section
/-! DEFINITION. The transport commands: SET_LISTENING, READ_BYTE, WRITE_BYTE, GET_CONVENTION,
SET_CONVENTION (41_transport.md). -/

namespace Sys2Proof.Machine

/-- SET_LISTENING (R164). -/
def execSetListening (on : Bool) (s : State) : Host.Outcome State Fault Refusal :=
  (s.listen on).finish .nothing

/-- READ_BYTE (R166): the session, the direction (R303), then the admission of the timeout (R343). -/
def execReadByte (timeoutMs : Nat) (s : State) : Host.Outcome State Fault Refusal :=
  s.withSession 0x21
    (if s.ioMode = .released then
      s.withTimeout timeoutMs
        ((s.rxChar timeoutMs).2.finish (.byte (s.rxChar timeoutMs).1))
    else .fault (.directionFault 0x21 s.ioMode))

/-- WRITE_BYTE (R168). -/
def execWriteByte (b : Byte) (s : State) : Host.Outcome State Fault Refusal :=
  s.withSession 0x22
    (if s.ioMode = .driveHigh then (s.txChar b).finish .nothing
    else .fault (.directionFault 0x22 s.ioMode))

/-- GET_CONVENTION (R170). -/
def execGetConvention (s : State) : Host.Outcome State Fault Refusal :=
  s.withSession 0x23 (s.finish (.flag (s.convention == .inverse)))

/-- SET_CONVENTION (R172). -/
def execSetConvention (inverse : Bool) (s : State) : Host.Outcome State Fault Refusal :=
  s.withSession 0x24 ({ s with convention := Convention.ofFlag inverse }.finish .nothing)

end Sys2Proof.Machine
end

