-- ==== Sys2Proof/Machine/Dispatch.lean ====
section
/-! DEFINITION. One arm per command. -/

namespace Sys2Proof.Machine

def exec (i : Instr) (s : State) : Host.Outcome State Fault Refusal :=
  match i with
  | .setPower on => Sys2Proof.Machine.execSetPower on s
  | .setReset asserted => Sys2Proof.Machine.execSetReset asserted s
  | .setClockFreerun run => Sys2Proof.Machine.execSetClockFreerun run s
  | .glitchPulse d => Sys2Proof.Machine.execGlitchPulse d s
  | .triggerPulse => Sys2Proof.Machine.execTriggerPulse s
  | .powerOn => Sys2Proof.Machine.execPowerOn s
  | .powerOff => Sys2Proof.Machine.execPowerOff s
  | .setListening on => Sys2Proof.Machine.execSetListening on s
  | .readByte timeoutMs => Sys2Proof.Machine.execReadByte timeoutMs s
  | .writeByte b => Sys2Proof.Machine.execWriteByte b s
  | .getConvention => Sys2Proof.Machine.execGetConvention s
  | .setConvention inverse => Sys2Proof.Machine.execSetConvention inverse s
  | .acquireAtr => Sys2Proof.Machine.execAcquireAtr s
  | .sendApdu timeoutMs cla ins p1 p2 p3 dir cap => Sys2Proof.Machine.execSendApdu timeoutMs cla ins p1 p2 p3 dir cap s

end Sys2Proof.Machine
end

