-- ==== Sys2Proof/Machine/Fetch.lean ====
section
/-! DEFINITION. How the block comes to its next command (10_state.md R20, R22): the host's next
submission, its buffer, the environment's turn between two commands, and the words the decoder reads. -/

namespace Sys2Proof.Machine

/-- The buffer a submission names, or the one of before. -/
def Submission.bufferFor (c : Submission) (old : Memory) : Memory :=
  match c.data with
  | some bytes => Memory.ofBytes 0 bytes
  | none => old

/-- The state in which the block starts on submission `c`, with `rest` still to come: the host has
named the buffer, and the card and the time base have had a turn since the command before. -/
def State.accept (s : State) (c : Submission) (rest : List Submission) : State :=
  { s with pending := rest, buffer := c.bufferFor s.buffer }.envTurn

/-- The word an illegal descriptor is refused with (R302); 0 where there is no word. -/
def refusedWord : DecodeError → Word
  | .noWord => 0#32
  | .undefinedOpcode w => w
  | .reservedBits w => w
  | .truncated w => w

/-- The command of a descriptor, which is exactly as long as its opcode says (R80, R84). -/
def Submission.command (c : Submission) : Except Word Instr :=
  match decode c.words with
  | .ok (i, []) => .ok i
  | .ok (_, w :: _) => .error w
  | .error e => .error (refusedWord e)

/-- The submission whose descriptor is the host's `nbits`-bit number. -/
def Submission.ofTableWord (nbits w : Nat) : Submission where
  words := (tableWords nbits w).take (descriptorLength ((tableWords nbits w).headD 0#32))
  data := none

end Sys2Proof.Machine
end

