-- ==== Sys2Proof/Machine/Step.lean ====
section
/-! DEFINITION. One step of the machine: the next command of the host, run to completion (R20). -/

namespace Sys2Proof.Machine

/-- With no command pending the block waits and the card and the time base have a turn (R331); else
the next command is decoded and executed, or refused `IllegalCommand` (R84). -/
def step (s : State) : Host.Outcome State Fault Refusal :=
  match s.pending with
  | [] => .next s.envTurn
  | c :: rest =>
    match c.command with
    | .ok i => exec i (s.accept c rest)
    | .error w => .refused (.illegalCommand w)

/-- The host issues the given descriptor next. -/
def State.withFetchWord (s : State) (nbits w : Nat) : State :=
  { s with pending := Submission.ofTableWord nbits w :: s.pending }

end Sys2Proof.Machine
end

