-- ==== Sys2Proof/Safety.lean ====
section
/-! DEFINITION. The terms claims use: the invariant of the states between commands, what a command
leaves to the card and the time base, the end of a run, and the cards that fall silent. -/

namespace Sys2Proof.Machine

/-- What holds of every state between two commands. Each field is a sentence of the spec about it. -/
structure State.Inv (s : State) : Prop where
  /-- The parameters meet R9. -/
  cfg : s.cfg.Valid
  /-- The counter is W bits wide (R38). -/
  counter : s.msCounter < 2 ^ s.cfg.timerWidth
  /-- The buffer is in canonical form. -/
  buffer : Memory.wf s.buffer = true
  /-- No character is held while the block is not listening (R33). -/
  hold : s.listening = false → s.rxHold = none
  /-- "between commands both are false" (R31). -/
  glitch : s.glitchOut = false
  /-- "between commands both are false" (R31). -/
  trigger : s.triggerOut = false
  /-- A stopped clock's output is low (R30). -/
  clock : s.clkRunning = false → s.clkHigh = false
  /-- ATR engine state exists only during ACQUIRE_ATR (R39). -/
  atr : s.atr = AtrEngine.idle
  /-- APDU engine state exists only during SEND_APDU (R40). -/
  apdu : s.apdu = ApduEngine.idle
  /-- The rate of a session is at least 1 (R25). -/
  baud : s.sessionValid = true → 1 ≤ s.baudRate
  /-- Resetting is a state inside POWER_ON only (R26). -/
  power : s.powerState ≠ .resetting

/-- `t` differs from `s` at most in what the card and the time base write: the receive holding register
and the counter (R20), the phase of the clock, and what is still to come from them. -/
def State.SameButEnv (s t : State) : Prop :=
  t = { s with rxHold := t.rxHold, msCounter := t.msCounter, clkHigh := t.clkHigh, env := t.env }

/-- A command ended with a result, in a state `p` holds of. -/
def Returns (o : Host.Outcome State Fault Refusal) (p : State → Prop) : Prop :=
  ∃ t, o = .next t ∧ p t

/-- The trace entries of one `TxChar(b)`: the guard time, then the frame of the translated byte with
its parity bit, at the session's rate (R156). -/
def State.txEvents (s : State) (b : Byte) : List Event :=
  [.waitUs (Config.guardUnitUs * s.cfg.guardFactor),
   .tx (txFrame (translate s.convention b) (parity s.convention (translate s.convention b)))
     s.baudRate]

/-- The presence bits a T0 or TDn byte carries: its high nibble, bit 0 TA, bit 1 TB, bit 2 TC, bit 3 TD
(R89, R42). -/
def groupOf (b : Byte) : BitVec 4 := BitVec.ofNat 4 (b.toNat / 16)

/-- How many interface bytes a group of presence bits announces: one for each bit that is set (R197). -/
def groupSize (p : BitVec 4) : Nat :=
  (p.getLsbD 0).toNat + (p.getLsbD 1).toNat + (p.getLsbD 2).toNat + (p.getLsbD 3).toNat

/-- How many further interface bytes the TDn bytes among `bytes` announce, where `bytes` are the ATR
bytes after T0 (or a TDn) and `p` holds the presence bits still pending: the sum of R207 from there on.
The classes come in the order TA, TB, TC, TD (R198); a TA, TB or TC byte announces nothing, a TD byte the
group of its high nibble, and with no bit pending the historical bytes have begun. -/
def announced : BitVec 4 → List Byte → Nat
  | _, [] => 0
  | p, b :: bytes =>
    if p.getLsbD 0 then announced (p &&& 0b1110#4) bytes
    else if p.getLsbD 1 then announced (p &&& 0b1101#4) bytes
    else if p.getLsbD 2 then announced (p &&& 0b1011#4) bytes
    else if p.getLsbD 3 then groupSize (groupOf b) + announced (groupOf b) bytes
    else 0

/-- The first TA byte among the ATR bytes after T0 (or a TDn), where `p` holds the presence bits still
pending (R199). -/
def firstTa : BitVec 4 → List Byte → Option Byte
  | _, [] => none
  | p, b :: bytes =>
    if p.getLsbD 0 then some b
    else if p.getLsbD 1 then firstTa (p &&& 0b1101#4) bytes
    else if p.getLsbD 2 then firstTa (p &&& 0b1011#4) bytes
    else if p.getLsbD 3 then firstTa (groupOf b) bytes
    else none

/-- The frames the card will send, in order: those of the script, those after it, and the one it repeats. -/
def Environment.frames (e : Environment) : List CardFrame :=
  e.script.flatten.filterMap (fun
    | .frame f => some f
    | .ms => none
    | .clk _ => none) ++ e.card ++ e.flood.toList

/-- The raw byte is held by the receiver, or is what it assembles from a frame the card will send. -/
def State.mayReceive (s : State) (raw : Byte) : Prop :=
  s.rxHold = some raw ∨ ∃ f ∈ s.env.frames, s.assembled f = some raw

/-- What SEND_APDU reads the next character of the card as. -/
inductive Await where
  /-- A procedure byte (R255). -/
  | procByte
  /-- A data byte of a granted Receive transfer with so many bytes left (R266). -/
  | data (left : Nat)
  /-- The first byte of the final status (R263). -/
  | sw1
  /-- The second byte of a status, after this first one (R260, R263). -/
  | sw2 (sw1 : Byte)
  deriving DecidableEq, Repr

/-- After a transfer, or after the header: a procedure byte while `count < P3`, else the final status
(R255, R256, R263, R265). -/
def Await.next (count p3 : Nat) : Await := if count < p3 then .procByte else .sw1

/-- How an exchange ended: the result, the data bytes received, the characters not read. -/
structure Exchanged where
  result : ApduResult
  got : List Byte
  rest : List Byte
  deriving DecidableEq, Repr

/-- The status of a data byte that does not arrive, with `got` received so far (R262). -/
def missingDataStatus (cfg : Config) (got : List Byte) : StatusWord :=
  if cfg.fallbackSw = true ∧ 2 ≤ got.length then
    statusWord (got.getD (got.length - 2) 0x00#8) (got.getD (got.length - 1) 0x00#8)
  else cfg.swRxTimeout

/-- What a SEND_APDU past its header makes of the logical bytes that the card sends before it falls
silent, written from R255 to R268 by recursion on those bytes. -/
def exchange (cfg : Config) (ins : Byte) (p3 : Nat) (dir : Dir) :
    Await → Nat → Option Byte → List Byte → List Byte → Exchanged
  | .data _, count, proc, got, [] => ⟨⟨missingDataStatus cfg got, count, proc⟩, got, []⟩
  | .procByte, count, proc, got, [] => ⟨⟨cfg.swPbTimeout, count, proc⟩, got, []⟩
  | .sw1, count, proc, got, [] => ⟨⟨cfg.swPbTimeout, count, proc⟩, got, []⟩
  | .sw2 _, count, proc, got, [] => ⟨⟨cfg.swPbTimeout, count, proc⟩, got, []⟩
  | .procByte, count, _, got, b :: bytes =>
    match classify b ins, dir with
    | .ack1, .send => exchange cfg ins p3 dir (.next (count + 1) p3) (count + 1) (some b) got bytes
    | .ack1, .receive => exchange cfg ins p3 dir (.data 1) count (some b) got bytes
    | .ackAll, .send => exchange cfg ins p3 dir .sw1 p3 (some b) got bytes
    | .ackAll, .receive => exchange cfg ins p3 dir (.data (p3 - count)) count (some b) got bytes
    | .null, _ => exchange cfg ins p3 dir .procByte count (some b) got bytes
    | .sw1, _ => exchange cfg ins p3 dir (.sw2 b) count (some b) got bytes
    | .other, _ => exchange cfg ins p3 dir .procByte count (some b) got bytes
  | .data left, count, proc, got, b :: bytes =>
    exchange cfg ins p3 dir (if left ≤ 1 then .next (count + 1) p3 else .data (left - 1)) (count + 1)
      proc (got ++ [b]) bytes
  | .sw1, count, proc, got, b :: bytes => exchange cfg ins p3 dir (.sw2 b) count proc got bytes
  | .sw2 sw1, count, proc, got, b :: bytes => ⟨⟨statusWord sw1 b, count, proc⟩, got, bytes⟩

/-- The card of this environment falls silent (the fairness premise of R267 and
93_implementation_defined.md I3): it sends finitely many characters. -/
def Environment.settles (e : Environment) : Prop := e.flood = none

/-- No turn of the environment is scripted: characters arrive at the polls, in the order of `card`
(the `CARD:` lines of R86). -/
def Environment.unscripted (e : Environment) : Prop := e.script = []

/-- What frames of the card at the block's current etu bring, in order: their data bytes. -/
def rawBytesOf (frames : List CardFrame) : List Byte := frames.map fun c => c.frame.data

/-- Every frame is at the block's current etu (R159). -/
def atCurrentEtu (frames : List CardFrame) : Prop := ∀ c ∈ frames, c.rate = none

/-- A character the card sends at the block's current etu: raw byte `r` with parity bit `par`. -/
def CardFrame.ofRaw (r : Byte) (par : Bool) : CardFrame where
  frame := txFrame r par
  rate := none
  misread := none
  replace := false

end Sys2Proof.Machine
end

