-- ==== Sys2Proof/Certificates/Slice0/Obligations.lean ====
section
/-! DEFINITION. The statements about the model. Each docstring names the rules of spec/ it comes from;
the draws of the card and of the time base are universally quantified with the state. -/

section Statements

open Sys2Proof Sys2Proof.Machine

/-! ## Encoding -/

/-- R80 to R83: the descriptor of a well-formed command decodes to it, and the words after it are left. -/
def Obligations.DecodeInvertsEncode : Prop :=
  ∀ (i : Instr) (rest : List Word), i.WellFormed → decode (encode i ++ rest) = .ok (i, rest)

/-- R80 to R84: what decodes is the descriptor of a well-formed command, so each command has one
descriptor. -/
def Obligations.EncodeInvertsDecode : Prop :=
  ∀ (ws : List Word) (i : Instr) (rest : List Word), decode ws = .ok (i, rest) →
    i.WellFormed ∧ encode i ++ rest = ws

/-- R84 and R302: a one-word descriptor whose opcode is not in R83, or whose reserved bits are not all
zero, is refused `IllegalCommand` with the word, and so is any descriptor that is no command's. -/
def Obligations.IllegalDescriptorRefused : Prop :=
  (∀ (s : State) (c : Submission) (rest : List Submission) (w : Word) (ws : List Word),
    s.pending = c :: rest → c.words = w :: ws →
    opcodeOf w ∉ [0x01, 0x02, 0x03, 0x04, 0x05, 0x10, 0x11, 0x20, 0x21, 0x22, 0x23, 0x24, 0x30,
      0x40] → step s = .refused (.illegalCommand w)) ∧
  (∀ (s : State) (c : Submission) (rest : List Submission) (w : Word),
    s.pending = c :: rest → c.words = [w] → (∀ i : Instr, i.WellFormed → encode i ≠ [w]) →
    step s = .refused (.illegalCommand w)) ∧
  (∀ (s : State) (c : Submission) (rest : List Submission),
    s.pending = c :: rest → (∀ i : Instr, i.WellFormed → encode i ≠ c.words) →
    ∃ w, step s = .refused (.illegalCommand w))

/-- Section 2.1 of 95_test_vectors.md: words written out from the formats decode to their commands. -/
def Obligations.SpecWordsDecode : Prop :=
  decode [0x03000001#32] = .ok (.setClockFreerun true, []) ∧
  decode [0x0400000A#32] = .ok (.glitchPulse 10, []) ∧
  decode [0x11000000#32] = .ok (.powerOff, []) ∧
  decode [0x21000064#32] = .ok (.readByte 100, []) ∧
  decode [0x2200003F#32] = .ok (.writeByte 0x3F#8, []) ∧
  decode [0x30000000#32] = .ok (.acquireAtr, []) ∧
  decode [0x400001F4#32, 0x00A40400#32, 0x02800002#32] =
    .ok (.sendApdu 500 0x00#8 0xA4#8 0x04#8 0x00#8 0x02#8 .send 2, [])

/-! ## The step -/

/-- R20, R70: a step executes the host's next command in the state in which the block accepts it: the
command is no longer pending, the buffer is the one the host named, and otherwise only the card and the
time base have acted since the command before (the turn between commands is the model's, log entry 2). -/
def Obligations.StepRunsDecodedCommand : Prop :=
  ∀ (s : State) (c : Submission) (rest : List Submission) (i : Instr),
    s.pending = c :: rest → decode c.words = .ok (i, []) →
    step s = exec i (s.accept c rest) ∧
    State.SameButEnv { s with pending := rest, buffer := c.bufferFor s.buffer } (s.accept c rest)

/-- R331: with no command the block waits; only the card and the time base act. -/
def Obligations.IdleBlockWaits : Prop :=
  ∀ s : State, s.pending = [] → ∃ t, step s = .next t ∧ s.SameButEnv t

/-! ## Hardware Control Unit -/

/-- R121. -/
def Obligations.SetPowerEffect : Prop :=
  ∀ (on : Bool) (s : State),
    encode (.setPower on) = [BitVec.ofNat 32 (0x01 * 2 ^ 24 + on.toNat)] ∧
    exec (.setPower on) s =
      .next { s with vccOn := on, trace := s.trace ++ [.pin (.vcc on), .returned .nothing] }

/-- R122. -/
def Obligations.SetResetEffect : Prop :=
  ∀ (asserted : Bool) (s : State),
    encode (.setReset asserted) = [BitVec.ofNat 32 (0x02 * 2 ^ 24 + asserted.toNat)] ∧
    exec (.setReset asserted) s =
      .next { s with
        rstAsserted := asserted,
        trace := s.trace ++ [.pin (.rst asserted), .returned .nothing] }

/-- R123: a start keeps the phase of the clock (`clkHigh`, log entry 11); a stop of a running clock waits
for the low phase, in which the environment has a turn (the model's, log entries 2 and 23); a stop leaves the
output low. -/
def Obligations.SetClockFreerunEffect : Prop :=
  ∀ s : State,
    (∀ run, encode (.setClockFreerun run) = [BitVec.ofNat 32 (0x03 * 2 ^ 24 + run.toNat)]) ∧
    exec (.setClockFreerun true) s =
      .next { s with
        clkRunning := true, trace := s.trace ++ [.pin (.clk true), .returned .nothing] } ∧
    (s.clkRunning = false → exec (.setClockFreerun false) s =
      .next { s with
        clkHigh := false, trace := s.trace ++ [.pin (.clk false), .returned .nothing] }) ∧
    (s.clkRunning = true → Returns (exec (.setClockFreerun false) s) fun t =>
      State.SameButEnv
        { s with
          clkRunning := false,
          trace := s.trace ++ [.clkLowWait, .pin (.clk false), .returned .nothing] } t ∧
      t.clkHigh = false)

/-- R125, R126: the latency and the width are exact and the same on every execution; nothing of the
block comes between them; no pulse for 0 ticks. The trace entry `exactNs` is the model's record of an
exact duration (log entry 12), in whole nanoseconds, as the tick and the latency are (log entry 6). -/
def Obligations.GlitchPulseEffect : Prop :=
  ∀ (d : Nat) (s : State),
    encode (.glitchPulse d) = [BitVec.ofNat 32 (0x04 * 2 ^ 24 + d)] ∧
    Returns (exec (.glitchPulse d) s) fun t =>
      State.SameButEnv
        { s with
          glitchOut := if 0 < d then false else s.glitchOut,
          trace := s.trace ++ .exactNs s.cfg.glitchLatencyNs ::
            (if 0 < d then
              [.pin (.glitch true), .exactNs (d * s.cfg.tickNs), .pin (.glitch false)]
            else []) ++ [.glitch d, .returned .nothing] } t

/-- R127. The width in whole nanoseconds and the trace entry `holdNs` are the model's (log entries 6
and 12). -/
def Obligations.TriggerPulseEffect : Prop :=
  ∀ s : State,
    encode .triggerPulse = [0x05000000#32] ∧
    Returns (exec .triggerPulse s) fun t =>
      State.SameButEnv
        { s with
          triggerOut := false,
          trace := s.trace ++ [.pin (.trigger true), .holdNs s.cfg.triggerWidthNs,
            .pin (.trigger false), .returned .nothing] } t

/-- R129 (and R128, R332): POWER_ON leaves a fresh session whatever the one before, sets its pins in the
cold-reset order, and changes nothing else but what the card and the time base do. In the wait between, the
counter moves on by 13 (R130), or by what the environment's turn counts if that is more (the turn is the
model's, log entries 2 and 16). -/
def Obligations.PowerOnEffect : Prop :=
  ∀ s : State,
    encode .powerOn = [0x10000000#32] ∧
    Returns (exec .powerOn s) fun t =>
      t = { s with
        sessionValid := true, powerState := .active, convention := .direct,
        baudRate := s.cfg.fClk / 372, negotiatedThisCycle := false,
        rstAsserted := false, vccOn := true, ioMode := .released, rxHold := none,
        clkRunning := true, clkHigh := t.clkHigh, msCounter := t.msCounter, env := t.env,
        trace := s.trace ++ [.pin (.rst true), .waitMs 12, .pin (.vcc true), .pin (.io .released),
          .pin (.clk true), .pin (.rst false), .returned .nothing] } ∧
      t.msCounter = (s.msCounter + max 13 s.nextTicks) % 2 ^ s.cfg.timerWidth

/-- R131: the reverse order, no wait but for the low phase of a running clock, no session created. The
environment's turn in that wait is the model's (log entries 2 and 23). -/
def Obligations.PowerOffEffect : Prop :=
  ∀ s : State,
    encode .powerOff = [0x11000000#32] ∧
    Returns (exec .powerOff s) fun t =>
      t = { s with
        rstAsserted := true, clkRunning := false, clkHigh := false, ioMode := .driveLow,
        rxHold := none, vccOn := false,
        powerState := if s.sessionValid then .off else s.powerState,
        msCounter := t.msCounter, env := t.env,
        trace := s.trace ++ .pin (.rst true) :: (if s.clkRunning then [Event.clkLowWait] else []) ++
          [.pin (.clk false), .pin (.io .driveLow), .pin (.vcc false), .returned .nothing] } ∧
      (s.clkRunning = false → t.msCounter = s.msCounter ∧ t.env = s.env)

/-- R120: the five HCU commands run in every state, never fault, and leave the session as it is. -/
def Obligations.HcuCommandsAlwaysRun : Prop :=
  ∀ (i : Instr) (s : State),
    (∃ on, i = .setPower on) ∨ (∃ a, i = .setReset a) ∨ (∃ r, i = .setClockFreerun r) ∨
      (∃ d, i = .glitchPulse d) ∨ i = .triggerPulse →
    Returns (exec i s) fun t =>
      t.sessionValid = s.sessionValid ∧ t.convention = s.convention ∧ t.baudRate = s.baudRate ∧
      t.powerState = s.powerState ∧ t.negotiatedThisCycle = s.negotiatedThisCycle

/-! ## Transport layer -/

/-- R88, R151: the inverse transform bit by bit, and that it is an involution. -/
def Obligations.InverseTransform : Prop :=
  ∀ b : Byte,
    (∀ i : Fin 8, (inv b).getLsbD (7 - i.val) = !b.getLsbD i.val) ∧
    translate .direct b = b ∧ translate .inverse b = inv b ∧
    ∀ c, translate c (translate c b) = b

/-- R154: even for Direct and odd for Inverse, counted over the raw data bits and the parity bit; under
Inverse that is even parity of the logical byte. -/
def Obligations.ParityOverDataAndParityBit : Prop :=
  ∀ r : Byte,
    (popcount r + (parity .direct r).toNat) % 2 = 0 ∧
    (popcount r + (parity .inverse r).toNat) % 2 = 1 ∧
    (popcount (translate .inverse r) + (!parity .inverse r).toNat) % 2 = 0

/-- R87, R153, R158, R156: a frame has 12 bits, start low, data least significant first, parity, two stop
bits, which are high in the frames the block sends; the receiver assembles the data bits and does not look
at parity and stop bits. -/
def Obligations.ReceiverIgnoresParityAndStop : Prop :=
  (∀ f : Frame,
    f.levels.length = 12 ∧ f.levels[0]? = some false ∧
    (∀ i : Fin 8, f.levels[i.val + 1]? = some (f.data.getLsbD i.val)) ∧
    f.levels[9]? = some f.parity ∧ f.levels[10]? = some f.stop1 ∧ f.levels[11]? = some f.stop2 ∧
    assemble f.levels = f.data) ∧
  (∀ (r : Byte) (par : Bool),
    (txFrame r par).data = r ∧ (txFrame r par).parity = par ∧
    (txFrame r par).levels[10]? = some true ∧ (txFrame r par).levels[11]? = some true)

/-- R159 (and R33): a frame at the current etu fills `rxHold` while listening; on a full `rxHold` the
overrun draw decides; while not listening it is lost. Nothing else changes. -/
def Obligations.CharacterReception : Prop :=
  ∀ (s : State) (c : CardFrame),
    c.rate = none ∨ (s.sessionValid = true ∧ c.rate = some s.baudRate) →
    (s.ioMode = .released → s.rxHold = none ∨ c.replace = true →
      s.receive c = { s with rxHold := some c.frame.data }) ∧
    (s.ioMode = .released → s.rxHold ≠ none → c.replace = false → s.receive c = s) ∧
    (s.ioMode ≠ .released → s.receive c = s)

/-- R163, R164: a change of the mode empties `rxHold`, the current mode keeps it, both record the event. -/
def Obligations.SetListeningEffect : Prop :=
  ∀ (on : Bool) (s : State),
    encode (.setListening on) = [BitVec.ofNat 32 (0x20 * 2 ^ 24 + on.toNat)] ∧
    ∀ m, m = (if on then IoMode.released else .driveHigh) →
      exec (.setListening on) s =
        .next { s with
          ioMode := m, rxHold := if s.ioMode = m then s.rxHold else none,
          trace := s.trace ++ [.pin (.io m), .returned .nothing] }

/-- R166, R160: READ_BYTE in a session, listening, with an admitted timeout returns a byte or `none`
and changes nothing but what the card and the time base write. A byte that is returned is taken, and is the
translation of a raw byte that was held or that the receiver assembles from a frame of the card (R159);
`none` is returned only once the deadline has elapsed. The turn of the environment before `Now()` is
the model's (log entry 2). -/
def Obligations.ReadByteReturns : Prop :=
  ∀ (timeoutMs : Nat) (s : State),
    s.sessionValid = true → s.ioMode = .released → timeoutMs < 2 ^ (s.cfg.timerWidth - 1) →
    2 ≤ s.cfg.timerWidth →
    Returns (exec (.readByte timeoutMs) s) fun t =>
      ∃ r : Option Byte,
        State.SameButEnv { s with trace := s.trace ++ [.returned (.byte r)] } t ∧
        (∀ b, r = some b → t.rxHold = none ∧
          ∃ raw, b = translate s.convention raw ∧ s.mayReceive raw) ∧
        (r = none → t.elapsed (s.envTurn.deadlineIn timeoutMs) = true)

/-- R160, R159: "a byte already held is returned even with timeoutMs = 0", under the convention in force;
with none held, the next character of the card is returned, under that convention (the example of R166).
That it arrives at a poll before the deadline is the model's default environment (log entry 2). -/
def Obligations.ReadByteHeldByteFirst : Prop :=
  ∀ (timeoutMs : Nat) (s : State),
    s.sessionValid = true → s.ioMode = .released → timeoutMs < 2 ^ (s.cfg.timerWidth - 1) →
    s.env.unscripted →
    (∀ r, s.rxHold = some r →
      exec (.readByte timeoutMs) s =
        .next { s with
          rxHold := none,
          trace := s.trace ++ [.returned (.byte (some (translate s.convention r)))] }) ∧
    (∀ f more, s.rxHold = none → s.env.card = f :: more →
      f.rate = none ∨ f.rate = some s.baudRate →
      exec (.readByte timeoutMs) s =
        .next { s with
          env := { s.env with card := more },
          trace := s.trace ++ [.returned (.byte (some (translate s.convention f.frame.data)))] })

/-- R166, R305: with a silent card READ_BYTE returns `none` once its deadline has come, not before.
That the first poll at or after the deadline finds the counter at the deadline is the model's default
environment (log entry 2). -/
def Obligations.ReadByteSilentCard : Prop :=
  ∀ (timeoutMs : Nat) (s : State),
    s.sessionValid = true → s.ioMode = .released → timeoutMs < 2 ^ (s.cfg.timerWidth - 1) →
    2 ≤ s.cfg.timerWidth → s.msCounter < 2 ^ s.cfg.timerWidth →
    s.env.unscripted → s.env.card = [] → s.env.flood = none → s.rxHold = none →
    exec (.readByte timeoutMs) s =
      .next { s with
        msCounter := (s.msCounter + timeoutMs) % 2 ^ s.cfg.timerWidth,
        trace := s.trace ++ [.returned (.byte none)] }

/-- R168, R156, R157: WRITE_BYTE in a session, transmit-armed: the guard time, then the translated byte
with its parity bit at the session's rate; nothing else of the block changes and nothing is received. -/
def Obligations.WriteByteSends : Prop :=
  ∀ (b : Byte) (s : State), s.sessionValid = true → s.ioMode = .driveHigh →
    encode (.writeByte b) = [BitVec.ofNat 32 (0x22 * 2 ^ 24 + b.toNat)] ∧
    Returns (exec (.writeByte b) s) fun t =>
      State.SameButEnv
        { s with
          trace := s.trace ++ [.waitUs (104 * s.cfg.guardFactor),
            .tx (txFrame (translate s.convention b)
              (parity s.convention (translate s.convention b))) s.baudRate,
            .returned .nothing] } t ∧
      t.rxHold = s.rxHold

/-- R170, R171: the convention as a Boolean, true = Inverse; nothing is written. Without a session the
command faults. -/
def Obligations.GetConventionEffect : Prop :=
  ∀ s : State,
    encode .getConvention = [0x23000000#32] ∧
    (s.sessionValid = false → exec .getConvention s = .fault (.noSession 0x23)) ∧
    (s.sessionValid = true → exec .getConvention s =
      .next { s with trace := s.trace ++ [.returned (.flag (s.convention == .inverse))] })

/-- R172: only the convention is written. Without a session the command faults. -/
def Obligations.SetConventionEffect : Prop :=
  ∀ (inverse : Bool) (s : State),
    encode (.setConvention inverse) = [BitVec.ofNat 32 (0x24 * 2 ^ 24 + inverse.toNat)] ∧
    (s.sessionValid = false → exec (.setConvention inverse) s = .fault (.noSession 0x24)) ∧
    (s.sessionValid = true → exec (.setConvention inverse) s =
      .next { s with
        convention := if inverse then .inverse else .direct,
        trace := s.trace ++ [.returned .nothing] })

/-! ## Faults and refusals -/

/-- R23, R331: without a session the six commands that read a session field fault `NoSession`, whatever
the direction or the lengths (R303), and the HCU commands, the power commands and SET_LISTENING run. That a
timeout of `2^(W-1)` or more faults too, and is not refused, is the model's order (log entry 10). -/
def Obligations.NoSessionFaults : Prop :=
  ∀ (i : Instr) (s : State), s.sessionValid = false →
    (i.opcode ∈ [0x21, 0x22, 0x23, 0x24, 0x30, 0x40] →
      exec i s = .fault (.noSession i.opcode)) ∧
    (i.opcode ∉ [0x21, 0x22, 0x23, 0x24, 0x30, 0x40] → ∃ t, exec i s = .next t)

/-- R165: READ_BYTE while not listening and WRITE_BYTE while not transmit-armed fault; no other command
raises `DirectionFault`. -/
def Obligations.WrongDirectionFaults : Prop :=
  ∀ s : State,
    (∀ timeoutMs, s.sessionValid = true → timeoutMs < 2 ^ (s.cfg.timerWidth - 1) →
      s.ioMode ≠ .released →
      exec (.readByte timeoutMs) s = .fault (.directionFault 0x21 s.ioMode)) ∧
    (∀ b, s.sessionValid = true → s.ioMode ≠ .driveHigh →
      exec (.writeByte b) s = .fault (.directionFault 0x22 s.ioMode)) ∧
    (∀ i op m, exec i s = .fault (.directionFault op m) → i.opcode ∈ [0x21, 0x22])

/-- R343: a timeout operand of `2^(W-1)` or more is refused (its place after the session and direction
checks is the model's, log entry 10). -/
def Obligations.WideTimeoutRefused : Prop :=
  ∀ (timeoutMs : Nat) (s : State), s.sessionValid = true →
    2 ^ (s.cfg.timerWidth - 1) ≤ timeoutMs →
    (s.ioMode = .released →
      exec (.readByte timeoutMs) s = .refused (.timeoutNotAdmitted timeoutMs)) ∧
    (∀ cla ins p1 p2 p3 dir cap,
      exec (.sendApdu timeoutMs cla ins p1 p2 p3 dir cap) s =
        .refused (.timeoutNotAdmitted timeoutMs))

/-- R302, R60, R267: the only faults and refusals of the commands, and when: `NoSession`,
`DirectionFault`, the stuck state of SEND_APDU under a flood of the card, a wide timeout;
`BufferBounds` is never raised. -/
def Obligations.OnlyTheNamedStops : Prop :=
  (∀ (i : Instr) (s : State) (f : Fault), exec i s = .fault f →
    (f = .noSession i.opcode ∧ s.sessionValid = false ∧
      i.opcode ∈ [0x21, 0x22, 0x23, 0x24, 0x30, 0x40]) ∨
    (f = .directionFault i.opcode s.ioMode ∧ s.sessionValid = true ∧
      ((i.opcode = 0x21 ∧ s.ioMode ≠ .released) ∨ (i.opcode = 0x22 ∧ s.ioMode ≠ .driveHigh))) ∨
    (f = .commandNeverEnds ∧ i.opcode = 0x40 ∧ s.sessionValid = true ∧ s.env.flood ≠ none)) ∧
  (∀ (i : Instr) (s : State) (r : Refusal), exec i s = .refused r →
    ∃ n, r = .timeoutNotAdmitted n ∧ 2 ^ (s.cfg.timerWidth - 1) ≤ n ∧
      (i = .readByte n ∨ ∃ cla ins p1 p2 p3 dir cap, i = .sendApdu n cla ins p1 p2 p3 dir cap))

/-- R311: for every start value and every timeout below `2^(W-1)`, the signed test says a deadline has
elapsed exactly when that many milliseconds have passed, as long as it is tested less than `2^(W-1)` ms
after the deadline (log entry 19). -/
def Obligations.DeadlineTestSurvivesWraparound : Prop :=
  ∀ (w t0 n k : Nat), 2 ≤ w → n < 2 ^ (w - 1) → k < n + 2 ^ (w - 1) →
    (elapsedAt w ((t0 + k) % 2 ^ w) ((t0 + n) % 2 ^ w) = true ↔ n ≤ k)

/-! ## ATR acquisition and negotiation -/

/-- R191, R192, R195, R203, R204, R345: ACQUIRE_ATR in a session always ends with a record, listening, within
32 bytes; `complete` says whether the computed length was reached (R44); a record of fewer than 32 bytes is
incomplete only once the overall deadline has elapsed, which is ATR_TIMEOUT_MS after the command's start and
ATR_EXTEND_MS more for each byte received; the outputs, the power state, the buffer and the APDU engine are
as before. That no time passes between the command's start and its `Now()` is the model's (log entry 2). -/
def Obligations.AcquireAtrCompletes : Prop :=
  ∀ s : State, s.sessionValid = true →
    Returns (exec .acquireAtr s) fun t =>
      ∃ rec : AtrRecord,
        t = { s with
          convention := t.convention, baudRate := t.baudRate,
          negotiatedThisCycle := t.negotiatedThisCycle, ioMode := .released, rxHold := t.rxHold,
          msCounter := t.msCounter, clkHigh := t.clkHigh, env := t.env, atr := AtrEngine.idle,
          trace := s.trace ++ [.pin (.io .released), .returned (.atr rec)] } ∧
        rec.rawBytes.length ≤ 32 ∧ rec.historicalLength ≤ 15 ∧
        (rec.complete = true ↔ rec.rawBytes.length = rec.expectedLength) ∧
        (rec.complete = false → rec.rawBytes.length < 32 →
          t.elapsed ((s.msCounter + s.cfg.atrTimeoutMs + rec.rawBytes.length * s.cfg.atrExtendMs) %
            2 ^ s.cfg.timerWidth) = true)

/-- R194, R196, R202, R203, R204, R163, R335: from a card that sends characters at the current etu, the
record's bytes are the character held at entry if the block was listening, then the characters in the order
sent, each translated under the convention TS established; the block reads none beyond them, and stops
short of the computed length only at 32 bytes or when the card falls silent. -/
def Obligations.AtrBytesInOrderUnderFinalConvention : Prop :=
  ∀ s : State, s.sessionValid = true → s.env.unscripted →
    atCurrentEtu s.env.card → s.env.flood = none →
    ∀ held, held = (if s.ioMode = .released then s.rxHold.toList else []) →
    Returns (exec .acquireAtr s) fun t =>
      ∃ rec : AtrRecord, t.lastResult = some (.atr rec) ∧
        rec.rawBytes =
          ((held ++ rawBytesOf s.env.card).take rec.rawBytes.length).map (translate t.convention) ∧
        held.length ≤ rec.rawBytes.length ∧
        t.env.card = s.env.card.drop (rec.rawBytes.length - held.length) ∧
        (rec.complete = false → rec.rawBytes.length = 32 ∨ t.env.card = [])

/-- R207 (with R192, R197, R201), R199, R205: before T0 the computed length is 2; after it, it is
2 + K + the announced interface bytes of T0 and of every TDn received, and TA1 with its present flag is the
first TA byte received. -/
def Obligations.AtrExpectedLengthClosedForm : Prop :=
  ∀ (s t : State) (rec : AtrRecord), exec .acquireAtr s = .next t →
    t.lastResult = some (.atr rec) →
    (rec.rawBytes.length ≤ 1 → rec.expectedLength = 2 ∧ rec.historicalLength = 0 ∧
      rec.ta1Present = false ∧ rec.ta1 = 0x00#8) ∧
    (∀ ts t0 rest, rec.rawBytes = ts :: t0 :: rest →
      rec.historicalLength = t0.toNat % 16 ∧
      rec.expectedLength = 2 + t0.toNat % 16 + groupSize (groupOf t0) +
        announced (groupOf t0) rest ∧
      rec.ta1Present = (firstTa (groupOf t0) rest).isSome ∧
      rec.ta1 = (firstTa (groupOf t0) rest).getD 0x00#8)

/-- R196 (with R90): on the first byte the two raw patterns of a wrong guess flip the convention and are
stored as the other convention's TS, 0x3F or 0x3B; any other byte is stored as translated, with no
flip. -/
def Obligations.TsAutoDetect : Prop :=
  ∀ (s : State) (r : Byte), s.atr.state = .ts → s.atr.count < 32 → Memory.wf s.atr.buf = true →
    ∃ t, s.atrByte r = .ok t ∧ t.atr.state = .t0 ∧ t.atr.count = s.atr.count + 1 ∧
      (s.convention = .direct → r = 0x03#8 →
        t.convention = .inverse ∧ Memory.read t.atr.buf s.atr.count = 0x3F#8) ∧
      (s.convention = .inverse → r = 0x3B#8 →
        t.convention = .direct ∧ Memory.read t.atr.buf s.atr.count = 0x3B#8) ∧
      (¬(s.convention = .direct ∧ r = 0x03#8) → ¬(s.convention = .inverse ∧ r = 0x3B#8) →
        t.convention = s.convention ∧
        Memory.read t.atr.buf s.atr.count = translate s.convention r)

/-- R197, R198, R200, R201, R195: T0 and TDn load the presence bits and add one to the computed length for
each, T0 its historical count as well; TB and TC clear their bit; each byte extends the deadline. The next
class is the first of TA, TB, TC, TD whose bit is pending, else the historical bytes. -/
def Obligations.FormatBytesExtendTheLength : Prop :=
  ∀ (s : State) (r b : Byte), b = translate s.convention r → s.atr.count < 32 →
    (s.atr.state = .t0 → ∃ t, s.atrByte r = .ok t ∧
      t.atr.histLen = b.toNat % 16 ∧ t.atr.pending.toNat = b.toNat / 16 ∧
      t.atr.expected = s.atr.expected + ((b.getLsbD 4).toNat + (b.getLsbD 5).toNat +
        (b.getLsbD 6).toNat + (b.getLsbD 7).toNat) + b.toNat % 16 ∧
      t.atr.state = (if b.getLsbD 4 then .ta else if b.getLsbD 5 then .tb
        else if b.getLsbD 6 then .tc else if b.getLsbD 7 then .td else .hist) ∧
      t.atr.deadline = (s.atr.deadline + s.cfg.atrExtendMs) % 2 ^ s.cfg.timerWidth) ∧
    (s.atr.state = .td → ∃ t, s.atrByte r = .ok t ∧
      t.atr.histLen = s.atr.histLen ∧ t.atr.pending.toNat = b.toNat / 16 ∧
      t.atr.expected = s.atr.expected + ((b.getLsbD 4).toNat + (b.getLsbD 5).toNat +
        (b.getLsbD 6).toNat + (b.getLsbD 7).toNat) ∧
      t.atr.state = (if b.getLsbD 4 then .ta else if b.getLsbD 5 then .tb
        else if b.getLsbD 6 then .tc else if b.getLsbD 7 then .td else .hist) ∧
      t.atr.ta1 = s.atr.ta1 ∧
      t.atr.deadline = (s.atr.deadline + s.cfg.atrExtendMs) % 2 ^ s.cfg.timerWidth) ∧
    (∀ p, p = s.atr.pending → s.atr.state = .tb → ∃ t, s.atrByte r = .ok t ∧
      (∀ k, t.atr.pending.getLsbD k = (p.getLsbD k && k != 1)) ∧
      t.atr.state = (if p.getLsbD 0 then .ta else if p.getLsbD 2 then .tc
        else if p.getLsbD 3 then .td else .hist) ∧
      t.atr.expected = s.atr.expected ∧ t.atr.ta1 = s.atr.ta1 ∧
      t.atr.deadline = (s.atr.deadline + s.cfg.atrExtendMs) % 2 ^ s.cfg.timerWidth) ∧
    (∀ p, p = s.atr.pending → s.atr.state = .tc → ∃ t, s.atrByte r = .ok t ∧
      (∀ k, t.atr.pending.getLsbD k = (p.getLsbD k && k != 2)) ∧
      t.atr.state = (if p.getLsbD 0 then .ta else if p.getLsbD 1 then .tb
        else if p.getLsbD 3 then .td else .hist) ∧
      t.atr.expected = s.atr.expected ∧ t.atr.ta1 = s.atr.ta1 ∧
      t.atr.deadline = (s.atr.deadline + s.cfg.atrExtendMs) % 2 ^ s.cfg.timerWidth)

/-- The step of R199 on a byte in state S_TA: it is retained if no TA byte was retained before, and not
otherwise; it is counted and stored, its presence bit is cleared, and the next class is the first of TB, TC,
TD whose bit is still pending (R198), else the historical bytes. -/
def Obligations.FirstTaRetained : Prop :=
  ∀ (s : State) (r : Byte), s.atr.state = .ta → s.atr.count < 32 → Memory.wf s.atr.buf = true →
    ∃ t, s.atrByte r = .ok t ∧
      (s.atr.ta1 = none → t.atr.ta1 = some (translate s.convention r)) ∧
      (s.atr.ta1 ≠ none → t.atr.ta1 = s.atr.ta1) ∧
      (∀ k, t.atr.pending.getLsbD k = (s.atr.pending.getLsbD k && k != 0)) ∧
      Memory.read t.atr.buf s.atr.count = translate s.convention r ∧
      t.atr.count = s.atr.count + 1 ∧ t.atr.expected = s.atr.expected ∧
      t.atr.state = (if s.atr.pending.getLsbD 1 then .tb else if s.atr.pending.getLsbD 2 then .tc
        else if s.atr.pending.getLsbD 3 then .td else .hist)

/-- R206: ACQUIRE_ATR changes the convention only by the auto-detect, and then the record's first byte is
the TS of the convention it leaves. -/
def Obligations.AtrFlipsOnlyByTs : Prop :=
  ∀ (s t : State) (rec : AtrRecord), exec .acquireAtr s = .next t →
    t.lastResult = some (.atr rec) → t.convention ≠ s.convention →
    (t.convention = .inverse → rec.rawBytes.head? = some 0x3F#8) ∧
    (t.convention = .direct → rec.rawBytes.head? = some 0x3B#8)

/-- R231 (with R234, R235): the negotiation step; the flag it sets is cleared by POWER_ON only. -/
def Obligations.NegotiationStep : Prop :=
  ∀ (s : State) (rec : AtrRecord),
    (rec.complete = false ∨ rec.ta1Present = false ∨ s.negotiatedThisCycle = true →
      s.negotiate rec = (.notRun, s)) ∧
    (rec.complete = true → rec.ta1Present = true → s.negotiatedThisCycle = false →
      (∀ fi di, s.cfg.fiTable[rec.ta1.toNat / 16]? = some (some fi) →
        s.cfg.diTable[rec.ta1.toNat % 16]? = some (some di) →
        s.negotiate rec =
          (.ok (s.cfg.fClk * di / fi),
            { s with negotiatedThisCycle := true, baudRate := s.cfg.fClk * di / fi })) ∧
      (s.cfg.fiTable[rec.ta1.toNat / 16]? = some none ∨
          s.cfg.diTable[rec.ta1.toNat % 16]? = some none →
        s.negotiate rec = (.failed, { s with negotiatedThisCycle := true }))) ∧
    (∀ i t, exec i s = .next t → s.negotiatedThisCycle = true → t.negotiatedThisCycle = false →
      i = .powerOn)

/-- R238: TA1 = 0x11 negotiates the ATR rate itself, and R235: every negotiated rate is at least 1. -/
def Obligations.NegotiatedRates : Prop :=
  ∀ c : Config, c.Valid →
    negotiatedBaud c 0x11#8 = some (c.fClk / 372) ∧
    ∀ ta1 baud, negotiatedBaud c ta1 = some baud → 1 ≤ baud

/-- R230, R231, R234, R236, R192: the negotiation at the end of ACQUIRE_ATR. It runs iff the record is
complete, a TA byte was received and it has not run in this power cycle; the session's rate is then the
one TA1 encodes, or the ATR rate if a table entry is RFU, and the ATR rate where it does not run; the
flag stands once it has run. -/
def Obligations.AtrRunsNegotiation : Prop :=
  ∀ (s t : State) (rec : AtrRecord), exec .acquireAtr s = .next t →
    t.lastResult = some (.atr rec) →
    ∀ runs, runs = (rec.complete && rec.ta1Present && !s.negotiatedThisCycle) →
      t.negotiatedThisCycle = (s.negotiatedThisCycle || runs) ∧
      (runs = false → rec.negotiation = .notRun ∧ t.baudRate = s.cfg.fClk / 372) ∧
      (runs = true → negotiatedBaud s.cfg rec.ta1 = none →
        rec.negotiation = .failed ∧ t.baudRate = s.cfg.fClk / 372) ∧
      (∀ baud, runs = true → negotiatedBaud s.cfg rec.ta1 = some baud →
        rec.negotiation = .ok baud ∧ t.baudRate = baud)

/-! ## SEND_APDU -/

/-- R93: the first class in the listed order whose condition holds; INS+1 is modulo 256. -/
def Obligations.ProcedureByteClasses : Prop :=
  ∀ b ins : Byte,
    (b = ~~~ins ∨ b = ~~~(ins + 1) → classify b ins = .ack1) ∧
    (b ≠ ~~~ins → b ≠ ~~~(ins + 1) →
      (b = ins ∨ b = ins + 1 → classify b ins = .ackAll) ∧
      (b ≠ ins → b ≠ ins + 1 →
        (b = 0x60#8 → classify b ins = .null) ∧
        (b ≠ 0x60#8 →
          (b.toNat / 16 = 6 ∨ b.toNat / 16 = 9 → classify b ins = .sw1) ∧
          (b.toNat / 16 ≠ 6 → b.toNat / 16 ≠ 9 → classify b ins = .other))))

/-- R251: a declared length above the capacity is rejected before any card I/O. -/
def Obligations.CapacityFailure : Prop :=
  ∀ (timeoutMs : Nat) (cla ins p1 p2 p3 : Byte) (dir : Dir) (cap : Nat) (s : State),
    s.sessionValid = true → timeoutMs < 2 ^ (s.cfg.timerWidth - 1) → cap < p3.toNat →
    exec (.sendApdu timeoutMs cla ins p1 p2 p3 dir cap) s =
      .next { s with
        trace := s.trace ++ [.returned (.apdu
          { sw := s.cfg.swBadLength, count := 0, proc := none })] }

/-- R250, R267, R269: with a card that falls silent in the end, SEND_APDU ends with a status word, no
more than P3 bytes moved, listening. -/
def Obligations.SendApduCompletes : Prop :=
  ∀ (timeoutMs : Nat) (cla ins p1 p2 p3 : Byte) (dir : Dir) (cap : Nat) (s : State),
    s.sessionValid = true → timeoutMs < 2 ^ (s.cfg.timerWidth - 1) → p3.toNat ≤ cap →
    s.env.settles →
    Returns (exec (.sendApdu timeoutMs cla ins p1 p2 p3 dir cap) s) fun t =>
      t.ioMode = .released ∧
      ∃ r : ApduResult, t.lastResult = some (.apdu r) ∧ r.count ≤ p3.toNat

/-- R250, R62, R40: what SEND_APDU leaves alone. The session, the outputs, the ATR engine and the
configuration are unchanged, the trace only grows; a Send never writes the buffer, a Receive writes no
index at or above `count`; the engine's registers do not survive. -/
def Obligations.SendApduFrame : Prop :=
  ∀ (timeoutMs : Nat) (cla ins p1 p2 p3 : Byte) (dir : Dir) (cap : Nat) (s t : State),
    exec (.sendApdu timeoutMs cla ins p1 p2 p3 dir cap) s = .next t →
    t = { s with
      ioMode := t.ioMode, rxHold := t.rxHold, msCounter := t.msCounter, clkHigh := t.clkHigh,
      env := t.env, buffer := t.buffer, apdu := t.apdu, trace := t.trace } ∧
    s.trace <+: t.trace ∧
    (p3.toNat ≤ cap → t.apdu = ApduEngine.idle) ∧
    (cap < p3.toNat → t.apdu = s.apdu) ∧
    (dir = .send → t.buffer = s.buffer) ∧
    ∃ r : ApduResult, t.lastResult = some (.apdu r) ∧
      ∀ a, r.count ≤ a → Memory.read t.buffer a = Memory.read s.buffer a

/-- R253, R254, R65: the header goes out first, in order CLA, INS, P1, P2, P3, each byte after its guard
time, and then the line is released. -/
def Obligations.HeaderGoesOutFirst : Prop :=
  ∀ (timeoutMs : Nat) (cla ins p1 p2 p3 : Byte) (dir : Dir) (cap : Nat) (s t : State),
    p3.toNat ≤ cap → exec (.sendApdu timeoutMs cla ins p1 p2 p3 dir cap) s = .next t →
    (s.trace ++ .pin (.io .driveHigh) :: [cla, ins, p1, p2, p3].flatMap s.txEvents ++
      [.pin (.io .released)]) <+: t.trace

/-- R258, R266, R263, R64 (case A of section 2.7): an ACKALL procedure byte in a Send call. The declared
bytes of the buffer go out in order between two direction switches, then SW1 and SW2 are read. -/
def Obligations.AckAllSend : Prop :=
  ∀ (timeoutMs : Nat) (cla ins p1 p2 p3 : Byte) (cap : Nat) (s : State) (ack sw1 sw2 : CardFrame)
    (more : List CardFrame),
    s.sessionValid = true → timeoutMs < 2 ^ (s.cfg.timerWidth - 1) → 0 < p3.toNat →
    p3.toNat ≤ cap → s.env.unscripted → s.env.card = ack :: sw1 :: sw2 :: more →
    atCurrentEtu [ack, sw1, sw2] →
    classify (translate s.convention ack.frame.data) ins = .ackAll →
    Returns (exec (.sendApdu timeoutMs cla ins p1 p2 p3 .send cap) s) fun t =>
      t.env.card = more ∧ t.buffer = s.buffer ∧
      t.trace = s.trace ++ .pin (.io .driveHigh) :: [cla, ins, p1, p2, p3].flatMap s.txEvents ++
        .pin (.io .released) :: .pin (.io .driveHigh) ::
        (Memory.take s.buffer p3.toNat).flatMap s.txEvents ++
        [.pin (.io .released), .returned (.apdu
          { sw := statusWord (translate s.convention sw1.frame.data)
              (translate s.convention sw2.frame.data),
            count := p3.toNat, proc := some (translate s.convention ack.frame.data) })]

/-- R258, R266, R263, R268 (case C of section 2.7): an ACKALL procedure byte in a Receive call. The
declared bytes land in the buffer in order, every other index keeps its byte, then SW1 and SW2 are
read. -/
def Obligations.AckAllReceive : Prop :=
  ∀ (timeoutMs : Nat) (cla ins p1 p2 p3 : Byte) (cap : Nat) (s : State) (ack sw1 sw2 : CardFrame)
    (data more : List CardFrame),
    s.sessionValid = true → timeoutMs < 2 ^ (s.cfg.timerWidth - 1) → 0 < p3.toNat →
    p3.toNat ≤ cap → Memory.wf s.buffer = true → s.env.unscripted →
    s.env.card = ack :: data ++ sw1 :: sw2 :: more → data.length = p3.toNat →
    atCurrentEtu (ack :: data ++ [sw1, sw2]) →
    classify (translate s.convention ack.frame.data) ins = .ackAll →
    Returns (exec (.sendApdu timeoutMs cla ins p1 p2 p3 .receive cap) s) fun t =>
      t.env.card = more ∧
      t.lastResult = some (.apdu
        { sw := statusWord (translate s.convention sw1.frame.data)
            (translate s.convention sw2.frame.data),
          count := p3.toNat, proc := some (translate s.convention ack.frame.data) }) ∧
      ∀ a, Memory.read t.buffer a =
        if a < p3.toNat then
          ((rawBytesOf data).map (translate s.convention)).getD a 0x00#8
        else Memory.read s.buffer a

/-- R257, R266: an ACK1 procedure byte grants a one-byte transfer and an ACKALL byte one of all the bytes
that remain; NULL and OTHER change only `proc` (R259, R261); SW1 leads to SW2 (R260); `proc` is kept
(R264) and nothing is moved by the dispatch itself. -/
def Obligations.ProcedureByteDispatch : Prop :=
  ∀ (s : State) (f : CardFrame) (more : List CardFrame) (pb : Byte),
    s.env.unscripted → s.rxHold = none → s.ioMode = .released → s.env.card = f :: more →
    f.rate = none → pb = translate s.convention f.frame.data →
    s.procStep =
      { s with
        env := { s.env with card := more },
        apdu := { s.apdu with
          proc := some pb,
          step := match classify pb s.apdu.ins with
            | .ack1 => .xfer 1
            | .ackAll => .xfer (s.apdu.p3.toNat - s.apdu.count)
            | .null => s.apdu.step
            | .sw1 => .sw2 pb
            | .other => s.apdu.step } }

/-- R266, R257, R258: a granted transfer of `n` bytes. A Send switches to transmit-armed, sends the next
`n` bytes of the buffer in order and switches back; a Receive stores the next `n` characters in order and
switches nothing; a card that falls silent earlier ends it with the bytes so far kept. `count` is the
number of bytes moved. -/
def Obligations.GrantedTransfer : Prop :=
  ∀ (s : State) (n : Nat), s.apdu.count + n ≤ s.apdu.cap →
    (s.apdu.dir = .send → ∃ t, s.transfer n = .ok (true, t) ∧
      t.apdu = { s.apdu with count := s.apdu.count + n } ∧ t.buffer = s.buffer ∧
      t.ioMode = .released ∧
      t.trace = s.trace ++ .pin (.io .driveHigh) ::
        ((List.range n).map fun i => Memory.read s.buffer (s.apdu.count + i)).flatMap s.txEvents ++
        [.pin (.io .released)]) ∧
    (∀ data : List CardFrame, s.apdu.dir = .receive → Memory.wf s.buffer = true →
      s.env.unscripted → s.rxHold = none → s.ioMode = .released → atCurrentEtu data →
      (∀ more, data.length = n → s.env.card = data ++ more →
        ∃ t, s.transfer n = .ok (true, t) ∧
          t.apdu = { s.apdu with count := s.apdu.count + n } ∧ t.env.card = more ∧
          t.trace = s.trace ∧
          ∀ a, Memory.read t.buffer a =
            if s.apdu.count ≤ a ∧ a < s.apdu.count + n then
              ((rawBytesOf data).map (translate s.convention)).getD (a - s.apdu.count) 0x00#8
            else Memory.read s.buffer a) ∧
      (data.length < n → s.env.card = data → s.env.flood = none →
        ∃ t, s.transfer n = .ok (false, t) ∧
          t.apdu = { s.apdu with count := s.apdu.count + data.length } ∧
          t.trace = s.trace ∧
          ∀ a, Memory.read t.buffer a =
            if s.apdu.count ≤ a ∧ a < s.apdu.count + data.length then
              ((rawBytesOf data).map (translate s.convention)).getD (a - s.apdu.count) 0x00#8
            else Memory.read s.buffer a))

/-- R260 (case D of section 2.7): an SW1 procedure byte ends the transaction with the next byte as SW2,
nothing moved, in either direction. -/
def Obligations.StatusAtOnce : Prop :=
  ∀ (timeoutMs : Nat) (cla ins p1 p2 p3 : Byte) (dir : Dir) (cap : Nat) (s : State)
    (sw1 sw2 : CardFrame) (more : List CardFrame),
    s.sessionValid = true → timeoutMs < 2 ^ (s.cfg.timerWidth - 1) → 0 < p3.toNat →
    p3.toNat ≤ cap → s.env.unscripted → s.env.card = sw1 :: sw2 :: more →
    atCurrentEtu [sw1, sw2] → classify (translate s.convention sw1.frame.data) ins = .sw1 →
    Returns (exec (.sendApdu timeoutMs cla ins p1 p2 p3 dir cap) s) fun t =>
      t.env.card = more ∧ t.buffer = s.buffer ∧
      t.lastResult = some (.apdu
        { sw := statusWord (translate s.convention sw1.frame.data)
            (translate s.convention sw2.frame.data),
          count := 0, proc := some (translate s.convention sw1.frame.data) })

/-- R265, R263: P3 = 0 reads no procedure byte; the two status bytes are taken without classification,
whatever they are. -/
def Obligations.ZeroLengthReadsStatus : Prop :=
  ∀ (timeoutMs : Nat) (cla ins p1 p2 : Byte) (dir : Dir) (cap : Nat) (s : State)
    (sw1 sw2 : CardFrame) (more : List CardFrame),
    s.sessionValid = true → timeoutMs < 2 ^ (s.cfg.timerWidth - 1) → s.env.unscripted →
    s.env.card = sw1 :: sw2 :: more → atCurrentEtu [sw1, sw2] →
    Returns (exec (.sendApdu timeoutMs cla ins p1 p2 0x00#8 dir cap) s) fun t =>
      t.env.card = more ∧ t.buffer = s.buffer ∧
      t.lastResult = some (.apdu
        { sw := statusWord (translate s.convention sw1.frame.data)
            (translate s.convention sw2.frame.data),
          count := 0, proc := none })

/-- R255, R305: with a silent card SEND_APDU returns the procedure-byte-timeout sentinel, with nothing
moved and no procedure byte. -/
def Obligations.ApduOfSilentCard : Prop :=
  ∀ (timeoutMs : Nat) (cla ins p1 p2 p3 : Byte) (dir : Dir) (cap : Nat) (s : State),
    s.sessionValid = true → timeoutMs < 2 ^ (s.cfg.timerWidth - 1) → p3.toNat ≤ cap →
    s.env.unscripted → s.env.card = [] → s.env.flood = none →
    Returns (exec (.sendApdu timeoutMs cla ins p1 p2 p3 dir cap) s) fun t =>
      t.lastResult = some (.apdu { sw := s.cfg.swPbTimeout, count := 0, proc := none })

/-- R262: the status of a receive timeout, for both settings of `FALLBACK_SW`. And how a whole SEND_APDU
ends from a card that sends characters at the current etu and then falls silent: as `exchange` says, which
goes back to a procedure byte after each granted transfer while `count < P3` (R256, R257), answers a missing
data byte with that status and the count so far (R262), and a missing procedure byte, SW2 or final status
byte with SW_PB_TIMEOUT and the count and `proc` so far (R255, R260, R263); the data bytes received stand in
the buffer from index 0 on (R268), and the characters after the last one read are left. -/
def Obligations.ReceiveTimeoutStatus : Prop :=
  (∀ s : State, s.apdu.count ≤ s.apdu.cap →
    (s.cfg.fallbackSw = true → 2 ≤ s.apdu.count →
      s.rxTimeoutStatus = .ok (statusWord (Memory.read s.buffer (s.apdu.count - 2))
        (Memory.read s.buffer (s.apdu.count - 1)))) ∧
    (s.cfg.fallbackSw = false ∨ s.apdu.count < 2 → s.rxTimeoutStatus = .ok s.cfg.swRxTimeout)) ∧
  (∀ (timeoutMs : Nat) (cla ins p1 p2 p3 : Byte) (dir : Dir) (cap : Nat) (s : State) (e : Exchanged),
    s.sessionValid = true → timeoutMs < 2 ^ (s.cfg.timerWidth - 1) → p3.toNat ≤ cap →
    Memory.wf s.buffer = true → s.env.unscripted → atCurrentEtu s.env.card → s.env.flood = none →
    e = exchange s.cfg ins p3.toNat dir (.next 0 p3.toNat) 0 none []
      ((rawBytesOf s.env.card).map (translate s.convention)) →
    Returns (exec (.sendApdu timeoutMs cla ins p1 p2 p3 dir cap) s) fun t =>
      t.lastResult = some (.apdu e.result) ∧
      (∀ a, Memory.read t.buffer a =
        if a < e.got.length then e.got.getD a 0x00#8 else Memory.read s.buffer a) ∧
      t.env.card = s.env.card.drop (s.env.card.length - e.rest.length))

/-- R267: a card that sends a NULL or OTHER byte for ever keeps SEND_APDU running for ever. -/
def Obligations.NullFloodNeverEnds : Prop :=
  ∀ (timeoutMs : Nat) (cla ins p1 p2 p3 : Byte) (dir : Dir) (cap : Nat) (s : State) (f : CardFrame),
    s.sessionValid = true → timeoutMs < 2 ^ (s.cfg.timerWidth - 1) → 0 < p3.toNat →
    p3.toNat ≤ cap → s.env.unscripted → s.env.card = [] → s.env.flood = some f → f.rate = none →
    classify (translate s.convention f.frame.data) ins = .null ∨
      classify (translate s.convention f.frame.data) ins = .other →
    exec (.sendApdu timeoutMs cla ins p1 p2 p3 dir cap) s = .fault .commandNeverEnds

/-- R9, R94: with admitted parameters no sentinel is a status word a conformant card can send. -/
def Obligations.SentinelsAreNoCardStatus : Prop :=
  ∀ (c : Config) (sw1 sw2 : Byte), c.Valid →
    sw1.toNat / 16 = 6 ∨ sw1.toNat / 16 = 9 →
    statusWord sw1 sw2 ≠ c.swPbTimeout ∧ statusWord sw1 sw2 ≠ c.swRxTimeout ∧
    statusWord sw1 sw2 ≠ c.swBadLength

/-! ## The whole machine -/

/-- R25, R26, R30, R31, R33, R38, R39, R40: every step keeps the invariant of the states between
commands. -/
def Obligations.StepKeepsInv : Prop :=
  ∀ s t : State, s.Inv → step s = .next t → t.Inv

/-- R47, R330: the block-reset column (no session, no pulse, nothing held), and that the invariant holds
at block reset, for every admitted configuration and every draw, of the card as well. -/
def Obligations.ResetMeetsInv : Prop :=
  (∀ (c : Config) (d : ResetDraws), c.Valid →
    (State.blockReset c d).sessionValid = false ∧ (State.blockReset c d).glitchOut = false ∧
    (State.blockReset c d).triggerOut = false ∧ (State.blockReset c d).rxHold = none ∧
    (State.blockReset c d).Inv) ∧
  State.reset.Inv

/-- R28, R29, R30, R32: only the commands the spec names write VCC, RST, CLK and the line's mode. -/
def Obligations.OutputWriters : Prop :=
  ∀ (i : Instr) (s t : State), exec i s = .next t →
    (t.vccOn ≠ s.vccOn → i.opcode ∈ [0x01, 0x10, 0x11]) ∧
    (t.rstAsserted ≠ s.rstAsserted → i.opcode ∈ [0x02, 0x10, 0x11]) ∧
    (t.clkRunning ≠ s.clkRunning → i.opcode ∈ [0x03, 0x10, 0x11]) ∧
    (t.ioMode ≠ s.ioMode → i.opcode ∈ [0x10, 0x11, 0x20, 0x30, 0x40])

/-- R23 to R27: only the commands the spec names write each session field; a session, once there, stays. -/
def Obligations.SessionWriters : Prop :=
  ∀ (i : Instr) (s t : State), exec i s = .next t →
    (t.sessionValid ≠ s.sessionValid → i = .powerOn ∧ t.sessionValid = true) ∧
    (t.convention ≠ s.convention → i.opcode ∈ [0x10, 0x24, 0x30]) ∧
    (t.baudRate ≠ s.baudRate → i.opcode ∈ [0x10, 0x30]) ∧
    (t.powerState ≠ s.powerState → i.opcode ∈ [0x10, 0x11]) ∧
    (t.negotiatedThisCycle ≠ s.negotiatedThisCycle → i.opcode ∈ [0x10, 0x30])

/-- R13, R62, R8: a command appends to the trace and ends it with its result; only SEND_APDU writes the
buffer; no command changes the parameters or the host's queue. -/
def Obligations.CommandsAppendToTheTrace : Prop :=
  ∀ (i : Instr) (s t : State), exec i s = .next t →
    (∃ evs r, t.trace = s.trace ++ evs ++ [.returned r]) ∧
    (i.opcode ≠ 0x40 → t.buffer = s.buffer) ∧ t.cfg = s.cfg ∧ t.pending = s.pending

end Statements
end

