-- ==== Sys2Proof/Laws/State.lean ====
section
/-! SUPPORT. One lemma per field per update: what each basic operation leaves in each field of `State`.
Later proofs rewrite with these instead of unfolding a record update. -/

namespace Sys2Proof.Machine

/-! ### emit -/

@[simp] theorem emit_cfg (s : State) (e : Event) : (s.emit e).cfg = s.cfg := rfl
@[simp] theorem emit_sessionValid (s : State) (e : Event) : (s.emit e).sessionValid = s.sessionValid :=
  rfl
@[simp] theorem emit_convention (s : State) (e : Event) : (s.emit e).convention = s.convention :=
  rfl
@[simp] theorem emit_baudRate (s : State) (e : Event) : (s.emit e).baudRate = s.baudRate := rfl
@[simp] theorem emit_powerState (s : State) (e : Event) : (s.emit e).powerState = s.powerState :=
  rfl
@[simp] theorem emit_negotiatedThisCycle (s : State) (e : Event) : (s.emit e).negotiatedThisCycle = s.negotiatedThisCycle :=
  rfl
@[simp] theorem emit_vccOn (s : State) (e : Event) : (s.emit e).vccOn = s.vccOn := rfl
@[simp] theorem emit_rstAsserted (s : State) (e : Event) : (s.emit e).rstAsserted = s.rstAsserted :=
  rfl
@[simp] theorem emit_clkRunning (s : State) (e : Event) : (s.emit e).clkRunning = s.clkRunning :=
  rfl
@[simp] theorem emit_clkHigh (s : State) (e : Event) : (s.emit e).clkHigh = s.clkHigh := rfl
@[simp] theorem emit_glitchOut (s : State) (e : Event) : (s.emit e).glitchOut = s.glitchOut := rfl
@[simp] theorem emit_triggerOut (s : State) (e : Event) : (s.emit e).triggerOut = s.triggerOut :=
  rfl
@[simp] theorem emit_ioMode (s : State) (e : Event) : (s.emit e).ioMode = s.ioMode := rfl
@[simp] theorem emit_rxHold (s : State) (e : Event) : (s.emit e).rxHold = s.rxHold := rfl
@[simp] theorem emit_msCounter (s : State) (e : Event) : (s.emit e).msCounter = s.msCounter := rfl
@[simp] theorem emit_buffer (s : State) (e : Event) : (s.emit e).buffer = s.buffer := rfl
@[simp] theorem emit_atr (s : State) (e : Event) : (s.emit e).atr = s.atr := rfl
@[simp] theorem emit_apdu (s : State) (e : Event) : (s.emit e).apdu = s.apdu := rfl
@[simp] theorem emit_pending (s : State) (e : Event) : (s.emit e).pending = s.pending := rfl
@[simp] theorem emit_env (s : State) (e : Event) : (s.emit e).env = s.env := rfl
@[simp] theorem emit_trace (s : State) (e : Event) : (s.emit e).trace = s.trace ++ [e] := rfl

/-! ### setVcc -/

@[simp] theorem setVcc_cfg (s : State) (b : Bool) : (s.setVcc b).cfg = s.cfg := rfl
@[simp] theorem setVcc_sessionValid (s : State) (b : Bool) : (s.setVcc b).sessionValid = s.sessionValid :=
  rfl
@[simp] theorem setVcc_convention (s : State) (b : Bool) : (s.setVcc b).convention = s.convention :=
  rfl
@[simp] theorem setVcc_baudRate (s : State) (b : Bool) : (s.setVcc b).baudRate = s.baudRate := rfl
@[simp] theorem setVcc_powerState (s : State) (b : Bool) : (s.setVcc b).powerState = s.powerState :=
  rfl
@[simp] theorem setVcc_negotiatedThisCycle (s : State) (b : Bool) : (s.setVcc b).negotiatedThisCycle = s.negotiatedThisCycle :=
  rfl
@[simp] theorem setVcc_vccOn (s : State) (b : Bool) : (s.setVcc b).vccOn = b := rfl
@[simp] theorem setVcc_rstAsserted (s : State) (b : Bool) : (s.setVcc b).rstAsserted = s.rstAsserted :=
  rfl
@[simp] theorem setVcc_clkRunning (s : State) (b : Bool) : (s.setVcc b).clkRunning = s.clkRunning :=
  rfl
@[simp] theorem setVcc_clkHigh (s : State) (b : Bool) : (s.setVcc b).clkHigh = s.clkHigh := rfl
@[simp] theorem setVcc_glitchOut (s : State) (b : Bool) : (s.setVcc b).glitchOut = s.glitchOut :=
  rfl
@[simp] theorem setVcc_triggerOut (s : State) (b : Bool) : (s.setVcc b).triggerOut = s.triggerOut :=
  rfl
@[simp] theorem setVcc_ioMode (s : State) (b : Bool) : (s.setVcc b).ioMode = s.ioMode := rfl
@[simp] theorem setVcc_rxHold (s : State) (b : Bool) : (s.setVcc b).rxHold = s.rxHold := rfl
@[simp] theorem setVcc_msCounter (s : State) (b : Bool) : (s.setVcc b).msCounter = s.msCounter :=
  rfl
@[simp] theorem setVcc_buffer (s : State) (b : Bool) : (s.setVcc b).buffer = s.buffer := rfl
@[simp] theorem setVcc_atr (s : State) (b : Bool) : (s.setVcc b).atr = s.atr := rfl
@[simp] theorem setVcc_apdu (s : State) (b : Bool) : (s.setVcc b).apdu = s.apdu := rfl
@[simp] theorem setVcc_pending (s : State) (b : Bool) : (s.setVcc b).pending = s.pending := rfl
@[simp] theorem setVcc_env (s : State) (b : Bool) : (s.setVcc b).env = s.env := rfl
@[simp] theorem setVcc_trace (s : State) (b : Bool) : (s.setVcc b).trace = s.trace ++ [.pin (.vcc b)] :=
  rfl

/-! ### setRst -/

@[simp] theorem setRst_cfg (s : State) (b : Bool) : (s.setRst b).cfg = s.cfg := rfl
@[simp] theorem setRst_sessionValid (s : State) (b : Bool) : (s.setRst b).sessionValid = s.sessionValid :=
  rfl
@[simp] theorem setRst_convention (s : State) (b : Bool) : (s.setRst b).convention = s.convention :=
  rfl
@[simp] theorem setRst_baudRate (s : State) (b : Bool) : (s.setRst b).baudRate = s.baudRate := rfl
@[simp] theorem setRst_powerState (s : State) (b : Bool) : (s.setRst b).powerState = s.powerState :=
  rfl
@[simp] theorem setRst_negotiatedThisCycle (s : State) (b : Bool) : (s.setRst b).negotiatedThisCycle = s.negotiatedThisCycle :=
  rfl
@[simp] theorem setRst_vccOn (s : State) (b : Bool) : (s.setRst b).vccOn = s.vccOn := rfl
@[simp] theorem setRst_rstAsserted (s : State) (b : Bool) : (s.setRst b).rstAsserted = b := rfl
@[simp] theorem setRst_clkRunning (s : State) (b : Bool) : (s.setRst b).clkRunning = s.clkRunning :=
  rfl
@[simp] theorem setRst_clkHigh (s : State) (b : Bool) : (s.setRst b).clkHigh = s.clkHigh := rfl
@[simp] theorem setRst_glitchOut (s : State) (b : Bool) : (s.setRst b).glitchOut = s.glitchOut :=
  rfl
@[simp] theorem setRst_triggerOut (s : State) (b : Bool) : (s.setRst b).triggerOut = s.triggerOut :=
  rfl
@[simp] theorem setRst_ioMode (s : State) (b : Bool) : (s.setRst b).ioMode = s.ioMode := rfl
@[simp] theorem setRst_rxHold (s : State) (b : Bool) : (s.setRst b).rxHold = s.rxHold := rfl
@[simp] theorem setRst_msCounter (s : State) (b : Bool) : (s.setRst b).msCounter = s.msCounter :=
  rfl
@[simp] theorem setRst_buffer (s : State) (b : Bool) : (s.setRst b).buffer = s.buffer := rfl
@[simp] theorem setRst_atr (s : State) (b : Bool) : (s.setRst b).atr = s.atr := rfl
@[simp] theorem setRst_apdu (s : State) (b : Bool) : (s.setRst b).apdu = s.apdu := rfl
@[simp] theorem setRst_pending (s : State) (b : Bool) : (s.setRst b).pending = s.pending := rfl
@[simp] theorem setRst_env (s : State) (b : Bool) : (s.setRst b).env = s.env := rfl
@[simp] theorem setRst_trace (s : State) (b : Bool) : (s.setRst b).trace = s.trace ++ [.pin (.rst b)] :=
  rfl

/-! ### startClock -/

@[simp] theorem startClock_cfg (s : State) : (s.startClock).cfg = s.cfg := rfl
@[simp] theorem startClock_sessionValid (s : State) : (s.startClock).sessionValid = s.sessionValid :=
  rfl
@[simp] theorem startClock_convention (s : State) : (s.startClock).convention = s.convention :=
  rfl
@[simp] theorem startClock_baudRate (s : State) : (s.startClock).baudRate = s.baudRate := rfl
@[simp] theorem startClock_powerState (s : State) : (s.startClock).powerState = s.powerState :=
  rfl
@[simp] theorem startClock_negotiatedThisCycle (s : State) : (s.startClock).negotiatedThisCycle = s.negotiatedThisCycle :=
  rfl
@[simp] theorem startClock_vccOn (s : State) : (s.startClock).vccOn = s.vccOn := rfl
@[simp] theorem startClock_rstAsserted (s : State) : (s.startClock).rstAsserted = s.rstAsserted :=
  rfl
@[simp] theorem startClock_clkRunning (s : State) : (s.startClock).clkRunning = true := rfl
@[simp] theorem startClock_clkHigh (s : State) : (s.startClock).clkHigh = s.clkHigh := rfl
@[simp] theorem startClock_glitchOut (s : State) : (s.startClock).glitchOut = s.glitchOut := rfl
@[simp] theorem startClock_triggerOut (s : State) : (s.startClock).triggerOut = s.triggerOut :=
  rfl
@[simp] theorem startClock_ioMode (s : State) : (s.startClock).ioMode = s.ioMode := rfl
@[simp] theorem startClock_rxHold (s : State) : (s.startClock).rxHold = s.rxHold := rfl
@[simp] theorem startClock_msCounter (s : State) : (s.startClock).msCounter = s.msCounter := rfl
@[simp] theorem startClock_buffer (s : State) : (s.startClock).buffer = s.buffer := rfl
@[simp] theorem startClock_atr (s : State) : (s.startClock).atr = s.atr := rfl
@[simp] theorem startClock_apdu (s : State) : (s.startClock).apdu = s.apdu := rfl
@[simp] theorem startClock_pending (s : State) : (s.startClock).pending = s.pending := rfl
@[simp] theorem startClock_env (s : State) : (s.startClock).env = s.env := rfl
@[simp] theorem startClock_trace (s : State) : (s.startClock).trace = s.trace ++ [.pin (.clk true)] :=
  rfl

/-! ### setGlitch -/

@[simp] theorem setGlitch_cfg (s : State) (b : Bool) : (s.setGlitch b).cfg = s.cfg := rfl
@[simp] theorem setGlitch_sessionValid (s : State) (b : Bool) : (s.setGlitch b).sessionValid = s.sessionValid :=
  rfl
@[simp] theorem setGlitch_convention (s : State) (b : Bool) : (s.setGlitch b).convention = s.convention :=
  rfl
@[simp] theorem setGlitch_baudRate (s : State) (b : Bool) : (s.setGlitch b).baudRate = s.baudRate :=
  rfl
@[simp] theorem setGlitch_powerState (s : State) (b : Bool) : (s.setGlitch b).powerState = s.powerState :=
  rfl
@[simp] theorem setGlitch_negotiatedThisCycle (s : State) (b : Bool) : (s.setGlitch b).negotiatedThisCycle = s.negotiatedThisCycle :=
  rfl
@[simp] theorem setGlitch_vccOn (s : State) (b : Bool) : (s.setGlitch b).vccOn = s.vccOn := rfl
@[simp] theorem setGlitch_rstAsserted (s : State) (b : Bool) : (s.setGlitch b).rstAsserted = s.rstAsserted :=
  rfl
@[simp] theorem setGlitch_clkRunning (s : State) (b : Bool) : (s.setGlitch b).clkRunning = s.clkRunning :=
  rfl
@[simp] theorem setGlitch_clkHigh (s : State) (b : Bool) : (s.setGlitch b).clkHigh = s.clkHigh :=
  rfl
@[simp] theorem setGlitch_glitchOut (s : State) (b : Bool) : (s.setGlitch b).glitchOut = b := rfl
@[simp] theorem setGlitch_triggerOut (s : State) (b : Bool) : (s.setGlitch b).triggerOut = s.triggerOut :=
  rfl
@[simp] theorem setGlitch_ioMode (s : State) (b : Bool) : (s.setGlitch b).ioMode = s.ioMode := rfl
@[simp] theorem setGlitch_rxHold (s : State) (b : Bool) : (s.setGlitch b).rxHold = s.rxHold := rfl
@[simp] theorem setGlitch_msCounter (s : State) (b : Bool) : (s.setGlitch b).msCounter = s.msCounter :=
  rfl
@[simp] theorem setGlitch_buffer (s : State) (b : Bool) : (s.setGlitch b).buffer = s.buffer := rfl
@[simp] theorem setGlitch_atr (s : State) (b : Bool) : (s.setGlitch b).atr = s.atr := rfl
@[simp] theorem setGlitch_apdu (s : State) (b : Bool) : (s.setGlitch b).apdu = s.apdu := rfl
@[simp] theorem setGlitch_pending (s : State) (b : Bool) : (s.setGlitch b).pending = s.pending :=
  rfl
@[simp] theorem setGlitch_env (s : State) (b : Bool) : (s.setGlitch b).env = s.env := rfl
@[simp] theorem setGlitch_trace (s : State) (b : Bool) : (s.setGlitch b).trace = s.trace ++ [.pin (.glitch b)] :=
  rfl

/-! ### setTrigger -/

@[simp] theorem setTrigger_cfg (s : State) (b : Bool) : (s.setTrigger b).cfg = s.cfg := rfl
@[simp] theorem setTrigger_sessionValid (s : State) (b : Bool) : (s.setTrigger b).sessionValid = s.sessionValid :=
  rfl
@[simp] theorem setTrigger_convention (s : State) (b : Bool) : (s.setTrigger b).convention = s.convention :=
  rfl
@[simp] theorem setTrigger_baudRate (s : State) (b : Bool) : (s.setTrigger b).baudRate = s.baudRate :=
  rfl
@[simp] theorem setTrigger_powerState (s : State) (b : Bool) : (s.setTrigger b).powerState = s.powerState :=
  rfl
@[simp] theorem setTrigger_negotiatedThisCycle (s : State) (b : Bool) : (s.setTrigger b).negotiatedThisCycle = s.negotiatedThisCycle :=
  rfl
@[simp] theorem setTrigger_vccOn (s : State) (b : Bool) : (s.setTrigger b).vccOn = s.vccOn := rfl
@[simp] theorem setTrigger_rstAsserted (s : State) (b : Bool) : (s.setTrigger b).rstAsserted = s.rstAsserted :=
  rfl
@[simp] theorem setTrigger_clkRunning (s : State) (b : Bool) : (s.setTrigger b).clkRunning = s.clkRunning :=
  rfl
@[simp] theorem setTrigger_clkHigh (s : State) (b : Bool) : (s.setTrigger b).clkHigh = s.clkHigh :=
  rfl
@[simp] theorem setTrigger_glitchOut (s : State) (b : Bool) : (s.setTrigger b).glitchOut = s.glitchOut :=
  rfl
@[simp] theorem setTrigger_triggerOut (s : State) (b : Bool) : (s.setTrigger b).triggerOut = b :=
  rfl
@[simp] theorem setTrigger_ioMode (s : State) (b : Bool) : (s.setTrigger b).ioMode = s.ioMode :=
  rfl
@[simp] theorem setTrigger_rxHold (s : State) (b : Bool) : (s.setTrigger b).rxHold = s.rxHold :=
  rfl
@[simp] theorem setTrigger_msCounter (s : State) (b : Bool) : (s.setTrigger b).msCounter = s.msCounter :=
  rfl
@[simp] theorem setTrigger_buffer (s : State) (b : Bool) : (s.setTrigger b).buffer = s.buffer :=
  rfl
@[simp] theorem setTrigger_atr (s : State) (b : Bool) : (s.setTrigger b).atr = s.atr := rfl
@[simp] theorem setTrigger_apdu (s : State) (b : Bool) : (s.setTrigger b).apdu = s.apdu := rfl
@[simp] theorem setTrigger_pending (s : State) (b : Bool) : (s.setTrigger b).pending = s.pending :=
  rfl
@[simp] theorem setTrigger_env (s : State) (b : Bool) : (s.setTrigger b).env = s.env := rfl
@[simp] theorem setTrigger_trace (s : State) (b : Bool) : (s.setTrigger b).trace = s.trace ++ [.pin (.trigger b)] :=
  rfl

/-! ### idleLine -/

@[simp] theorem idleLine_cfg (s : State) (m : IoMode) : (s.idleLine m).cfg = s.cfg := rfl
@[simp] theorem idleLine_sessionValid (s : State) (m : IoMode) : (s.idleLine m).sessionValid = s.sessionValid :=
  rfl
@[simp] theorem idleLine_convention (s : State) (m : IoMode) : (s.idleLine m).convention = s.convention :=
  rfl
@[simp] theorem idleLine_baudRate (s : State) (m : IoMode) : (s.idleLine m).baudRate = s.baudRate :=
  rfl
@[simp] theorem idleLine_powerState (s : State) (m : IoMode) : (s.idleLine m).powerState = s.powerState :=
  rfl
@[simp] theorem idleLine_negotiatedThisCycle (s : State) (m : IoMode) : (s.idleLine m).negotiatedThisCycle = s.negotiatedThisCycle :=
  rfl
@[simp] theorem idleLine_vccOn (s : State) (m : IoMode) : (s.idleLine m).vccOn = s.vccOn := rfl
@[simp] theorem idleLine_rstAsserted (s : State) (m : IoMode) : (s.idleLine m).rstAsserted = s.rstAsserted :=
  rfl
@[simp] theorem idleLine_clkRunning (s : State) (m : IoMode) : (s.idleLine m).clkRunning = s.clkRunning :=
  rfl
@[simp] theorem idleLine_clkHigh (s : State) (m : IoMode) : (s.idleLine m).clkHigh = s.clkHigh :=
  rfl
@[simp] theorem idleLine_glitchOut (s : State) (m : IoMode) : (s.idleLine m).glitchOut = s.glitchOut :=
  rfl
@[simp] theorem idleLine_triggerOut (s : State) (m : IoMode) : (s.idleLine m).triggerOut = s.triggerOut :=
  rfl
@[simp] theorem idleLine_ioMode (s : State) (m : IoMode) : (s.idleLine m).ioMode = m := rfl
@[simp] theorem idleLine_rxHold (s : State) (m : IoMode) : (s.idleLine m).rxHold = none := rfl
@[simp] theorem idleLine_msCounter (s : State) (m : IoMode) : (s.idleLine m).msCounter = s.msCounter :=
  rfl
@[simp] theorem idleLine_buffer (s : State) (m : IoMode) : (s.idleLine m).buffer = s.buffer := rfl
@[simp] theorem idleLine_atr (s : State) (m : IoMode) : (s.idleLine m).atr = s.atr := rfl
@[simp] theorem idleLine_apdu (s : State) (m : IoMode) : (s.idleLine m).apdu = s.apdu := rfl
@[simp] theorem idleLine_pending (s : State) (m : IoMode) : (s.idleLine m).pending = s.pending :=
  rfl
@[simp] theorem idleLine_env (s : State) (m : IoMode) : (s.idleLine m).env = s.env := rfl
@[simp] theorem idleLine_trace (s : State) (m : IoMode) : (s.idleLine m).trace = s.trace ++ [.pin (.io m)] :=
  rfl

/-! ### listen -/

@[simp] theorem listen_cfg (s : State) (b : Bool) : (s.listen b).cfg = s.cfg := rfl
@[simp] theorem listen_sessionValid (s : State) (b : Bool) : (s.listen b).sessionValid = s.sessionValid :=
  rfl
@[simp] theorem listen_convention (s : State) (b : Bool) : (s.listen b).convention = s.convention :=
  rfl
@[simp] theorem listen_baudRate (s : State) (b : Bool) : (s.listen b).baudRate = s.baudRate := rfl
@[simp] theorem listen_powerState (s : State) (b : Bool) : (s.listen b).powerState = s.powerState :=
  rfl
@[simp] theorem listen_negotiatedThisCycle (s : State) (b : Bool) : (s.listen b).negotiatedThisCycle = s.negotiatedThisCycle :=
  rfl
@[simp] theorem listen_vccOn (s : State) (b : Bool) : (s.listen b).vccOn = s.vccOn := rfl
@[simp] theorem listen_rstAsserted (s : State) (b : Bool) : (s.listen b).rstAsserted = s.rstAsserted :=
  rfl
@[simp] theorem listen_clkRunning (s : State) (b : Bool) : (s.listen b).clkRunning = s.clkRunning :=
  rfl
@[simp] theorem listen_clkHigh (s : State) (b : Bool) : (s.listen b).clkHigh = s.clkHigh := rfl
@[simp] theorem listen_glitchOut (s : State) (b : Bool) : (s.listen b).glitchOut = s.glitchOut :=
  rfl
@[simp] theorem listen_triggerOut (s : State) (b : Bool) : (s.listen b).triggerOut = s.triggerOut :=
  rfl
@[simp] theorem listen_ioMode (s : State) (b : Bool) : (s.listen b).ioMode = ioModeFor b := rfl
@[simp] theorem listen_rxHold (s : State) (b : Bool) : (s.listen b).rxHold = if s.ioMode = ioModeFor b then s.rxHold else none :=
  rfl
@[simp] theorem listen_msCounter (s : State) (b : Bool) : (s.listen b).msCounter = s.msCounter :=
  rfl
@[simp] theorem listen_buffer (s : State) (b : Bool) : (s.listen b).buffer = s.buffer := rfl
@[simp] theorem listen_atr (s : State) (b : Bool) : (s.listen b).atr = s.atr := rfl
@[simp] theorem listen_apdu (s : State) (b : Bool) : (s.listen b).apdu = s.apdu := rfl
@[simp] theorem listen_pending (s : State) (b : Bool) : (s.listen b).pending = s.pending := rfl
@[simp] theorem listen_env (s : State) (b : Bool) : (s.listen b).env = s.env := rfl
@[simp] theorem listen_trace (s : State) (b : Bool) : (s.listen b).trace = s.trace ++ [.pin (.io (ioModeFor b))] :=
  rfl

/-! ### advance -/

@[simp] theorem advance_cfg (s : State) (n : Nat) : (s.advance n).cfg = s.cfg := rfl
@[simp] theorem advance_sessionValid (s : State) (n : Nat) : (s.advance n).sessionValid = s.sessionValid :=
  rfl
@[simp] theorem advance_convention (s : State) (n : Nat) : (s.advance n).convention = s.convention :=
  rfl
@[simp] theorem advance_baudRate (s : State) (n : Nat) : (s.advance n).baudRate = s.baudRate :=
  rfl
@[simp] theorem advance_powerState (s : State) (n : Nat) : (s.advance n).powerState = s.powerState :=
  rfl
@[simp] theorem advance_negotiatedThisCycle (s : State) (n : Nat) : (s.advance n).negotiatedThisCycle = s.negotiatedThisCycle :=
  rfl
@[simp] theorem advance_vccOn (s : State) (n : Nat) : (s.advance n).vccOn = s.vccOn := rfl
@[simp] theorem advance_rstAsserted (s : State) (n : Nat) : (s.advance n).rstAsserted = s.rstAsserted :=
  rfl
@[simp] theorem advance_clkRunning (s : State) (n : Nat) : (s.advance n).clkRunning = s.clkRunning :=
  rfl
@[simp] theorem advance_clkHigh (s : State) (n : Nat) : (s.advance n).clkHigh = s.clkHigh := rfl
@[simp] theorem advance_glitchOut (s : State) (n : Nat) : (s.advance n).glitchOut = s.glitchOut :=
  rfl
@[simp] theorem advance_triggerOut (s : State) (n : Nat) : (s.advance n).triggerOut = s.triggerOut :=
  rfl
@[simp] theorem advance_ioMode (s : State) (n : Nat) : (s.advance n).ioMode = s.ioMode := rfl
@[simp] theorem advance_rxHold (s : State) (n : Nat) : (s.advance n).rxHold = s.rxHold := rfl
@[simp] theorem advance_msCounter (s : State) (n : Nat) : (s.advance n).msCounter = (s.msCounter + n) % 2 ^ s.cfg.timerWidth :=
  rfl
@[simp] theorem advance_buffer (s : State) (n : Nat) : (s.advance n).buffer = s.buffer := rfl
@[simp] theorem advance_atr (s : State) (n : Nat) : (s.advance n).atr = s.atr := rfl
@[simp] theorem advance_apdu (s : State) (n : Nat) : (s.advance n).apdu = s.apdu := rfl
@[simp] theorem advance_pending (s : State) (n : Nat) : (s.advance n).pending = s.pending := rfl
@[simp] theorem advance_env (s : State) (n : Nat) : (s.advance n).env = s.env := rfl
@[simp] theorem advance_trace (s : State) (n : Nat) : (s.advance n).trace = s.trace := rfl

/-! ### clearHold -/

@[simp] theorem clearHold_cfg (s : State) : (s.clearHold).cfg = s.cfg := rfl
@[simp] theorem clearHold_sessionValid (s : State) : (s.clearHold).sessionValid = s.sessionValid :=
  rfl
@[simp] theorem clearHold_convention (s : State) : (s.clearHold).convention = s.convention := rfl
@[simp] theorem clearHold_baudRate (s : State) : (s.clearHold).baudRate = s.baudRate := rfl
@[simp] theorem clearHold_powerState (s : State) : (s.clearHold).powerState = s.powerState := rfl
@[simp] theorem clearHold_negotiatedThisCycle (s : State) : (s.clearHold).negotiatedThisCycle = s.negotiatedThisCycle :=
  rfl
@[simp] theorem clearHold_vccOn (s : State) : (s.clearHold).vccOn = s.vccOn := rfl
@[simp] theorem clearHold_rstAsserted (s : State) : (s.clearHold).rstAsserted = s.rstAsserted :=
  rfl
@[simp] theorem clearHold_clkRunning (s : State) : (s.clearHold).clkRunning = s.clkRunning := rfl
@[simp] theorem clearHold_clkHigh (s : State) : (s.clearHold).clkHigh = s.clkHigh := rfl
@[simp] theorem clearHold_glitchOut (s : State) : (s.clearHold).glitchOut = s.glitchOut := rfl
@[simp] theorem clearHold_triggerOut (s : State) : (s.clearHold).triggerOut = s.triggerOut := rfl
@[simp] theorem clearHold_ioMode (s : State) : (s.clearHold).ioMode = s.ioMode := rfl
@[simp] theorem clearHold_rxHold (s : State) : (s.clearHold).rxHold = none := rfl
@[simp] theorem clearHold_msCounter (s : State) : (s.clearHold).msCounter = s.msCounter := rfl
@[simp] theorem clearHold_buffer (s : State) : (s.clearHold).buffer = s.buffer := rfl
@[simp] theorem clearHold_atr (s : State) : (s.clearHold).atr = s.atr := rfl
@[simp] theorem clearHold_apdu (s : State) : (s.clearHold).apdu = s.apdu := rfl
@[simp] theorem clearHold_pending (s : State) : (s.clearHold).pending = s.pending := rfl
@[simp] theorem clearHold_env (s : State) : (s.clearHold).env = s.env := rfl
@[simp] theorem clearHold_trace (s : State) : (s.clearHold).trace = s.trace := rfl

/-! ### withScript -/

@[simp] theorem withScript_cfg (s : State) (l : List (List EnvEvent)) : (s.withScript l).cfg = s.cfg :=
  rfl
@[simp] theorem withScript_sessionValid (s : State) (l : List (List EnvEvent)) : (s.withScript l).sessionValid = s.sessionValid :=
  rfl
@[simp] theorem withScript_convention (s : State) (l : List (List EnvEvent)) : (s.withScript l).convention = s.convention :=
  rfl
@[simp] theorem withScript_baudRate (s : State) (l : List (List EnvEvent)) : (s.withScript l).baudRate = s.baudRate :=
  rfl
@[simp] theorem withScript_powerState (s : State) (l : List (List EnvEvent)) : (s.withScript l).powerState = s.powerState :=
  rfl
@[simp] theorem withScript_negotiatedThisCycle (s : State) (l : List (List EnvEvent)) : (s.withScript l).negotiatedThisCycle = s.negotiatedThisCycle :=
  rfl
@[simp] theorem withScript_vccOn (s : State) (l : List (List EnvEvent)) : (s.withScript l).vccOn = s.vccOn :=
  rfl
@[simp] theorem withScript_rstAsserted (s : State) (l : List (List EnvEvent)) : (s.withScript l).rstAsserted = s.rstAsserted :=
  rfl
@[simp] theorem withScript_clkRunning (s : State) (l : List (List EnvEvent)) : (s.withScript l).clkRunning = s.clkRunning :=
  rfl
@[simp] theorem withScript_clkHigh (s : State) (l : List (List EnvEvent)) : (s.withScript l).clkHigh = s.clkHigh :=
  rfl
@[simp] theorem withScript_glitchOut (s : State) (l : List (List EnvEvent)) : (s.withScript l).glitchOut = s.glitchOut :=
  rfl
@[simp] theorem withScript_triggerOut (s : State) (l : List (List EnvEvent)) : (s.withScript l).triggerOut = s.triggerOut :=
  rfl
@[simp] theorem withScript_ioMode (s : State) (l : List (List EnvEvent)) : (s.withScript l).ioMode = s.ioMode :=
  rfl
@[simp] theorem withScript_rxHold (s : State) (l : List (List EnvEvent)) : (s.withScript l).rxHold = s.rxHold :=
  rfl
@[simp] theorem withScript_msCounter (s : State) (l : List (List EnvEvent)) : (s.withScript l).msCounter = s.msCounter :=
  rfl
@[simp] theorem withScript_buffer (s : State) (l : List (List EnvEvent)) : (s.withScript l).buffer = s.buffer :=
  rfl
@[simp] theorem withScript_atr (s : State) (l : List (List EnvEvent)) : (s.withScript l).atr = s.atr :=
  rfl
@[simp] theorem withScript_apdu (s : State) (l : List (List EnvEvent)) : (s.withScript l).apdu = s.apdu :=
  rfl
@[simp] theorem withScript_pending (s : State) (l : List (List EnvEvent)) : (s.withScript l).pending = s.pending :=
  rfl
@[simp] theorem withScript_env (s : State) (l : List (List EnvEvent)) : (s.withScript l).env = ⟨l, s.env.card, s.env.flood⟩ :=
  rfl
@[simp] theorem withScript_trace (s : State) (l : List (List EnvEvent)) : (s.withScript l).trace = s.trace :=
  rfl

/-! ### withCard -/

@[simp] theorem withCard_cfg (s : State) (l : List CardFrame) : (s.withCard l).cfg = s.cfg := rfl
@[simp] theorem withCard_sessionValid (s : State) (l : List CardFrame) : (s.withCard l).sessionValid = s.sessionValid :=
  rfl
@[simp] theorem withCard_convention (s : State) (l : List CardFrame) : (s.withCard l).convention = s.convention :=
  rfl
@[simp] theorem withCard_baudRate (s : State) (l : List CardFrame) : (s.withCard l).baudRate = s.baudRate :=
  rfl
@[simp] theorem withCard_powerState (s : State) (l : List CardFrame) : (s.withCard l).powerState = s.powerState :=
  rfl
@[simp] theorem withCard_negotiatedThisCycle (s : State) (l : List CardFrame) : (s.withCard l).negotiatedThisCycle = s.negotiatedThisCycle :=
  rfl
@[simp] theorem withCard_vccOn (s : State) (l : List CardFrame) : (s.withCard l).vccOn = s.vccOn :=
  rfl
@[simp] theorem withCard_rstAsserted (s : State) (l : List CardFrame) : (s.withCard l).rstAsserted = s.rstAsserted :=
  rfl
@[simp] theorem withCard_clkRunning (s : State) (l : List CardFrame) : (s.withCard l).clkRunning = s.clkRunning :=
  rfl
@[simp] theorem withCard_clkHigh (s : State) (l : List CardFrame) : (s.withCard l).clkHigh = s.clkHigh :=
  rfl
@[simp] theorem withCard_glitchOut (s : State) (l : List CardFrame) : (s.withCard l).glitchOut = s.glitchOut :=
  rfl
@[simp] theorem withCard_triggerOut (s : State) (l : List CardFrame) : (s.withCard l).triggerOut = s.triggerOut :=
  rfl
@[simp] theorem withCard_ioMode (s : State) (l : List CardFrame) : (s.withCard l).ioMode = s.ioMode :=
  rfl
@[simp] theorem withCard_rxHold (s : State) (l : List CardFrame) : (s.withCard l).rxHold = s.rxHold :=
  rfl
@[simp] theorem withCard_msCounter (s : State) (l : List CardFrame) : (s.withCard l).msCounter = s.msCounter :=
  rfl
@[simp] theorem withCard_buffer (s : State) (l : List CardFrame) : (s.withCard l).buffer = s.buffer :=
  rfl
@[simp] theorem withCard_atr (s : State) (l : List CardFrame) : (s.withCard l).atr = s.atr := rfl
@[simp] theorem withCard_apdu (s : State) (l : List CardFrame) : (s.withCard l).apdu = s.apdu :=
  rfl
@[simp] theorem withCard_pending (s : State) (l : List CardFrame) : (s.withCard l).pending = s.pending :=
  rfl
@[simp] theorem withCard_env (s : State) (l : List CardFrame) : (s.withCard l).env = ⟨s.env.script, l, s.env.flood⟩ :=
  rfl
@[simp] theorem withCard_trace (s : State) (l : List CardFrame) : (s.withCard l).trace = s.trace :=
  rfl

end Sys2Proof.Machine
end

