-- ==== Sys2Proof/Laws/Env.lean ====
section
/-! SUPPORT. What a turn of the environment, a wait and a poll loop can do: they touch nothing but the
receive holding register, the counter, the clock's phase and the environment itself. -/

namespace Sys2Proof.Machine

theorem State.SameButEnv.refl (s : State) : s.SameButEnv s := rfl

theorem State.SameButEnv.trans {s t u : State} (h : s.SameButEnv t) (k : t.SameButEnv u) :
    s.SameButEnv u := by
  unfold State.SameButEnv at *
  rw [k, h]

theorem advance_same (s : State) (n : Nat) : s.SameButEnv (s.advance n) := rfl

theorem clearHold_same (s : State) : s.SameButEnv s.clearHold := rfl

theorem withScript_same (s : State) (script : List (List EnvEvent)) :
    s.SameButEnv (s.withScript script) := rfl

theorem withCard_same (s : State) (card : List CardFrame) : s.SameButEnv (s.withCard card) := rfl

theorem receive_same (s : State) (c : CardFrame) : s.SameButEnv (s.receive c) := by
  unfold State.receive
  split
  · split
    · rfl
    · split <;> rfl
  · rfl

theorem act_same (s : State) (e : EnvEvent) : s.SameButEnv (s.act e) := by
  cases e with
  | ms => rfl
  | frame f => exact receive_same s f
  | clk high => simp only [State.act]; split <;> rfl

theorem acts_same (batch : List EnvEvent) (s : State) : s.SameButEnv (batch.foldl State.act s) := by
  induction batch generalizing s with
  | nil => rfl
  | cons e es ih => exact (act_same s e).trans (ih (s.act e))

theorem envTurn_same (s : State) : s.SameButEnv s.envTurn := by
  unfold State.envTurn
  split
  · rfl
  · exact (withScript_same s _).trans (acts_same _ _)

theorem elapse_same (s : State) (n : Nat) : s.SameButEnv (s.elapse n) :=
  (envTurn_same s).trans (advance_same _ _)

theorem expire_same (s : State) (d : Nat) : s.SameButEnv (s.expire d) := by
  unfold State.expire
  split <;> rfl

theorem tailPoll_same (d : Nat) (fs : List CardFrame) (s : State) :
    s.SameButEnv (tailPoll d fs s).2 := by
  induction fs generalizing s with
  | nil =>
    unfold tailPoll
    split
    · exact expire_same s d
    · split
      · exact (receive_same s _).trans (clearHold_same _)
      · exact (receive_same s _).trans (expire_same _ d)
  | cons f fs ih =>
    have h : s.SameButEnv ((s.withCard fs).receive f) :=
      (withCard_same s fs).trans (receive_same _ f)
    unfold tailPoll
    split
    · exact h.trans (clearHold_same _)
    · exact h.trans (ih _)

theorem lastPolls_same (s : State) (d : Nat) : s.SameButEnv (s.lastPolls d).2 := by
  unfold State.lastPolls
  split
  · rfl
  · exact tailPoll_same d _ s

theorem pollLoop_same (d n : Nat) (s : State) : s.SameButEnv (pollLoop d n s).2 := by
  induction n generalizing s with
  | zero => exact lastPolls_same s d
  | succ n ih =>
    unfold pollLoop
    split
    · exact lastPolls_same s d
    · split
      · exact (envTurn_same s).trans (clearHold_same _)
      · split
        · exact (envTurn_same s).trans (envTurn_same _)
        · exact ((envTurn_same s).trans (envTurn_same _)).trans (ih _)

theorem awaitChar_same (s : State) (d : Nat) : s.SameButEnv (s.awaitChar d).2 :=
  pollLoop_same d _ s

theorem rxChar_same (s : State) (n : Nat) : s.SameButEnv (s.rxChar n).2 :=
  (envTurn_same s).trans (awaitChar_same _ _)

/-! ### Fields of a state that differs at most in what the environment writes -/

theorem State.SameButEnv.cfg {s t : State} (h : s.SameButEnv t) : t.cfg = s.cfg := by
  rw [h]
theorem State.SameButEnv.sessionValid {s t : State} (h : s.SameButEnv t) : t.sessionValid = s.sessionValid := by
  rw [h]
theorem State.SameButEnv.convention {s t : State} (h : s.SameButEnv t) : t.convention = s.convention := by
  rw [h]
theorem State.SameButEnv.baudRate {s t : State} (h : s.SameButEnv t) : t.baudRate = s.baudRate := by
  rw [h]
theorem State.SameButEnv.powerState {s t : State} (h : s.SameButEnv t) : t.powerState = s.powerState := by
  rw [h]
theorem State.SameButEnv.negotiatedThisCycle {s t : State} (h : s.SameButEnv t) : t.negotiatedThisCycle = s.negotiatedThisCycle := by
  rw [h]
theorem State.SameButEnv.vccOn {s t : State} (h : s.SameButEnv t) : t.vccOn = s.vccOn := by
  rw [h]
theorem State.SameButEnv.rstAsserted {s t : State} (h : s.SameButEnv t) : t.rstAsserted = s.rstAsserted := by
  rw [h]
theorem State.SameButEnv.clkRunning {s t : State} (h : s.SameButEnv t) : t.clkRunning = s.clkRunning := by
  rw [h]
theorem State.SameButEnv.glitchOut {s t : State} (h : s.SameButEnv t) : t.glitchOut = s.glitchOut := by
  rw [h]
theorem State.SameButEnv.triggerOut {s t : State} (h : s.SameButEnv t) : t.triggerOut = s.triggerOut := by
  rw [h]
theorem State.SameButEnv.ioMode {s t : State} (h : s.SameButEnv t) : t.ioMode = s.ioMode := by
  rw [h]
theorem State.SameButEnv.buffer {s t : State} (h : s.SameButEnv t) : t.buffer = s.buffer := by
  rw [h]
theorem State.SameButEnv.atr {s t : State} (h : s.SameButEnv t) : t.atr = s.atr := by
  rw [h]
theorem State.SameButEnv.apdu {s t : State} (h : s.SameButEnv t) : t.apdu = s.apdu := by
  rw [h]
theorem State.SameButEnv.pending {s t : State} (h : s.SameButEnv t) : t.pending = s.pending := by
  rw [h]
theorem State.SameButEnv.trace {s t : State} (h : s.SameButEnv t) : t.trace = s.trace := by
  rw [h]

/-! ### receive -/

@[simp] theorem receive_cfg (s : State) (c : CardFrame) : (s.receive c).cfg = s.cfg :=
  (receive_same s c).cfg
@[simp] theorem receive_sessionValid (s : State) (c : CardFrame) : (s.receive c).sessionValid = s.sessionValid :=
  (receive_same s c).sessionValid
@[simp] theorem receive_convention (s : State) (c : CardFrame) : (s.receive c).convention = s.convention :=
  (receive_same s c).convention
@[simp] theorem receive_baudRate (s : State) (c : CardFrame) : (s.receive c).baudRate = s.baudRate :=
  (receive_same s c).baudRate
@[simp] theorem receive_powerState (s : State) (c : CardFrame) : (s.receive c).powerState = s.powerState :=
  (receive_same s c).powerState
@[simp] theorem receive_negotiatedThisCycle (s : State) (c : CardFrame) : (s.receive c).negotiatedThisCycle = s.negotiatedThisCycle :=
  (receive_same s c).negotiatedThisCycle
@[simp] theorem receive_vccOn (s : State) (c : CardFrame) : (s.receive c).vccOn = s.vccOn :=
  (receive_same s c).vccOn
@[simp] theorem receive_rstAsserted (s : State) (c : CardFrame) : (s.receive c).rstAsserted = s.rstAsserted :=
  (receive_same s c).rstAsserted
@[simp] theorem receive_clkRunning (s : State) (c : CardFrame) : (s.receive c).clkRunning = s.clkRunning :=
  (receive_same s c).clkRunning
@[simp] theorem receive_glitchOut (s : State) (c : CardFrame) : (s.receive c).glitchOut = s.glitchOut :=
  (receive_same s c).glitchOut
@[simp] theorem receive_triggerOut (s : State) (c : CardFrame) : (s.receive c).triggerOut = s.triggerOut :=
  (receive_same s c).triggerOut
@[simp] theorem receive_ioMode (s : State) (c : CardFrame) : (s.receive c).ioMode = s.ioMode :=
  (receive_same s c).ioMode
@[simp] theorem receive_buffer (s : State) (c : CardFrame) : (s.receive c).buffer = s.buffer :=
  (receive_same s c).buffer
@[simp] theorem receive_atr (s : State) (c : CardFrame) : (s.receive c).atr = s.atr :=
  (receive_same s c).atr
@[simp] theorem receive_apdu (s : State) (c : CardFrame) : (s.receive c).apdu = s.apdu :=
  (receive_same s c).apdu
@[simp] theorem receive_pending (s : State) (c : CardFrame) : (s.receive c).pending = s.pending :=
  (receive_same s c).pending
@[simp] theorem receive_trace (s : State) (c : CardFrame) : (s.receive c).trace = s.trace :=
  (receive_same s c).trace

/-! ### act -/

@[simp] theorem act_cfg (s : State) (e : EnvEvent) : (s.act e).cfg = s.cfg := (act_same s e).cfg
@[simp] theorem act_sessionValid (s : State) (e : EnvEvent) : (s.act e).sessionValid = s.sessionValid :=
  (act_same s e).sessionValid
@[simp] theorem act_convention (s : State) (e : EnvEvent) : (s.act e).convention = s.convention :=
  (act_same s e).convention
@[simp] theorem act_baudRate (s : State) (e : EnvEvent) : (s.act e).baudRate = s.baudRate :=
  (act_same s e).baudRate
@[simp] theorem act_powerState (s : State) (e : EnvEvent) : (s.act e).powerState = s.powerState :=
  (act_same s e).powerState
@[simp] theorem act_negotiatedThisCycle (s : State) (e : EnvEvent) : (s.act e).negotiatedThisCycle = s.negotiatedThisCycle :=
  (act_same s e).negotiatedThisCycle
@[simp] theorem act_vccOn (s : State) (e : EnvEvent) : (s.act e).vccOn = s.vccOn :=
  (act_same s e).vccOn
@[simp] theorem act_rstAsserted (s : State) (e : EnvEvent) : (s.act e).rstAsserted = s.rstAsserted :=
  (act_same s e).rstAsserted
@[simp] theorem act_clkRunning (s : State) (e : EnvEvent) : (s.act e).clkRunning = s.clkRunning :=
  (act_same s e).clkRunning
@[simp] theorem act_glitchOut (s : State) (e : EnvEvent) : (s.act e).glitchOut = s.glitchOut :=
  (act_same s e).glitchOut
@[simp] theorem act_triggerOut (s : State) (e : EnvEvent) : (s.act e).triggerOut = s.triggerOut :=
  (act_same s e).triggerOut
@[simp] theorem act_ioMode (s : State) (e : EnvEvent) : (s.act e).ioMode = s.ioMode :=
  (act_same s e).ioMode
@[simp] theorem act_buffer (s : State) (e : EnvEvent) : (s.act e).buffer = s.buffer :=
  (act_same s e).buffer
@[simp] theorem act_atr (s : State) (e : EnvEvent) : (s.act e).atr = s.atr := (act_same s e).atr
@[simp] theorem act_apdu (s : State) (e : EnvEvent) : (s.act e).apdu = s.apdu :=
  (act_same s e).apdu
@[simp] theorem act_pending (s : State) (e : EnvEvent) : (s.act e).pending = s.pending :=
  (act_same s e).pending
@[simp] theorem act_trace (s : State) (e : EnvEvent) : (s.act e).trace = s.trace :=
  (act_same s e).trace

/-! ### envTurn -/

@[simp] theorem envTurn_cfg (s : State) : s.envTurn.cfg = s.cfg := (envTurn_same s).cfg
@[simp] theorem envTurn_sessionValid (s : State) : s.envTurn.sessionValid = s.sessionValid :=
  (envTurn_same s).sessionValid
@[simp] theorem envTurn_convention (s : State) : s.envTurn.convention = s.convention :=
  (envTurn_same s).convention
@[simp] theorem envTurn_baudRate (s : State) : s.envTurn.baudRate = s.baudRate :=
  (envTurn_same s).baudRate
@[simp] theorem envTurn_powerState (s : State) : s.envTurn.powerState = s.powerState :=
  (envTurn_same s).powerState
@[simp] theorem envTurn_negotiatedThisCycle (s : State) : s.envTurn.negotiatedThisCycle = s.negotiatedThisCycle :=
  (envTurn_same s).negotiatedThisCycle
@[simp] theorem envTurn_vccOn (s : State) : s.envTurn.vccOn = s.vccOn := (envTurn_same s).vccOn
@[simp] theorem envTurn_rstAsserted (s : State) : s.envTurn.rstAsserted = s.rstAsserted :=
  (envTurn_same s).rstAsserted
@[simp] theorem envTurn_clkRunning (s : State) : s.envTurn.clkRunning = s.clkRunning :=
  (envTurn_same s).clkRunning
@[simp] theorem envTurn_glitchOut (s : State) : s.envTurn.glitchOut = s.glitchOut :=
  (envTurn_same s).glitchOut
@[simp] theorem envTurn_triggerOut (s : State) : s.envTurn.triggerOut = s.triggerOut :=
  (envTurn_same s).triggerOut
@[simp] theorem envTurn_ioMode (s : State) : s.envTurn.ioMode = s.ioMode :=
  (envTurn_same s).ioMode
@[simp] theorem envTurn_buffer (s : State) : s.envTurn.buffer = s.buffer :=
  (envTurn_same s).buffer
@[simp] theorem envTurn_atr (s : State) : s.envTurn.atr = s.atr := (envTurn_same s).atr
@[simp] theorem envTurn_apdu (s : State) : s.envTurn.apdu = s.apdu := (envTurn_same s).apdu
@[simp] theorem envTurn_pending (s : State) : s.envTurn.pending = s.pending :=
  (envTurn_same s).pending
@[simp] theorem envTurn_trace (s : State) : s.envTurn.trace = s.trace := (envTurn_same s).trace

/-! ### waitClkLow -/

theorem waitClkLow_same (s : State) : (s.emit .clkLowWait).SameButEnv s.waitClkLow := by
  have h := envTurn_same (s.emit .clkLowWait)
  unfold State.SameButEnv at *
  unfold State.waitClkLow
  rw [h]

@[simp] theorem waitClkLow_clkHigh (s : State) : s.waitClkLow.clkHigh = false := rfl

/-! ### stopClock -/

/-- A stop of the clock writes the clock and the trace; a running clock's wait is the environment's. -/
theorem stopClock_same (s : State) :
    State.SameButEnv
      { s with
        clkRunning := false,
        trace := s.trace ++ ((if s.clkRunning then [Event.clkLowWait] else []) ++
          [.pin (.clk false)]) } s.stopClock := by
  unfold State.stopClock
  split
  · have h := waitClkLow_same s
    unfold State.SameButEnv at *
    rw [h]
    simp [State.emit]
  · simp [State.SameButEnv, State.emit]

/-- A stop of a stopped clock waits for nothing. -/
theorem stopClock_stopped {s : State} (h : s.clkRunning = false) :
    s.stopClock = { s with clkHigh := false, trace := s.trace ++ [.pin (.clk false)] } := by
  unfold State.stopClock
  simp [h, State.emit]

@[simp] theorem stopClock_clkRunning (s : State) : s.stopClock.clkRunning = false := rfl
@[simp] theorem stopClock_clkHigh (s : State) : s.stopClock.clkHigh = false := rfl
@[simp] theorem stopClock_trace (s : State) :
    s.stopClock.trace = s.trace ++ ((if s.clkRunning then [Event.clkLowWait] else []) ++
      [.pin (.clk false)]) := (stopClock_same s).trace
@[simp] theorem stopClock_cfg (s : State) : s.stopClock.cfg = s.cfg := (stopClock_same s).cfg
@[simp] theorem stopClock_sessionValid (s : State) : s.stopClock.sessionValid = s.sessionValid := (stopClock_same s).sessionValid
@[simp] theorem stopClock_convention (s : State) : s.stopClock.convention = s.convention := (stopClock_same s).convention
@[simp] theorem stopClock_baudRate (s : State) : s.stopClock.baudRate = s.baudRate := (stopClock_same s).baudRate
@[simp] theorem stopClock_powerState (s : State) : s.stopClock.powerState = s.powerState := (stopClock_same s).powerState
@[simp] theorem stopClock_negotiatedThisCycle (s : State) : s.stopClock.negotiatedThisCycle = s.negotiatedThisCycle := (stopClock_same s).negotiatedThisCycle
@[simp] theorem stopClock_vccOn (s : State) : s.stopClock.vccOn = s.vccOn := (stopClock_same s).vccOn
@[simp] theorem stopClock_rstAsserted (s : State) : s.stopClock.rstAsserted = s.rstAsserted := (stopClock_same s).rstAsserted
@[simp] theorem stopClock_glitchOut (s : State) : s.stopClock.glitchOut = s.glitchOut := (stopClock_same s).glitchOut
@[simp] theorem stopClock_triggerOut (s : State) : s.stopClock.triggerOut = s.triggerOut := (stopClock_same s).triggerOut
@[simp] theorem stopClock_ioMode (s : State) : s.stopClock.ioMode = s.ioMode := (stopClock_same s).ioMode
@[simp] theorem stopClock_buffer (s : State) : s.stopClock.buffer = s.buffer := (stopClock_same s).buffer
@[simp] theorem stopClock_atr (s : State) : s.stopClock.atr = s.atr := (stopClock_same s).atr
@[simp] theorem stopClock_apdu (s : State) : s.stopClock.apdu = s.apdu := (stopClock_same s).apdu
@[simp] theorem stopClock_pending (s : State) : s.stopClock.pending = s.pending := (stopClock_same s).pending

/-! ### elapse -/

@[simp] theorem elapse_cfg (s : State) (n : Nat) : (s.elapse n).cfg = s.cfg :=
  (elapse_same s n).cfg
@[simp] theorem elapse_sessionValid (s : State) (n : Nat) : (s.elapse n).sessionValid = s.sessionValid :=
  (elapse_same s n).sessionValid
@[simp] theorem elapse_convention (s : State) (n : Nat) : (s.elapse n).convention = s.convention :=
  (elapse_same s n).convention
@[simp] theorem elapse_baudRate (s : State) (n : Nat) : (s.elapse n).baudRate = s.baudRate :=
  (elapse_same s n).baudRate
@[simp] theorem elapse_powerState (s : State) (n : Nat) : (s.elapse n).powerState = s.powerState :=
  (elapse_same s n).powerState
@[simp] theorem elapse_negotiatedThisCycle (s : State) (n : Nat) : (s.elapse n).negotiatedThisCycle = s.negotiatedThisCycle :=
  (elapse_same s n).negotiatedThisCycle
@[simp] theorem elapse_vccOn (s : State) (n : Nat) : (s.elapse n).vccOn = s.vccOn :=
  (elapse_same s n).vccOn
@[simp] theorem elapse_rstAsserted (s : State) (n : Nat) : (s.elapse n).rstAsserted = s.rstAsserted :=
  (elapse_same s n).rstAsserted
@[simp] theorem elapse_clkRunning (s : State) (n : Nat) : (s.elapse n).clkRunning = s.clkRunning :=
  (elapse_same s n).clkRunning
@[simp] theorem elapse_glitchOut (s : State) (n : Nat) : (s.elapse n).glitchOut = s.glitchOut :=
  (elapse_same s n).glitchOut
@[simp] theorem elapse_triggerOut (s : State) (n : Nat) : (s.elapse n).triggerOut = s.triggerOut :=
  (elapse_same s n).triggerOut
@[simp] theorem elapse_ioMode (s : State) (n : Nat) : (s.elapse n).ioMode = s.ioMode :=
  (elapse_same s n).ioMode
@[simp] theorem elapse_buffer (s : State) (n : Nat) : (s.elapse n).buffer = s.buffer :=
  (elapse_same s n).buffer
@[simp] theorem elapse_atr (s : State) (n : Nat) : (s.elapse n).atr = s.atr :=
  (elapse_same s n).atr
@[simp] theorem elapse_apdu (s : State) (n : Nat) : (s.elapse n).apdu = s.apdu :=
  (elapse_same s n).apdu
@[simp] theorem elapse_pending (s : State) (n : Nat) : (s.elapse n).pending = s.pending :=
  (elapse_same s n).pending
@[simp] theorem elapse_trace (s : State) (n : Nat) : (s.elapse n).trace = s.trace :=
  (elapse_same s n).trace

/-! ### expire -/

@[simp] theorem expire_cfg (s : State) (d : Nat) : (s.expire d).cfg = s.cfg :=
  (expire_same s d).cfg
@[simp] theorem expire_sessionValid (s : State) (d : Nat) : (s.expire d).sessionValid = s.sessionValid :=
  (expire_same s d).sessionValid
@[simp] theorem expire_convention (s : State) (d : Nat) : (s.expire d).convention = s.convention :=
  (expire_same s d).convention
@[simp] theorem expire_baudRate (s : State) (d : Nat) : (s.expire d).baudRate = s.baudRate :=
  (expire_same s d).baudRate
@[simp] theorem expire_powerState (s : State) (d : Nat) : (s.expire d).powerState = s.powerState :=
  (expire_same s d).powerState
@[simp] theorem expire_negotiatedThisCycle (s : State) (d : Nat) : (s.expire d).negotiatedThisCycle = s.negotiatedThisCycle :=
  (expire_same s d).negotiatedThisCycle
@[simp] theorem expire_vccOn (s : State) (d : Nat) : (s.expire d).vccOn = s.vccOn :=
  (expire_same s d).vccOn
@[simp] theorem expire_rstAsserted (s : State) (d : Nat) : (s.expire d).rstAsserted = s.rstAsserted :=
  (expire_same s d).rstAsserted
@[simp] theorem expire_clkRunning (s : State) (d : Nat) : (s.expire d).clkRunning = s.clkRunning :=
  (expire_same s d).clkRunning
@[simp] theorem expire_glitchOut (s : State) (d : Nat) : (s.expire d).glitchOut = s.glitchOut :=
  (expire_same s d).glitchOut
@[simp] theorem expire_triggerOut (s : State) (d : Nat) : (s.expire d).triggerOut = s.triggerOut :=
  (expire_same s d).triggerOut
@[simp] theorem expire_ioMode (s : State) (d : Nat) : (s.expire d).ioMode = s.ioMode :=
  (expire_same s d).ioMode
@[simp] theorem expire_buffer (s : State) (d : Nat) : (s.expire d).buffer = s.buffer :=
  (expire_same s d).buffer
@[simp] theorem expire_atr (s : State) (d : Nat) : (s.expire d).atr = s.atr :=
  (expire_same s d).atr
@[simp] theorem expire_apdu (s : State) (d : Nat) : (s.expire d).apdu = s.apdu :=
  (expire_same s d).apdu
@[simp] theorem expire_pending (s : State) (d : Nat) : (s.expire d).pending = s.pending :=
  (expire_same s d).pending
@[simp] theorem expire_trace (s : State) (d : Nat) : (s.expire d).trace = s.trace :=
  (expire_same s d).trace

/-! ### awaitChar -/

@[simp] theorem awaitChar_cfg (s : State) (d : Nat) : (s.awaitChar d).2.cfg = s.cfg :=
  (awaitChar_same s d).cfg
@[simp] theorem awaitChar_sessionValid (s : State) (d : Nat) : (s.awaitChar d).2.sessionValid = s.sessionValid :=
  (awaitChar_same s d).sessionValid
@[simp] theorem awaitChar_convention (s : State) (d : Nat) : (s.awaitChar d).2.convention = s.convention :=
  (awaitChar_same s d).convention
@[simp] theorem awaitChar_baudRate (s : State) (d : Nat) : (s.awaitChar d).2.baudRate = s.baudRate :=
  (awaitChar_same s d).baudRate
@[simp] theorem awaitChar_powerState (s : State) (d : Nat) : (s.awaitChar d).2.powerState = s.powerState :=
  (awaitChar_same s d).powerState
@[simp] theorem awaitChar_negotiatedThisCycle (s : State) (d : Nat) : (s.awaitChar d).2.negotiatedThisCycle = s.negotiatedThisCycle :=
  (awaitChar_same s d).negotiatedThisCycle
@[simp] theorem awaitChar_vccOn (s : State) (d : Nat) : (s.awaitChar d).2.vccOn = s.vccOn :=
  (awaitChar_same s d).vccOn
@[simp] theorem awaitChar_rstAsserted (s : State) (d : Nat) : (s.awaitChar d).2.rstAsserted = s.rstAsserted :=
  (awaitChar_same s d).rstAsserted
@[simp] theorem awaitChar_clkRunning (s : State) (d : Nat) : (s.awaitChar d).2.clkRunning = s.clkRunning :=
  (awaitChar_same s d).clkRunning
@[simp] theorem awaitChar_glitchOut (s : State) (d : Nat) : (s.awaitChar d).2.glitchOut = s.glitchOut :=
  (awaitChar_same s d).glitchOut
@[simp] theorem awaitChar_triggerOut (s : State) (d : Nat) : (s.awaitChar d).2.triggerOut = s.triggerOut :=
  (awaitChar_same s d).triggerOut
@[simp] theorem awaitChar_ioMode (s : State) (d : Nat) : (s.awaitChar d).2.ioMode = s.ioMode :=
  (awaitChar_same s d).ioMode
@[simp] theorem awaitChar_buffer (s : State) (d : Nat) : (s.awaitChar d).2.buffer = s.buffer :=
  (awaitChar_same s d).buffer
@[simp] theorem awaitChar_atr (s : State) (d : Nat) : (s.awaitChar d).2.atr = s.atr :=
  (awaitChar_same s d).atr
@[simp] theorem awaitChar_apdu (s : State) (d : Nat) : (s.awaitChar d).2.apdu = s.apdu :=
  (awaitChar_same s d).apdu
@[simp] theorem awaitChar_pending (s : State) (d : Nat) : (s.awaitChar d).2.pending = s.pending :=
  (awaitChar_same s d).pending
@[simp] theorem awaitChar_trace (s : State) (d : Nat) : (s.awaitChar d).2.trace = s.trace :=
  (awaitChar_same s d).trace

/-! ### rxChar -/

@[simp] theorem rxChar_cfg (s : State) (n : Nat) : (s.rxChar n).2.cfg = s.cfg :=
  (rxChar_same s n).cfg
@[simp] theorem rxChar_sessionValid (s : State) (n : Nat) : (s.rxChar n).2.sessionValid = s.sessionValid :=
  (rxChar_same s n).sessionValid
@[simp] theorem rxChar_convention (s : State) (n : Nat) : (s.rxChar n).2.convention = s.convention :=
  (rxChar_same s n).convention
@[simp] theorem rxChar_baudRate (s : State) (n : Nat) : (s.rxChar n).2.baudRate = s.baudRate :=
  (rxChar_same s n).baudRate
@[simp] theorem rxChar_powerState (s : State) (n : Nat) : (s.rxChar n).2.powerState = s.powerState :=
  (rxChar_same s n).powerState
@[simp] theorem rxChar_negotiatedThisCycle (s : State) (n : Nat) : (s.rxChar n).2.negotiatedThisCycle = s.negotiatedThisCycle :=
  (rxChar_same s n).negotiatedThisCycle
@[simp] theorem rxChar_vccOn (s : State) (n : Nat) : (s.rxChar n).2.vccOn = s.vccOn :=
  (rxChar_same s n).vccOn
@[simp] theorem rxChar_rstAsserted (s : State) (n : Nat) : (s.rxChar n).2.rstAsserted = s.rstAsserted :=
  (rxChar_same s n).rstAsserted
@[simp] theorem rxChar_clkRunning (s : State) (n : Nat) : (s.rxChar n).2.clkRunning = s.clkRunning :=
  (rxChar_same s n).clkRunning
@[simp] theorem rxChar_glitchOut (s : State) (n : Nat) : (s.rxChar n).2.glitchOut = s.glitchOut :=
  (rxChar_same s n).glitchOut
@[simp] theorem rxChar_triggerOut (s : State) (n : Nat) : (s.rxChar n).2.triggerOut = s.triggerOut :=
  (rxChar_same s n).triggerOut
@[simp] theorem rxChar_ioMode (s : State) (n : Nat) : (s.rxChar n).2.ioMode = s.ioMode :=
  (rxChar_same s n).ioMode
@[simp] theorem rxChar_buffer (s : State) (n : Nat) : (s.rxChar n).2.buffer = s.buffer :=
  (rxChar_same s n).buffer
@[simp] theorem rxChar_atr (s : State) (n : Nat) : (s.rxChar n).2.atr = s.atr :=
  (rxChar_same s n).atr
@[simp] theorem rxChar_apdu (s : State) (n : Nat) : (s.rxChar n).2.apdu = s.apdu :=
  (rxChar_same s n).apdu
@[simp] theorem rxChar_pending (s : State) (n : Nat) : (s.rxChar n).2.pending = s.pending :=
  (rxChar_same s n).pending
@[simp] theorem rxChar_trace (s : State) (n : Nat) : (s.rxChar n).2.trace = s.trace :=
  (rxChar_same s n).trace

end Sys2Proof.Machine
end

