-- ==== Sys2Proof/Laws/Line.lean ====
section
/-! SUPPORT. What the waits and the transmission of characters can do: beside what the environment
writes, they append to the trace; while the block is not listening nothing is received. -/

namespace Sys2Proof.Machine

theorem State.SameButEnv.emit {s t : State} (h : s.SameButEnv t) (e : Event) :
    (s.emit e).SameButEnv (t.emit e) := by
  unfold State.SameButEnv at *
  rw [h]
  rfl

theorem waitMs_same (s : State) (n : Nat) : (s.emit (.waitMs n)).SameButEnv (s.waitMs n) :=
  elapse_same _ _

theorem waitUs_same (s : State) (n : Nat) : (s.emit (.waitUs n)).SameButEnv (s.waitUs n) :=
  elapse_same _ _

theorem lineTx_same (s : State) (r : Byte) (p : Bool) :
    (s.emit (.tx (txFrame r p) s.baudRate)).SameButEnv (s.lineTx r p) :=
  elapse_same _ _

theorem txChar_same (s : State) (b : Byte) :
    State.SameButEnv { s with trace := s.trace ++ s.txEvents b } (s.txChar b) := by
  have h1 := waitUs_same s (Config.guardUnitUs * s.cfg.guardFactor)
  have h2 := lineTx_same (s.waitUs (Config.guardUnitUs * s.cfg.guardFactor))
    (translate s.convention b) (parity s.convention (translate s.convention b))
  have h3 := h1.emit (.tx (txFrame (translate s.convention b)
    (parity s.convention (translate s.convention b))) s.baudRate)
  rw [show (s.waitUs (Config.guardUnitUs * s.cfg.guardFactor)).baudRate = s.baudRate from
    h1.baudRate] at h2
  have h4 := h3.trans h2
  have e : State.emit (s.emit (.waitUs (Config.guardUnitUs * s.cfg.guardFactor)))
      (.tx (txFrame (translate s.convention b) (parity s.convention (translate s.convention b)))
        s.baudRate) = { s with trace := s.trace ++ s.txEvents b } := by
    simp [State.emit, State.txEvents]
  rw [e] at h4
  exact h4

theorem txEvents_congr {s t : State} (hc : t.cfg = s.cfg) (hv : t.convention = s.convention)
    (hb : t.baudRate = s.baudRate) (b : Byte) : t.txEvents b = s.txEvents b := by
  simp [State.txEvents, hc, hv, hb]

theorem txAll_same (bs : List Byte) (s : State) :
    State.SameButEnv { s with trace := s.trace ++ bs.flatMap s.txEvents } (s.txAll bs) := by
  induction bs generalizing s with
  | nil => simp [State.txAll, State.SameButEnv]
  | cons b bs ih =>
    have h1 := txChar_same s b
    have h2 := ih (s.txChar b)
    have e : (s.txChar b).txEvents = s.txEvents :=
      funext (txEvents_congr h1.cfg h1.convention h1.baudRate)
    unfold State.SameButEnv at h1 h2 ⊢
    unfold State.txAll
    rw [h2, e, h1]
    simp

/-! ### Nothing is received while the block is not listening -/

theorem receive_hold_deaf {s : State} (h : s.listening = false) (c : CardFrame) :
    (s.receive c).rxHold = s.rxHold := by
  simp [State.receive, h]

theorem act_hold_deaf {s : State} (h : s.listening = false) (e : EnvEvent) :
    (s.act e).rxHold = s.rxHold := by
  cases e with
  | ms => rfl
  | frame f => exact receive_hold_deaf h f
  | clk high => simp only [State.act]; split <;> rfl

theorem acts_hold_deaf (batch : List EnvEvent) {s : State} (h : s.listening = false) :
    (batch.foldl State.act s).rxHold = s.rxHold := by
  induction batch generalizing s with
  | nil => rfl
  | cons e es ih =>
    have h2 : (s.act e).listening = false := by
      simpa [State.listening] using h
    rw [List.foldl_cons, ih h2, act_hold_deaf h]

theorem envTurn_hold_deaf {s : State} (h : s.listening = false) : s.envTurn.rxHold = s.rxHold := by
  unfold State.envTurn
  split
  · rfl
  · exact acts_hold_deaf _ (s := { s with env := _ }) h

theorem elapse_hold_deaf {s : State} (h : s.listening = false) (n : Nat) :
    (s.elapse n).rxHold = s.rxHold := envTurn_hold_deaf h

theorem waitUs_hold_deaf {s : State} (h : s.listening = false) (n : Nat) :
    (s.waitUs n).rxHold = s.rxHold := elapse_hold_deaf (s := s.emit (.waitUs n)) h (n / 1000)

theorem lineTx_hold_deaf {s : State} (h : s.listening = false) (r : Byte) (p : Bool) :
    (s.lineTx r p).rxHold = s.rxHold := elapse_hold_deaf (s := s.emit _) h _

theorem txChar_hold_deaf {s : State} (h : s.listening = false) (b : Byte) :
    (s.txChar b).rxHold = s.rxHold := by
  have h2 : (s.waitUs (Config.guardUnitUs * s.cfg.guardFactor)).listening = false := by
    rw [← h]; simp only [State.listening]; rw [(waitUs_same s _).ioMode]; rfl
  unfold State.txChar
  rw [lineTx_hold_deaf h2, waitUs_hold_deaf h]

theorem txAll_hold_deaf (bs : List Byte) {s : State} (h : s.listening = false) :
    (s.txAll bs).rxHold = s.rxHold := by
  induction bs generalizing s with
  | nil => rfl
  | cons b bs ih =>
    have h2 : (s.txChar b).listening = false := by
      rw [← h]; simp only [State.listening]; rw [(txChar_same s b).ioMode]
    rw [State.txAll, ih h2, txChar_hold_deaf h]


/-! ### waitMs -/

@[simp] theorem waitMs_cfg (s : State) (n : Nat) : (s.waitMs n).cfg = s.cfg :=
  (waitMs_same s n).cfg
@[simp] theorem waitMs_sessionValid (s : State) (n : Nat) : (s.waitMs n).sessionValid = s.sessionValid :=
  (waitMs_same s n).sessionValid
@[simp] theorem waitMs_convention (s : State) (n : Nat) : (s.waitMs n).convention = s.convention :=
  (waitMs_same s n).convention
@[simp] theorem waitMs_baudRate (s : State) (n : Nat) : (s.waitMs n).baudRate = s.baudRate :=
  (waitMs_same s n).baudRate
@[simp] theorem waitMs_powerState (s : State) (n : Nat) : (s.waitMs n).powerState = s.powerState :=
  (waitMs_same s n).powerState
@[simp] theorem waitMs_negotiatedThisCycle (s : State) (n : Nat) : (s.waitMs n).negotiatedThisCycle = s.negotiatedThisCycle :=
  (waitMs_same s n).negotiatedThisCycle
@[simp] theorem waitMs_vccOn (s : State) (n : Nat) : (s.waitMs n).vccOn = s.vccOn :=
  (waitMs_same s n).vccOn
@[simp] theorem waitMs_rstAsserted (s : State) (n : Nat) : (s.waitMs n).rstAsserted = s.rstAsserted :=
  (waitMs_same s n).rstAsserted
@[simp] theorem waitMs_clkRunning (s : State) (n : Nat) : (s.waitMs n).clkRunning = s.clkRunning :=
  (waitMs_same s n).clkRunning
@[simp] theorem waitMs_glitchOut (s : State) (n : Nat) : (s.waitMs n).glitchOut = s.glitchOut :=
  (waitMs_same s n).glitchOut
@[simp] theorem waitMs_triggerOut (s : State) (n : Nat) : (s.waitMs n).triggerOut = s.triggerOut :=
  (waitMs_same s n).triggerOut
@[simp] theorem waitMs_ioMode (s : State) (n : Nat) : (s.waitMs n).ioMode = s.ioMode :=
  (waitMs_same s n).ioMode
@[simp] theorem waitMs_buffer (s : State) (n : Nat) : (s.waitMs n).buffer = s.buffer :=
  (waitMs_same s n).buffer
@[simp] theorem waitMs_atr (s : State) (n : Nat) : (s.waitMs n).atr = s.atr :=
  (waitMs_same s n).atr
@[simp] theorem waitMs_apdu (s : State) (n : Nat) : (s.waitMs n).apdu = s.apdu :=
  (waitMs_same s n).apdu
@[simp] theorem waitMs_pending (s : State) (n : Nat) : (s.waitMs n).pending = s.pending :=
  (waitMs_same s n).pending
@[simp] theorem waitMs_trace (s : State) (n : Nat) : (s.waitMs n).trace = s.trace ++ [.waitMs n] :=
  (waitMs_same s n).trace

/-! ### waitUs -/

@[simp] theorem waitUs_cfg (s : State) (n : Nat) : (s.waitUs n).cfg = s.cfg :=
  (waitUs_same s n).cfg
@[simp] theorem waitUs_sessionValid (s : State) (n : Nat) : (s.waitUs n).sessionValid = s.sessionValid :=
  (waitUs_same s n).sessionValid
@[simp] theorem waitUs_convention (s : State) (n : Nat) : (s.waitUs n).convention = s.convention :=
  (waitUs_same s n).convention
@[simp] theorem waitUs_baudRate (s : State) (n : Nat) : (s.waitUs n).baudRate = s.baudRate :=
  (waitUs_same s n).baudRate
@[simp] theorem waitUs_powerState (s : State) (n : Nat) : (s.waitUs n).powerState = s.powerState :=
  (waitUs_same s n).powerState
@[simp] theorem waitUs_negotiatedThisCycle (s : State) (n : Nat) : (s.waitUs n).negotiatedThisCycle = s.negotiatedThisCycle :=
  (waitUs_same s n).negotiatedThisCycle
@[simp] theorem waitUs_vccOn (s : State) (n : Nat) : (s.waitUs n).vccOn = s.vccOn :=
  (waitUs_same s n).vccOn
@[simp] theorem waitUs_rstAsserted (s : State) (n : Nat) : (s.waitUs n).rstAsserted = s.rstAsserted :=
  (waitUs_same s n).rstAsserted
@[simp] theorem waitUs_clkRunning (s : State) (n : Nat) : (s.waitUs n).clkRunning = s.clkRunning :=
  (waitUs_same s n).clkRunning
@[simp] theorem waitUs_glitchOut (s : State) (n : Nat) : (s.waitUs n).glitchOut = s.glitchOut :=
  (waitUs_same s n).glitchOut
@[simp] theorem waitUs_triggerOut (s : State) (n : Nat) : (s.waitUs n).triggerOut = s.triggerOut :=
  (waitUs_same s n).triggerOut
@[simp] theorem waitUs_ioMode (s : State) (n : Nat) : (s.waitUs n).ioMode = s.ioMode :=
  (waitUs_same s n).ioMode
@[simp] theorem waitUs_buffer (s : State) (n : Nat) : (s.waitUs n).buffer = s.buffer :=
  (waitUs_same s n).buffer
@[simp] theorem waitUs_atr (s : State) (n : Nat) : (s.waitUs n).atr = s.atr :=
  (waitUs_same s n).atr
@[simp] theorem waitUs_apdu (s : State) (n : Nat) : (s.waitUs n).apdu = s.apdu :=
  (waitUs_same s n).apdu
@[simp] theorem waitUs_pending (s : State) (n : Nat) : (s.waitUs n).pending = s.pending :=
  (waitUs_same s n).pending
@[simp] theorem waitUs_trace (s : State) (n : Nat) : (s.waitUs n).trace = s.trace ++ [.waitUs n] :=
  (waitUs_same s n).trace

/-! ### lineTx -/

@[simp] theorem lineTx_cfg (s : State) (r : Byte) (p : Bool) : (s.lineTx r p).cfg = s.cfg :=
  (lineTx_same s r p).cfg
@[simp] theorem lineTx_sessionValid (s : State) (r : Byte) (p : Bool) : (s.lineTx r p).sessionValid = s.sessionValid :=
  (lineTx_same s r p).sessionValid
@[simp] theorem lineTx_convention (s : State) (r : Byte) (p : Bool) : (s.lineTx r p).convention = s.convention :=
  (lineTx_same s r p).convention
@[simp] theorem lineTx_baudRate (s : State) (r : Byte) (p : Bool) : (s.lineTx r p).baudRate = s.baudRate :=
  (lineTx_same s r p).baudRate
@[simp] theorem lineTx_powerState (s : State) (r : Byte) (p : Bool) : (s.lineTx r p).powerState = s.powerState :=
  (lineTx_same s r p).powerState
@[simp] theorem lineTx_negotiatedThisCycle (s : State) (r : Byte) (p : Bool) : (s.lineTx r p).negotiatedThisCycle = s.negotiatedThisCycle :=
  (lineTx_same s r p).negotiatedThisCycle
@[simp] theorem lineTx_vccOn (s : State) (r : Byte) (p : Bool) : (s.lineTx r p).vccOn = s.vccOn :=
  (lineTx_same s r p).vccOn
@[simp] theorem lineTx_rstAsserted (s : State) (r : Byte) (p : Bool) : (s.lineTx r p).rstAsserted = s.rstAsserted :=
  (lineTx_same s r p).rstAsserted
@[simp] theorem lineTx_clkRunning (s : State) (r : Byte) (p : Bool) : (s.lineTx r p).clkRunning = s.clkRunning :=
  (lineTx_same s r p).clkRunning
@[simp] theorem lineTx_glitchOut (s : State) (r : Byte) (p : Bool) : (s.lineTx r p).glitchOut = s.glitchOut :=
  (lineTx_same s r p).glitchOut
@[simp] theorem lineTx_triggerOut (s : State) (r : Byte) (p : Bool) : (s.lineTx r p).triggerOut = s.triggerOut :=
  (lineTx_same s r p).triggerOut
@[simp] theorem lineTx_ioMode (s : State) (r : Byte) (p : Bool) : (s.lineTx r p).ioMode = s.ioMode :=
  (lineTx_same s r p).ioMode
@[simp] theorem lineTx_buffer (s : State) (r : Byte) (p : Bool) : (s.lineTx r p).buffer = s.buffer :=
  (lineTx_same s r p).buffer
@[simp] theorem lineTx_atr (s : State) (r : Byte) (p : Bool) : (s.lineTx r p).atr = s.atr :=
  (lineTx_same s r p).atr
@[simp] theorem lineTx_apdu (s : State) (r : Byte) (p : Bool) : (s.lineTx r p).apdu = s.apdu :=
  (lineTx_same s r p).apdu
@[simp] theorem lineTx_pending (s : State) (r : Byte) (p : Bool) : (s.lineTx r p).pending = s.pending :=
  (lineTx_same s r p).pending
@[simp] theorem lineTx_trace (s : State) (r : Byte) (p : Bool) : (s.lineTx r p).trace = s.trace ++ [.tx (txFrame r p) s.baudRate] :=
  (lineTx_same s r p).trace

/-! ### txChar -/

@[simp] theorem txChar_cfg (s : State) (b : Byte) : (s.txChar b).cfg = s.cfg :=
  (txChar_same s b).cfg
@[simp] theorem txChar_sessionValid (s : State) (b : Byte) : (s.txChar b).sessionValid = s.sessionValid :=
  (txChar_same s b).sessionValid
@[simp] theorem txChar_convention (s : State) (b : Byte) : (s.txChar b).convention = s.convention :=
  (txChar_same s b).convention
@[simp] theorem txChar_baudRate (s : State) (b : Byte) : (s.txChar b).baudRate = s.baudRate :=
  (txChar_same s b).baudRate
@[simp] theorem txChar_powerState (s : State) (b : Byte) : (s.txChar b).powerState = s.powerState :=
  (txChar_same s b).powerState
@[simp] theorem txChar_negotiatedThisCycle (s : State) (b : Byte) : (s.txChar b).negotiatedThisCycle = s.negotiatedThisCycle :=
  (txChar_same s b).negotiatedThisCycle
@[simp] theorem txChar_vccOn (s : State) (b : Byte) : (s.txChar b).vccOn = s.vccOn :=
  (txChar_same s b).vccOn
@[simp] theorem txChar_rstAsserted (s : State) (b : Byte) : (s.txChar b).rstAsserted = s.rstAsserted :=
  (txChar_same s b).rstAsserted
@[simp] theorem txChar_clkRunning (s : State) (b : Byte) : (s.txChar b).clkRunning = s.clkRunning :=
  (txChar_same s b).clkRunning
@[simp] theorem txChar_glitchOut (s : State) (b : Byte) : (s.txChar b).glitchOut = s.glitchOut :=
  (txChar_same s b).glitchOut
@[simp] theorem txChar_triggerOut (s : State) (b : Byte) : (s.txChar b).triggerOut = s.triggerOut :=
  (txChar_same s b).triggerOut
@[simp] theorem txChar_ioMode (s : State) (b : Byte) : (s.txChar b).ioMode = s.ioMode :=
  (txChar_same s b).ioMode
@[simp] theorem txChar_buffer (s : State) (b : Byte) : (s.txChar b).buffer = s.buffer :=
  (txChar_same s b).buffer
@[simp] theorem txChar_atr (s : State) (b : Byte) : (s.txChar b).atr = s.atr :=
  (txChar_same s b).atr
@[simp] theorem txChar_apdu (s : State) (b : Byte) : (s.txChar b).apdu = s.apdu :=
  (txChar_same s b).apdu
@[simp] theorem txChar_pending (s : State) (b : Byte) : (s.txChar b).pending = s.pending :=
  (txChar_same s b).pending
@[simp] theorem txChar_trace (s : State) (b : Byte) : (s.txChar b).trace = s.trace ++ s.txEvents b :=
  (txChar_same s b).trace

/-! ### txAll -/

@[simp] theorem txAll_cfg (s : State) (bs : List Byte) : (s.txAll bs).cfg = s.cfg :=
  (txAll_same bs s).cfg
@[simp] theorem txAll_sessionValid (s : State) (bs : List Byte) : (s.txAll bs).sessionValid = s.sessionValid :=
  (txAll_same bs s).sessionValid
@[simp] theorem txAll_convention (s : State) (bs : List Byte) : (s.txAll bs).convention = s.convention :=
  (txAll_same bs s).convention
@[simp] theorem txAll_baudRate (s : State) (bs : List Byte) : (s.txAll bs).baudRate = s.baudRate :=
  (txAll_same bs s).baudRate
@[simp] theorem txAll_powerState (s : State) (bs : List Byte) : (s.txAll bs).powerState = s.powerState :=
  (txAll_same bs s).powerState
@[simp] theorem txAll_negotiatedThisCycle (s : State) (bs : List Byte) : (s.txAll bs).negotiatedThisCycle = s.negotiatedThisCycle :=
  (txAll_same bs s).negotiatedThisCycle
@[simp] theorem txAll_vccOn (s : State) (bs : List Byte) : (s.txAll bs).vccOn = s.vccOn :=
  (txAll_same bs s).vccOn
@[simp] theorem txAll_rstAsserted (s : State) (bs : List Byte) : (s.txAll bs).rstAsserted = s.rstAsserted :=
  (txAll_same bs s).rstAsserted
@[simp] theorem txAll_clkRunning (s : State) (bs : List Byte) : (s.txAll bs).clkRunning = s.clkRunning :=
  (txAll_same bs s).clkRunning
@[simp] theorem txAll_glitchOut (s : State) (bs : List Byte) : (s.txAll bs).glitchOut = s.glitchOut :=
  (txAll_same bs s).glitchOut
@[simp] theorem txAll_triggerOut (s : State) (bs : List Byte) : (s.txAll bs).triggerOut = s.triggerOut :=
  (txAll_same bs s).triggerOut
@[simp] theorem txAll_ioMode (s : State) (bs : List Byte) : (s.txAll bs).ioMode = s.ioMode :=
  (txAll_same bs s).ioMode
@[simp] theorem txAll_buffer (s : State) (bs : List Byte) : (s.txAll bs).buffer = s.buffer :=
  (txAll_same bs s).buffer
@[simp] theorem txAll_atr (s : State) (bs : List Byte) : (s.txAll bs).atr = s.atr :=
  (txAll_same bs s).atr
@[simp] theorem txAll_apdu (s : State) (bs : List Byte) : (s.txAll bs).apdu = s.apdu :=
  (txAll_same bs s).apdu
@[simp] theorem txAll_pending (s : State) (bs : List Byte) : (s.txAll bs).pending = s.pending :=
  (txAll_same bs s).pending
@[simp] theorem txAll_trace (s : State) (bs : List Byte) : (s.txAll bs).trace = s.trace ++ bs.flatMap s.txEvents :=
  (txAll_same bs s).trace

end Sys2Proof.Machine
end

