-- ==== Sys2Proof/Laws/Progress.lean ====
section
/-! SUPPORT. How the environment is used up: a turn takes the next batch of the script, a character that
is received makes what is left smaller, and without a script a poll has one of four outcomes. -/

namespace Sys2Proof.Machine

theorem receive_env (s : State) (c : CardFrame) : (s.receive c).env = s.env := by
  unfold State.receive
  split
  · split
    · rfl
    · split <;> rfl
  · rfl

theorem act_env (s : State) (e : EnvEvent) : (s.act e).env = s.env := by
  cases e with
  | ms => rfl
  | frame f => exact receive_env s f
  | clk high => simp only [State.act]; split <;> rfl

theorem acts_env (batch : List EnvEvent) (s : State) : (batch.foldl State.act s).env = s.env := by
  induction batch generalizing s with
  | nil => rfl
  | cons e es ih => rw [List.foldl_cons, ih, act_env]

theorem envTurn_env (s : State) :
    s.envTurn.env = ⟨s.env.script.tail, s.env.card, s.env.flood⟩ := by
  unfold State.envTurn
  split
  · rename_i h
    rw [h, List.tail_nil, ← h]
  · rename_i h
    rw [acts_env, h]
    rfl

theorem envTurn_unscripted {s : State} (h : s.env.script = []) : s.envTurn = s := by
  unfold State.envTurn
  rw [h]

theorem elapse_env (s : State) (n : Nat) :
    (s.elapse n).env = ⟨s.env.script.tail, s.env.card, s.env.flood⟩ := envTurn_env s

theorem txChar_env (s : State) (b : Byte) :
    (s.txChar b).env = ⟨s.env.script.tail.tail, s.env.card, s.env.flood⟩ := by
  unfold State.txChar State.lineTx State.waitUs
  rw [elapse_env, emit_env, elapse_env, emit_env]

theorem expire_env (s : State) (d : Nat) : (s.expire d).env = s.env := by
  unfold State.expire
  split <;> rfl

theorem expire_hold (s : State) (d : Nat) : (s.expire d).rxHold = s.rxHold := by
  unfold State.expire
  split <;> rfl

/-- What is still to come from the card: batches of the script, characters, and a character held. -/
def State.left (s : State) : Nat :=
  s.env.script.length + s.env.card.length + (if s.rxHold = none then 0 else 1)

theorem left_of_hold {s : State} (h : s.rxHold = none) :
    s.left = s.env.script.length + s.env.card.length := by
  simp [State.left, h]

theorem left_clearHold (s : State) :
    s.clearHold.left = s.env.script.length + s.env.card.length := by
  simp [State.left]

theorem left_le (s : State) : s.left ≤ s.env.script.length + s.env.card.length + 1 := by
  unfold State.left
  split <;> omega

theorem le_left (s : State) : s.env.script.length + s.env.card.length ≤ s.left := by
  unfold State.left
  omega

/-- A turn of the environment leaves no more to come than there was. -/
theorem left_envTurn (s : State) :
    s.envTurn.left ≤ s.left ∧
      (s.env.script ≠ [] → s.envTurn.left ≤ s.env.script.length + s.env.card.length) := by
  by_cases h : s.env.script = []
  · rw [envTurn_unscripted h]; exact ⟨Nat.le_refl _, fun k => absurd h k⟩
  · have h1 := left_le s.envTurn
    rw [envTurn_env] at h1
    have h2 : s.env.script.length ≠ 0 := by simpa using h
    have h3 := le_left s
    simp only [List.length_tail] at h1
    exact ⟨by omega, fun _ => by omega⟩

/-- The end of a poll loop with a card that falls silent: a character that is received makes what is
left smaller, none that is received leaves no more. -/
theorem left_tailPoll (d : Nat) (fs : List CardFrame) (s : State) (hf : s.env.flood = none)
    (hc : s.env.card = fs) (hh : s.rxHold = none) :
    (tailPoll d fs s).2.env.flood = none ∧
      ((tailPoll d fs s).1 ≠ none → (tailPoll d fs s).2.left < s.left) ∧
      (tailPoll d fs s).2.left ≤ s.left := by
  induction fs generalizing s with
  | nil =>
    have e : tailPoll d [] s = (none, s.expire d) := by unfold tailPoll; rw [hf]
    rw [e]
    have hl : (s.expire d).left = s.left := by
      simp [State.left, expire_env, expire_hold]
    exact ⟨by rw [expire_env]; exact hf, fun h => absurd rfl h, Nat.le_of_eq hl⟩
  | cons f fs ih =>
    have hs := left_of_hold hh
    rw [hc] at hs
    simp only [List.length_cons] at hs
    unfold tailPoll
    split
    · have e : State.left (State.clearHold
          ((s.withCard fs).receive f)) =
            s.env.script.length + fs.length := by
        rw [left_clearHold, receive_env]; rfl
      have e2 : (State.clearHold ((s.withCard fs).receive f)).env.flood =
          none := by
        rw [clearHold_env, receive_env]; exact hf
      exact ⟨e2, fun _ => by dsimp only; omega, by dsimp only; omega⟩
    · rename_i h0
      have hk := ih ((s.withCard fs).receive f)
        (by rw [receive_env]; exact hf) (by rw [receive_env]; rfl) h0
      have e := left_of_hold h0
      rw [receive_env, withCard_env] at e
      dsimp only at e
      exact ⟨hk.1, fun h => by have := hk.2.1 h; omega, by have := hk.2.2; omega⟩

theorem left_lastPolls (d : Nat) (s : State) (hf : s.env.flood = none) :
    (s.lastPolls d).2.env.flood = none ∧
      ((s.lastPolls d).1 ≠ none → (s.lastPolls d).2.left < s.left) ∧
      (s.lastPolls d).2.left ≤ s.left := by
  unfold State.lastPolls
  split
  · rename_i r h
    have e : s.left = s.env.script.length + s.env.card.length + 1 := by simp [State.left, h]
    have e2 := left_clearHold s
    exact ⟨hf, fun _ => by dsimp only; omega, by dsimp only; omega⟩
  · rename_i h
    exact left_tailPoll d _ s hf rfl h

theorem left_pollLoop (d n : Nat) (s : State) (hf : s.env.flood = none) :
    (pollLoop d n s).2.env.flood = none ∧
      ((pollLoop d n s).1 ≠ none → (pollLoop d n s).2.left < s.left) ∧
      (pollLoop d n s).2.left ≤ s.left := by
  induction n generalizing s with
  | zero => exact left_lastPolls d s hf
  | succ n ih =>
    unfold pollLoop
    split
    · exact left_lastPolls d s hf
    · rename_i b bs hs
      have hs0 : s.env.script ≠ [] := by simp [hs]
      have hl := hs ▸ List.length_cons (a := b) (as := bs)
      have h3 := le_left s
      have hf1 : s.envTurn.env.flood = none := by rw [envTurn_env]; exact hf
      have hl1 : s.envTurn.env.script.length + 1 = s.env.script.length := by
        rw [envTurn_env, hs]; simp
      have hc1 : s.envTurn.env.card = s.env.card := by rw [envTurn_env]
      split
      · have e2 := left_clearHold s.envTurn
        rw [hc1] at e2
        exact ⟨hf1, fun _ => by dsimp only; omega, by dsimp only; omega⟩
      · rename_i h0
        have e1 := left_of_hold h0
        have e2 := (left_envTurn s.envTurn).1
        have hf2 : s.envTurn.envTurn.env.flood = none := by rw [envTurn_env]; exact hf1
        rw [hc1] at e1
        split
        · exact ⟨hf2, fun h => absurd rfl h, by dsimp only; omega⟩
        · have hk := ih s.envTurn.envTurn hf2
          exact ⟨hk.1, fun h => by have := hk.2.1 h; omega, by have := hk.2.2; omega⟩

theorem left_awaitChar (d : Nat) (s : State) (hf : s.env.flood = none) :
    (s.awaitChar d).2.env.flood = none ∧
      ((s.awaitChar d).1 ≠ none → (s.awaitChar d).2.left < s.left) ∧
      (s.awaitChar d).2.left ≤ s.left :=
  left_pollLoop d _ s hf

/-- A character that `RxChar` returns makes what is left smaller, for a card that falls silent. -/
theorem left_rxChar (n : Nat) (s : State) (hf : s.env.flood = none) :
    (s.rxChar n).2.env.flood = none ∧
      ((s.rxChar n).1 ≠ none → (s.rxChar n).2.left < s.left) ∧ (s.rxChar n).2.left ≤ s.left := by
  have h1 := (left_envTurn s).1
  have hk := left_awaitChar (s.envTurn.deadlineIn n) s.envTurn (by rw [envTurn_env]; exact hf)
  refine ⟨hk.1, fun h => ?_, Nat.le_trans hk.2.2 h1⟩
  refine Nat.lt_of_lt_of_le (hk.2.1 fun h0 => h ?_) h1
  simp [State.rxChar, h0]

/-! ### Polls without a script -/

theorem assemble_levels (f : Frame) : assemble f.levels = f.data := by
  obtain ⟨d, a, b, c⟩ := f
  revert d a b c
  decide

/-- A frame at the current etu reaches an empty holding register while the block listens (R159). -/
theorem receive_current {s : State} {c : CardFrame} (hl : s.ioMode = .released)
    (hh : s.rxHold = none) (hr : c.rate = none) :
    s.receive c = { s with rxHold := some c.frame.data } := by
  simp [State.receive, State.listening, State.assembled, hl, hh, hr, assemble_levels]

theorem awaitChar_unscripted {s : State} (hs : s.env.script = []) (d : Nat) :
    s.awaitChar d = s.lastPolls d := by
  unfold State.awaitChar
  rw [hs]
  rfl

/-- Without a script, the next frame of the card is the next character. -/
theorem awaitChar_card {s : State} {f : CardFrame} {more : List CardFrame} (hs : s.env.script = [])
    (hl : s.ioMode = .released) (hh : s.rxHold = none) (hc : s.env.card = f :: more)
    (hr : f.rate = none) (d : Nat) :
    s.awaitChar d = (some f.frame.data, s.withCard more) := by
  rw [awaitChar_unscripted hs]
  unfold State.lastPolls
  rw [hh, hc]
  unfold tailPoll
  rw [receive_current (by exact hl) (by exact hh) hr]
  simp [State.clearHold, State.withCard, ← hh]

/-- Without a script and a card, a flood is the next character. -/
theorem awaitChar_flood {s : State} {f : CardFrame} (hs : s.env.script = [])
    (hl : s.ioMode = .released) (hh : s.rxHold = none) (hc : s.env.card = [])
    (hf : s.env.flood = some f) (hr : f.rate = none) (d : Nat) :
    s.awaitChar d = (some f.frame.data, s) := by
  rw [awaitChar_unscripted hs]
  unfold State.lastPolls
  rw [hh, hc]
  unfold tailPoll
  rw [hf]
  dsimp only
  rw [receive_current hl hh hr]
  simp [State.clearHold, ← hh]

/-- Without a script, a card and a flood, the deadline passes. -/
theorem awaitChar_silent {s : State} (hs : s.env.script = []) (hh : s.rxHold = none)
    (hc : s.env.card = []) (hf : s.env.flood = none) (d : Nat) :
    s.awaitChar d = (none, s.expire d) := by
  rw [awaitChar_unscripted hs]
  unfold State.lastPolls
  rw [hh, hc]
  unfold tailPoll
  rw [hf]

/-- Without a script, a byte that is held is taken at once. -/
theorem awaitChar_held {s : State} {r : Byte} (hs : s.env.script = []) (hh : s.rxHold = some r)
    (d : Nat) : s.awaitChar d = (some r, s.clearHold) := by
  rw [awaitChar_unscripted hs]
  unfold State.lastPolls
  rw [hh]

theorem rxChar_unscripted {s : State} (hs : s.env.script = []) (n : Nat) :
    s.rxChar n = ((s.awaitChar (s.deadlineIn n)).1.map (translate s.convention),
      (s.awaitChar (s.deadlineIn n)).2) := by
  unfold State.rxChar
  rw [envTurn_unscripted hs]
  dsimp only
  rw [awaitChar_convention]

theorem rxChar_card {s : State} {f : CardFrame} {more : List CardFrame} (hs : s.env.script = [])
    (hl : s.ioMode = .released) (hh : s.rxHold = none) (hc : s.env.card = f :: more)
    (hr : f.rate = none) (n : Nat) :
    s.rxChar n = (some (translate s.convention f.frame.data),
      s.withCard more) := by
  rw [rxChar_unscripted hs, awaitChar_card hs hl hh hc hr]
  rfl

theorem rxChar_flood {s : State} {f : CardFrame} (hs : s.env.script = [])
    (hl : s.ioMode = .released) (hh : s.rxHold = none) (hc : s.env.card = [])
    (hf : s.env.flood = some f) (hr : f.rate = none) (n : Nat) :
    s.rxChar n = (some (translate s.convention f.frame.data), s) := by
  rw [rxChar_unscripted hs, awaitChar_flood hs hl hh hc hf hr]
  rfl

theorem rxChar_silent {s : State} (hs : s.env.script = []) (hh : s.rxHold = none)
    (hc : s.env.card = []) (hf : s.env.flood = none) (n : Nat) :
    s.rxChar n = (none, s.expire (s.deadlineIn n)) := by
  rw [rxChar_unscripted hs, awaitChar_silent hs hh hc hf]
  rfl

theorem rxChar_held {s : State} {r : Byte} (hs : s.env.script = []) (hh : s.rxHold = some r)
    (n : Nat) : s.rxChar n = (some (translate s.convention r), s.clearHold) := by
  rw [rxChar_unscripted hs, awaitChar_held hs hh]
  rfl

/-! ### A returned character is taken, a timeout means the deadline -/

theorem tailPoll_taken (d : Nat) (fs : List CardFrame) (s : State)
    (h : (tailPoll d fs s).1 ≠ none) : (tailPoll d fs s).2.rxHold = none := by
  induction fs generalizing s with
  | nil =>
    unfold tailPoll at h ⊢
    split
    · simp_all
    · split <;> simp_all
  | cons f fs ih =>
    unfold tailPoll at h ⊢
    split
    · rfl
    · rename_i h0
      rw [h0] at h
      exact ih _ h

theorem lastPolls_taken (d : Nat) (s : State) (h : (s.lastPolls d).1 ≠ none) :
    (s.lastPolls d).2.rxHold = none := by
  unfold State.lastPolls at h ⊢
  split
  · rfl
  · rename_i h0
    rw [h0] at h
    exact tailPoll_taken d _ s h

/-- A character the poll loop returns has been taken from the holding register (R160). -/
theorem pollLoop_taken (d n : Nat) (s : State) (h : (pollLoop d n s).1 ≠ none) :
    (pollLoop d n s).2.rxHold = none := by
  induction n generalizing s with
  | zero => exact lastPolls_taken d s h
  | succ n ih =>
    unfold pollLoop at h ⊢
    split
    · rename_i h1
      rw [h1] at h
      exact lastPolls_taken d s h
    · rename_i h1
      rw [h1] at h
      dsimp only at h
      split
      · rfl
      · rename_i h0
        rw [h0] at h
        dsimp only at h
        split
        · rename_i he
          rw [if_pos he] at h
          exact absurd rfl h
        · rename_i he
          rw [if_neg he] at h
          exact ih _ h

/-- The counter standing at a deadline, the deadline has elapsed. -/
theorem elapsedAt_self {w d : Nat} (hd : d < 2 ^ w) : elapsedAt w d d = true := by
  have h1 : 0 < 2 ^ (w - 1) := Nat.pow_pos (by omega)
  have e : (d + 2 ^ w - d % 2 ^ w) % 2 ^ w = 0 := by
    rw [Nat.mod_eq_of_lt hd, Nat.add_sub_cancel_left, Nat.mod_self]
  simp [elapsedAt, sdiffW, e]

theorem expire_elapsed {s : State} {d : Nat} (hd : d < 2 ^ s.cfg.timerWidth) :
    (s.expire d).elapsed d = true := by
  unfold State.expire
  split
  · assumption
  · exact elapsedAt_self hd

theorem tailPoll_timeout (d : Nat) (fs : List CardFrame) (s : State)
    (hd : d < 2 ^ s.cfg.timerWidth) (h : (tailPoll d fs s).1 = none) :
    (tailPoll d fs s).2.elapsed d = true := by
  induction fs generalizing s with
  | nil =>
    unfold tailPoll at h ⊢
    split
    · exact expire_elapsed hd
    · split
      · simp_all
      · exact expire_elapsed (by simpa using hd)
  | cons f fs ih =>
    unfold tailPoll at h ⊢
    split
    · simp_all
    · rename_i h0
      rw [h0] at h
      exact ih _ (by simpa using hd) h

/-- A poll loop that returns no character has seen its deadline elapse (R160, R193). -/
theorem pollLoop_timeout (d n : Nat) (s : State) (hd : d < 2 ^ s.cfg.timerWidth)
    (h : (pollLoop d n s).1 = none) : (pollLoop d n s).2.elapsed d = true := by
  have last : ∀ u : State, d < 2 ^ u.cfg.timerWidth → (u.lastPolls d).1 = none →
      (u.lastPolls d).2.elapsed d = true := by
    intro u hu k
    unfold State.lastPolls at k ⊢
    split
    · simp_all
    · rename_i h0
      rw [h0] at k
      exact tailPoll_timeout d _ u hu k
  induction n generalizing s with
  | zero => exact last s hd h
  | succ n ih =>
    unfold pollLoop at h ⊢
    split
    · rename_i h1
      rw [h1] at h
      exact last s hd h
    · rename_i h1
      rw [h1] at h
      dsimp only at h
      split
      · simp_all
      · rename_i h0
        rw [h0] at h
        dsimp only at h
        split
        · assumption
        · rename_i he
          rw [if_neg he] at h
          exact ih _ (by simpa using hd) h

end Sys2Proof.Machine
end

