-- ==== Sys2Proof/Laws/EnvInv.lean ====
section
/-! SUPPORT. The part of the invariant that the card and the time base could break, kept by every turn
of the environment, wait and poll loop: the counter's width, no held character while not listening, a
stopped clock low. -/

namespace Sys2Proof.Machine

/-- The invariant's fields about what the environment writes. -/
structure State.EnvOk (s : State) : Prop where
  counter : s.msCounter < 2 ^ s.cfg.timerWidth
  hold : s.listening = false → s.rxHold = none
  clock : s.clkRunning = false → s.clkHigh = false

theorem advance_ok {s : State} (h : s.EnvOk) (n : Nat) : (s.advance n).EnvOk :=
  ⟨Nat.mod_lt _ (Nat.pow_pos (by omega)), h.hold, h.clock⟩

theorem clearHold_ok {s : State} (h : s.EnvOk) : s.clearHold.EnvOk :=
  ⟨h.counter, fun _ => rfl, h.clock⟩

theorem withScript_ok {s : State} (h : s.EnvOk) (l : List (List EnvEvent)) : (s.withScript l).EnvOk :=
  ⟨h.counter, h.hold, h.clock⟩

theorem withCard_ok {s : State} (h : s.EnvOk) (l : List CardFrame) : (s.withCard l).EnvOk :=
  ⟨h.counter, h.hold, h.clock⟩

theorem emit_ok {s : State} (h : s.EnvOk) (e : Event) : (s.emit e).EnvOk :=
  ⟨h.counter, h.hold, h.clock⟩

theorem receive_ok {s : State} (h : s.EnvOk) (c : CardFrame) : (s.receive c).EnvOk := by
  unfold State.receive
  split
  · rename_i hl
    split
    · exact h
    · split
      · exact ⟨h.counter, fun k => by simp [State.listening] at k hl; exact absurd hl k, h.clock⟩
      · exact h
  · exact h

theorem act_ok {s : State} (h : s.EnvOk) (e : EnvEvent) : (s.act e).EnvOk := by
  cases e with
  | ms => exact advance_ok h 1
  | frame f => exact receive_ok h f
  | clk high =>
    simp only [State.act]
    split
    · rename_i hr
      exact ⟨h.counter, h.hold, fun k => by simp [hr] at k⟩
    · exact h

theorem acts_ok (batch : List EnvEvent) {s : State} (h : s.EnvOk) :
    (batch.foldl State.act s).EnvOk := by
  induction batch generalizing s with
  | nil => exact h
  | cons e es ih => exact ih (act_ok h e)

theorem envTurn_ok {s : State} (h : s.EnvOk) : s.envTurn.EnvOk := by
  unfold State.envTurn
  split
  · exact h
  · exact acts_ok _ (withScript_ok h _)

theorem elapse_ok {s : State} (h : s.EnvOk) (n : Nat) : (s.elapse n).EnvOk :=
  advance_ok (envTurn_ok h) _

theorem waitMs_ok {s : State} (h : s.EnvOk) (n : Nat) : (s.waitMs n).EnvOk :=
  elapse_ok (emit_ok h _) _

theorem stopClock_ok {s : State} (h : s.EnvOk) : s.stopClock.EnvOk := by
  have k : State.EnvOk (if s.clkRunning then s.waitClkLow else s) := by
    split
    · have e := envTurn_ok (emit_ok h .clkLowWait)
      exact ⟨e.counter, e.hold, fun _ => rfl⟩
    · exact h
  exact ⟨k.counter, k.hold, fun _ => rfl⟩

theorem txChar_ok {s : State} (h : s.EnvOk) (b : Byte) : (s.txChar b).EnvOk :=
  elapse_ok (emit_ok (elapse_ok (emit_ok h _) _) _) _

theorem txAll_ok (bs : List Byte) {s : State} (h : s.EnvOk) : (s.txAll bs).EnvOk := by
  induction bs generalizing s with
  | nil => exact h
  | cons b bs ih => exact ih (txChar_ok h b)

theorem listen_ok {s : State} (h : s.EnvOk) (on : Bool) : (s.listen on).EnvOk := by
  refine ⟨h.counter, fun k => ?_, h.clock⟩
  simp only [listen_rxHold]
  split
  · rename_i hm
    refine h.hold ?_
    simp only [State.listening, listen_ioMode] at k ⊢
    rw [hm]
    exact k
  · rfl

theorem expire_ok {s : State} (h : s.EnvOk) {d : Nat} (hd : d < 2 ^ s.cfg.timerWidth) :
    (s.expire d).EnvOk := by
  unfold State.expire
  split
  · exact h
  · exact ⟨hd, h.hold, h.clock⟩

theorem tailPoll_ok (d : Nat) (fs : List CardFrame) {s : State} (h : s.EnvOk)
    (hd : d < 2 ^ s.cfg.timerWidth) : (tailPoll d fs s).2.EnvOk := by
  induction fs generalizing s with
  | nil =>
    unfold tailPoll
    split
    · exact expire_ok h hd
    · split
      · exact clearHold_ok (receive_ok h _)
      · exact expire_ok (receive_ok h _) (by simpa using hd)
  | cons f fs ih =>
    have h1 := receive_ok (withCard_ok h fs) f
    unfold tailPoll
    split
    · exact clearHold_ok h1
    · exact ih h1 (by simpa using hd)

theorem lastPolls_ok {s : State} (h : s.EnvOk) {d : Nat} (hd : d < 2 ^ s.cfg.timerWidth) :
    (s.lastPolls d).2.EnvOk := by
  unfold State.lastPolls
  split
  · exact clearHold_ok h
  · exact tailPoll_ok d _ h hd

theorem pollLoop_ok (d n : Nat) {s : State} (h : s.EnvOk) (hd : d < 2 ^ s.cfg.timerWidth) :
    (pollLoop d n s).2.EnvOk := by
  induction n generalizing s with
  | zero => exact lastPolls_ok h hd
  | succ n ih =>
    unfold pollLoop
    split
    · exact lastPolls_ok h hd
    · split
      · exact clearHold_ok (envTurn_ok h)
      · split
        · exact envTurn_ok (envTurn_ok h)
        · exact ih (envTurn_ok (envTurn_ok h)) (by simpa using hd)

theorem awaitChar_ok {s : State} (h : s.EnvOk) {d : Nat} (hd : d < 2 ^ s.cfg.timerWidth) :
    (s.awaitChar d).2.EnvOk :=
  pollLoop_ok d _ h hd

theorem deadlineIn_lt (s : State) (n : Nat) : s.deadlineIn n < 2 ^ s.cfg.timerWidth :=
  Nat.mod_lt _ (Nat.pow_pos (by omega))

theorem rxChar_ok {s : State} (h : s.EnvOk) (n : Nat) : (s.rxChar n).2.EnvOk :=
  awaitChar_ok (envTurn_ok h) (deadlineIn_lt s.envTurn n)

theorem receive_counter (s : State) (c : CardFrame) : (s.receive c).msCounter = s.msCounter := by
  unfold State.receive
  split
  · split
    · rfl
    · split <;> rfl
  · rfl

theorem acts_counter (batch : List EnvEvent) (s : State) :
    (batch.foldl State.act s).msCounter % 2 ^ s.cfg.timerWidth =
      (s.msCounter + batch.countP (· == .ms)) % 2 ^ s.cfg.timerWidth := by
  induction batch generalizing s with
  | nil => rfl
  | cons e es ih =>
    have hk := ih (s.act e)
    rw [act_cfg] at hk
    rw [List.foldl_cons, hk, List.countP_cons]
    cases e with
    | ms => simp [State.act, Nat.add_assoc, Nat.add_comm 1]
    | frame f => simp [State.act, receive_counter]
    | clk b =>
      have e : (s.act (.clk b)).msCounter = s.msCounter := by
        simp only [State.act]; split <;> rfl
      simp [e]

theorem envTurn_counter (s : State) :
    s.envTurn.msCounter % 2 ^ s.cfg.timerWidth =
      (s.msCounter + s.nextTicks) % 2 ^ s.cfg.timerWidth := by
  unfold State.envTurn State.nextTicks
  split
  · rename_i h
    rw [h]
    rfl
  · rename_i batch rest h
    have e := acts_counter batch (s.withScript rest)
    rw [h]
    exact e

/-- A wait of at least `n` counts moves the counter on by `n`, or by what the environment's turn counts if
that is more (R12). -/
theorem elapse_counter (s : State) (n : Nat) :
    (s.elapse n).msCounter = (s.msCounter + max n s.nextTicks) % 2 ^ s.cfg.timerWidth := by
  unfold State.elapse
  rw [advance_msCounter, envTurn_cfg, Nat.add_mod, envTurn_counter, ← Nat.add_mod, Nat.add_assoc]
  congr 2
  omega

end Sys2Proof.Machine
end

