-- ==== Sys2Proof/Laws/Memory.lean ====
section
/-! SUPPORT. The laws of the byte buffers: read after write, and the canonical form. -/

namespace Sys2Proof.Machine

@[simp] theorem Memory.read_nil (i : Nat) : Memory.read [] i = 0#8 := rfl

@[simp] theorem Memory.wf_nil : Memory.wf [] = true := rfl

theorem Memory.wf_cons {k : Nat} {v : Byte} {m : Memory} :
    Memory.wf ((k, v) :: m) = true ↔ v ≠ 0#8 ∧ (∀ c ∈ m, k < c.1) ∧ Memory.wf m = true := by
  simp [Memory.wf, and_assoc]

/-- An index below every listed one reads as unlisted. -/
theorem Memory.read_of_lt {m : Memory} {i : Nat} (h : ∀ c ∈ m, i < c.1) : Memory.read m i = 0#8 := by
  induction m with
  | nil => rfl
  | cons c m ih =>
    obtain ⟨k, v⟩ := c
    have hk : i < k := h (k, v) (by simp)
    have hm := ih fun c hc => h c (by simp [hc])
    simp [Memory.read, Nat.ne_of_gt hk, hm]

/-- The indices a write leaves listed. -/
theorem Memory.keys_write {m : Memory} {i : Nat} {v : Byte} {c : Host.Cell}
    (h : c ∈ Memory.write m i v) : c.1 = i ∨ c ∈ m := by
  induction m with
  | nil =>
    unfold Memory.write at h
    split at h
    · simp at h
    · simp at h; simp [h]
  | cons d m ih =>
    obtain ⟨k, u⟩ := d
    unfold Memory.write at h
    split at h
    · split at h
      · exact .inr h
      · rcases List.mem_cons.1 h with h | h
        · simp [h]
        · exact .inr h
    · split at h
      · split at h
        · exact .inr (by simp [h])
        · rcases List.mem_cons.1 h with h | h
          · simp [h]
          · exact .inr (by simp [h])
      · rcases List.mem_cons.1 h with h | h
        · exact .inr (by simp [h])
        · rcases ih h with h | h
          · exact .inl h
          · exact .inr (by simp [h])

/-- A write keeps the canonical form. -/
theorem Memory.wf_write {m : Memory} (h : Memory.wf m = true) (i : Nat) (v : Byte) :
    Memory.wf (Memory.write m i v) = true := by
  induction m with
  | nil =>
    unfold Memory.write
    split
    · rfl
    · simp [Memory.wf, *]
  | cons d m ih =>
    obtain ⟨k, u⟩ := d
    obtain ⟨hu, hk, hm⟩ := Memory.wf_cons.1 h
    unfold Memory.write
    split
    · split
      · exact h
      · refine Memory.wf_cons.2 ⟨by assumption, ?_, h⟩
        intro c hc
        rcases List.mem_cons.1 hc with rfl | hc
        · assumption
        · have := hk c hc; omega
    · split
      · split
        · exact hm
        · subst_vars
          exact Memory.wf_cons.2 ⟨by assumption, hk, hm⟩
      · refine Memory.wf_cons.2 ⟨hu, ?_, ih hm⟩
        intro c hc
        rcases Memory.keys_write hc with rfl | hc
        · omega
        · exact hk c hc

/-- Read after write at the same index. -/
theorem Memory.read_write_same {m : Memory} (h : Memory.wf m = true) (i : Nat) (v : Byte) :
    Memory.read (Memory.write m i v) i = v := by
  induction m with
  | nil =>
    unfold Memory.write
    split <;> simp [Memory.read, *]
  | cons d m ih =>
    obtain ⟨k, u⟩ := d
    obtain ⟨_, hk, hm⟩ := Memory.wf_cons.1 h
    unfold Memory.write
    split
    · split
      · rename_i hik hv
        rw [hv]
        refine Memory.read_of_lt fun c hc => ?_
        rcases List.mem_cons.1 hc with rfl | hc
        · exact hik
        · exact Nat.lt_trans hik (hk c hc)
      · simp [Memory.read]
    · split
      · split
        · rename_i hi hv
          rw [hv, hi]
          exact Memory.read_of_lt hk
        · simp [Memory.read]
      · rename_i _ hne
        simp [Memory.read, Ne.symm hne, ih hm]

/-- A write leaves every other index alone. -/
theorem Memory.read_write_other (m : Memory) {i j : Nat} (hij : j ≠ i) (v : Byte) :
    Memory.read (Memory.write m i v) j = Memory.read m j := by
  induction m with
  | nil =>
    unfold Memory.write
    split <;> simp [Memory.read, Ne.symm hij]
  | cons d m ih =>
    obtain ⟨k, u⟩ := d
    unfold Memory.write
    split
    · split
      · rfl
      · simp [Memory.read, Ne.symm hij]
    · split
      · rename_i _ hik
        split <;> simp [Memory.read, ← hik, Ne.symm hij]
      · simp only [Memory.read, ih]

/-- A write shows at its index only, whatever is read. -/
theorem Memory.read_write {m : Memory} (h : Memory.wf m = true) (i j : Nat) (v : Byte) :
    Memory.read (Memory.write m i v) j = if j = i then v else Memory.read m j := by
  split
  · subst_vars; exact Memory.read_write_same h _ v
  · exact Memory.read_write_other m (by assumption) v

theorem Memory.wf_ofBytes (bytes : List Byte) (i : Nat) : Memory.wf (Memory.ofBytes i bytes) = true := by
  induction bytes generalizing i with
  | nil => rfl
  | cons b bs ih => exact Memory.wf_write (ih _) _ _

/-- The buffer a host names reads as the bytes it gives, and 0x00 beyond them. -/
theorem Memory.read_ofBytes (bytes : List Byte) (i j : Nat) :
    Memory.read (Memory.ofBytes i bytes) (i + j) = bytes.getD j 0#8 := by
  induction bytes generalizing i j with
  | nil => rfl
  | cons b bs ih =>
    rw [Memory.ofBytes, Memory.read_write (Memory.wf_ofBytes _ _)]
    cases j with
    | zero => simp
    | succ j =>
      have e : i + (j + 1) = i + 1 + j := by omega
      rw [if_neg (by omega), e, ih]
      simp

end Sys2Proof.Machine
end

