-- ==== Sys2Proof/Laws/Apdu.lean ====
section
/-! SUPPORT. SEND_APDU: what a step of the sequencer can do, that it never leaves the buffer, and that
with a card that falls silent it comes to its end. -/

namespace Sys2Proof.Machine

/-- `t` differs from `s` at most in what SEND_APDU writes: the line, the buffer, its registers, what the
environment writes, and more events at the end of the trace. -/
structure State.SameButApdu (s t : State) : Prop where
  frame : t = { s with ioMode := t.ioMode, rxHold := t.rxHold, msCounter := t.msCounter,
                       clkHigh := t.clkHigh, env := t.env, buffer := t.buffer, apdu := t.apdu,
                       trace := t.trace }
  trace : s.trace <+: t.trace
  request : t.apdu = { s.apdu with count := t.apdu.count, proc := t.apdu.proc, step := t.apdu.step }
  /-- A Send never writes the buffer. -/
  send : s.apdu.dir = .send → t.buffer = s.buffer
  count : s.apdu.count ≤ t.apdu.count
  /-- No index from `count` on is written. -/
  above : ∀ a, t.apdu.count ≤ a → Memory.read t.buffer a = Memory.read s.buffer a
  wf : Memory.wf s.buffer = true → Memory.wf t.buffer = true

theorem State.SameButApdu.refl (s : State) : s.SameButApdu s :=
  ⟨rfl, List.prefix_refl _, rfl, fun _ => rfl, Nat.le_refl _, fun _ _ => rfl, id⟩

theorem State.SameButApdu.trans {s t u : State} (h : s.SameButApdu t) (k : t.SameButApdu u) :
    s.SameButApdu u where
  frame := by rw [k.frame, h.frame]
  trace := h.trace.trans k.trace
  request := by rw [k.request, h.request]
  send hd := by
    rw [k.send (by rw [h.request]; exact hd), h.send hd]
  count := Nat.le_trans h.count k.count
  above a ha := by rw [k.above a ha, h.above a (Nat.le_trans k.count ha)]
  wf hw := k.wf (h.wf hw)

theorem State.SameButEnv.toApdu {s t : State} (h : s.SameButEnv t) : s.SameButApdu t where
  frame := by unfold State.SameButEnv at h; rw [h]
  trace := by rw [h.trace]
  request := by rw [h.apdu]
  send _ := h.buffer
  count := by rw [h.apdu]
  above _ _ := by rw [h.buffer]
  wf hw := by rw [h.buffer]; exact hw

theorem listen_sameButApdu (s : State) (on : Bool) : s.SameButApdu (s.listen on) :=
  ⟨rfl, List.prefix_append _ _, rfl, fun _ => rfl, Nat.le_refl _, fun _ _ => rfl, id⟩

theorem toStep_sameButApdu (s : State) (st : ApduStep) : s.SameButApdu (s.toStep st) :=
  ⟨rfl, List.prefix_refl _, rfl, fun _ => rfl, Nat.le_refl _, fun _ _ => rfl, id⟩

theorem txAll_sameButApdu (bs : List Byte) (s : State) : s.SameButApdu (s.txAll bs) := by
  have h := txAll_same bs s
  have h1 : s.SameButApdu { s with trace := s.trace ++ bs.flatMap s.txEvents } :=
    ⟨rfl, List.prefix_append _ _, rfl, fun _ => rfl, Nat.le_refl _, fun _ _ => rfl, id⟩
  exact h1.trans h.toApdu

theorem rxChar_sameButApdu (s : State) (n : Nat) : s.SameButApdu (s.rxChar n).2 :=
  (rxChar_same s n).toApdu

/-! ### The transfers -/

/-- A Send transfer within the buffer: the bytes go out in order, `count` moves on (R266). -/
theorem sendBytes_eq (n : Nat) (s : State) (h : s.apdu.count + n ≤ s.apdu.cap) :
    ∃ t, sendBytes n s = .ok t ∧
      State.SameButEnv { s with
        apdu := { s.apdu with count := s.apdu.count + n },
        trace := s.trace ++ ((List.range n).map fun i =>
          Memory.read s.buffer (s.apdu.count + i)).flatMap s.txEvents } t := by
  induction n generalizing s with
  | zero => exact ⟨s, rfl, by simp [State.SameButEnv]⟩
  | succ n ih =>
    have hm : memRead .apdu s.apdu.cap s.buffer s.apdu.count =
        .ok (Memory.read s.buffer s.apdu.count) := by
      unfold memRead
      rw [if_pos (by omega)]
    have h1 := txChar_same s (Memory.read s.buffer s.apdu.count)
    have ha : (s.txChar (Memory.read s.buffer s.apdu.count)).apdu = s.apdu := h1.apdu
    unfold sendBytes
    rw [hm]
    dsimp only
    obtain ⟨t, e, k⟩ := ih { s.txChar (Memory.read s.buffer s.apdu.count) with
      apdu := { (s.txChar (Memory.read s.buffer s.apdu.count)).apdu with
        count := (s.txChar (Memory.read s.buffer s.apdu.count)).apdu.count + 1 } }
      (by dsimp only; rw [ha]; omega)
    refine ⟨t, e, ?_⟩
    unfold State.SameButEnv at h1 k ⊢
    rw [k, h1]
    simp [List.range_succ_eq_map, List.flatMap_cons, List.flatMap_map, Function.comp_def,
      Nat.add_assoc, Nat.add_comm 1, State.txEvents]

theorem sendBytes_ok (n : Nat) (s : State) (h : s.apdu.count + n ≤ s.apdu.cap) :
    ∃ t, sendBytes n s = .ok t ∧ s.SameButApdu t ∧ t.apdu.count = s.apdu.count + n ∧
      t.apdu.step = s.apdu.step := by
  obtain ⟨t, e, k⟩ := sendBytes_eq n s h
  refine ⟨t, e, ?_, by rw [k.apdu], by rw [k.apdu]⟩
  have h1 : s.SameButApdu { s with
      apdu := { s.apdu with count := s.apdu.count + n },
      trace := s.trace ++ ((List.range n).map fun i =>
        Memory.read s.buffer (s.apdu.count + i)).flatMap s.txEvents } :=
    ⟨rfl, List.prefix_append _ _, rfl, fun _ => rfl, Nat.le_add_right _ _, fun _ _ => rfl, id⟩
  exact h1.trans k.toApdu

/-- A Receive transfer within the buffer (R266, R268). -/
theorem receiveBytes_ok (n : Nat) (s : State) (h : s.apdu.count + n ≤ s.apdu.cap)
    (hd : s.apdu.dir = .receive) :
    ∃ b t, receiveBytes n s = .ok (b, t) ∧ s.SameButApdu t ∧ t.ioMode = s.ioMode ∧
      t.trace = s.trace ∧ t.apdu.step = s.apdu.step ∧ t.apdu.proc = s.apdu.proc ∧
      t.apdu.count ≤ s.apdu.count + n ∧ (b = true → t.apdu.count = s.apdu.count + n) := by
  induction n generalizing s with
  | zero => exact ⟨true, s, rfl, State.SameButApdu.refl s, rfl, rfl, rfl, rfl, by omega, by omega⟩
  | succ n ih =>
    have h1 := rxChar_same s s.apdu.timeoutMs
    unfold receiveBytes
    cases hr : s.rxChar s.apdu.timeoutMs with
    | mk o s1 =>
      rw [hr] at h1
      have ha : s1.apdu = s.apdu := h1.apdu
      have hb : s1.buffer = s.buffer := h1.buffer
      cases o with
      | none =>
        exact ⟨false, s1, rfl, h1.toApdu, h1.ioMode, h1.trace, by rw [ha], by rw [ha],
          by rw [ha]; omega, by simp⟩
      | some d =>
        have hm : memWrite .apdu s1.apdu.cap s1.buffer s1.apdu.count d =
            .ok (Memory.write s1.buffer s1.apdu.count d) := by
          unfold memWrite
          rw [if_pos (by rw [ha]; omega)]
        dsimp only
        rw [hm]
        dsimp only
        have h2 : s.SameButApdu { s1 with
            buffer := Memory.write s1.buffer s1.apdu.count d,
            apdu := { s1.apdu with count := s1.apdu.count + 1 } } := by
          refine h1.toApdu.trans ⟨rfl, List.prefix_refl _, rfl, fun k => ?_, Nat.le_succ _,
            fun a k => ?_, fun k => Memory.wf_write k _ _⟩
          · rw [ha, hd] at k; simp at k
          · exact Memory.read_write_other _ (by dsimp only at k; omega) _
        obtain ⟨b, t, e, k1, k2, k3, k4, k5, k6, k7⟩ := ih { s1 with
            buffer := Memory.write s1.buffer s1.apdu.count d,
            apdu := { s1.apdu with count := s1.apdu.count + 1 } }
          (by dsimp only; rw [ha]; omega) (by dsimp only; rw [ha]; exact hd)
        dsimp only at k2 k3 k4 k5 k6 k7
        rw [ha] at k4 k5 k6 k7
        exact ⟨b, t, e, h2.trans k1, by rw [k2, h1.ioMode], by rw [k3, h1.trace], k4, k5,
          by omega, fun hb => by rw [k7 hb]; omega⟩

/-- A granted transfer within the buffer, from a listening block (R266). -/
theorem transfer_ok (s : State) (n : Nat) (h : s.apdu.count + n ≤ s.apdu.cap)
    (hl : s.ioMode = .released) :
    ∃ b t, s.transfer n = .ok (b, t) ∧ s.SameButApdu t ∧ t.ioMode = .released ∧
      t.apdu.step = s.apdu.step ∧ t.apdu.count ≤ s.apdu.count + n ∧
      (b = true → t.apdu.count = s.apdu.count + n) ∧ (b = false → s.apdu.dir = .receive) := by
  unfold State.transfer
  cases hd : s.apdu.dir with
  | send =>
    obtain ⟨t, e, k1, k2, k3⟩ := sendBytes_ok n (s.listen false) h
    dsimp only
    rw [e]
    exact ⟨true, t.listen true, rfl,
      ((listen_sameButApdu s false).trans k1).trans (listen_sameButApdu t true), rfl, k3,
      Nat.le_of_eq k2, fun _ => k2, by simp⟩
  | receive =>
    obtain ⟨b, t, e, k1, k2, -, k4, -, k6, k7⟩ := receiveBytes_ok n s h hd
    exact ⟨b, t, e, k1, k2.trans hl, k4, k6, k7, fun _ => rfl⟩

/-- The status of a receive timeout never leaves the buffer (R262). -/
theorem rxTimeoutStatus_ok (s : State) (h : s.apdu.count ≤ s.apdu.cap) :
    ∃ sw, s.rxTimeoutStatus = .ok sw := by
  unfold State.rxTimeoutStatus memRead
  split
  · rename_i hc
    have hc := hc.2
    rw [if_pos (by omega), if_pos (by omega)]
    exact ⟨_, rfl⟩
  · exact ⟨_, rfl⟩

/-! ### The sequencer -/

/-- What holds at every step of the sequencer: the counts stay within the request, and from the header on
the block listens. -/
structure State.ApduOk (s : State) : Prop where
  cap : s.apdu.p3.toNat ≤ s.apdu.cap
  count : s.apdu.count ≤ s.apdu.p3.toNat
  proc : s.apdu.step = .proc → s.apdu.count < s.apdu.p3.toNat
  xfer : ∀ n, s.apdu.step = .xfer n → 1 ≤ n ∧ s.apdu.count + n ≤ s.apdu.p3.toNat
  listening : s.apdu.step ≠ .header → s.ioMode = .released

theorem loopTest_ok {s : State} (h1 : s.apdu.p3.toNat ≤ s.apdu.cap)
    (h2 : s.apdu.count ≤ s.apdu.p3.toNat) (h3 : s.ioMode = .released) : s.loopTest.ApduOk where
  cap := h1
  count := h2
  proc h := by
    unfold State.loopTest State.toStep at h ⊢
    dsimp only at h ⊢
    split at h
    · assumption
    · simp at h
  xfer n h := by
    unfold State.loopTest State.toStep at h
    dsimp only at h
    split at h <;> simp at h
  listening _ := h3

theorem done_ok {s : State} (h1 : s.apdu.p3.toNat ≤ s.apdu.cap)
    (h2 : s.apdu.count ≤ s.apdu.p3.toNat) (h3 : s.ioMode = .released) (sw : StatusWord) :
    (s.toStep (.done sw)).ApduOk :=
  ⟨h1, h2, by simp [State.toStep], by simp [State.toStep], fun _ => h3⟩

/-- How far the sequencer is from its end, if the card has `s.left` left to send (R267). -/
def State.apduRank (s : State) : Nat :=
  match s.apdu.step with
  | .done _ => 0
  | .sw2 _ => 1
  | .final => 2
  | .proc => 2 * (s.left + (s.apdu.p3.toNat - s.apdu.count)) + 3
  | .xfer _ => 2 * (s.left + (s.apdu.p3.toNat - s.apdu.count)) + 4
  | .header => 2 * (s.left + (s.apdu.p3.toNat - s.apdu.count)) + 5

/-- A card that falls silent stays one, and no more of it is left. -/
def State.Quieter (s t : State) : Prop :=
  s.env.flood = none → t.env.flood = none ∧ t.left ≤ s.left

theorem State.Quieter.trans {s t u : State} (h : s.Quieter t) (k : t.Quieter u) : s.Quieter u :=
  fun hf => ⟨(k (h hf).1).1, Nat.le_trans (k (h hf).1).2 (h hf).2⟩

theorem quieter_of_eq {s t : State} (h1 : t.env = s.env) (h2 : t.rxHold = s.rxHold) : s.Quieter t := by
  intro hf
  unfold State.left
  rw [h1, h2]
  exact ⟨hf, Nat.le_refl _⟩

theorem elapse_quieter (s : State) (n : Nat) : s.Quieter (s.elapse n) := by
  intro hf
  have h : (s.elapse n).left = s.envTurn.left := rfl
  rw [elapse_env, h]
  exact ⟨hf, (left_envTurn s).1⟩

theorem txChar_quieter (s : State) (b : Byte) : s.Quieter (s.txChar b) := by
  have h1 : s.Quieter (s.waitUs (Config.guardUnitUs * s.cfg.guardFactor)) :=
    State.Quieter.trans (t := s.emit _) (quieter_of_eq rfl rfl) (elapse_quieter _ _)
  have h2 : ∀ (u : State) r p, u.Quieter (u.lineTx r p) := fun u r p =>
    State.Quieter.trans (t := u.emit _) (quieter_of_eq rfl rfl) (elapse_quieter _ _)
  exact h1.trans (h2 _ _ _)

theorem txAll_quieter (bs : List Byte) (s : State) : s.Quieter (s.txAll bs) := by
  induction bs generalizing s with
  | nil => exact quieter_of_eq rfl rfl
  | cons b bs ih => exact (txChar_quieter s b).trans (ih _)

theorem listen_quieter (s : State) (on : Bool) : s.Quieter (s.listen on) := by
  intro hf
  refine ⟨hf, ?_⟩
  unfold State.left
  rw [listen_env, listen_rxHold]
  by_cases hm : s.ioMode = ioModeFor on
  · rw [if_pos hm]
  · rw [if_neg hm, if_pos rfl]
    exact Nat.le_add_right _ _

theorem rxChar_quieter (s : State) (n : Nat) : s.Quieter (s.rxChar n).2 :=
  fun hf => ⟨(left_rxChar n s hf).1, (left_rxChar n s hf).2.2⟩

theorem sendBytes_quieter (n : Nat) (s t : State) (h : sendBytes n s = .ok t) : s.Quieter t := by
  induction n generalizing s with
  | zero => cases h; exact quieter_of_eq rfl rfl
  | succ n ih =>
    unfold sendBytes at h
    split at h
    · simp at h
    · rename_i b _
      have h1 := ih _ h
      exact (txChar_quieter s b).trans (State.Quieter.trans (quieter_of_eq rfl rfl) h1)

theorem receiveBytes_quieter (n : Nat) (s t : State) (b : Bool) (h : receiveBytes n s = .ok (b, t)) :
    s.Quieter t := by
  induction n generalizing s with
  | zero => cases h; exact quieter_of_eq rfl rfl
  | succ n ih =>
    unfold receiveBytes at h
    have h1 := rxChar_quieter s s.apdu.timeoutMs
    cases hr : s.rxChar s.apdu.timeoutMs with
    | mk o s1 =>
      rw [hr] at h h1
      cases o with
      | none => cases h; exact h1
      | some d =>
        dsimp only at h
        split at h
        · simp at h
        · have h2 := ih _ h
          exact h1.trans (State.Quieter.trans (quieter_of_eq rfl rfl) h2)

theorem transfer_quieter (s t : State) (n : Nat) (b : Bool) (h : s.transfer n = .ok (b, t)) :
    s.Quieter t := by
  unfold State.transfer at h
  split at h
  · split at h
    · rename_i s1 h1
      cases h
      exact ((listen_quieter s false).trans (sendBytes_quieter _ _ _ h1)).trans (listen_quieter s1 true)
    · simp at h
  · exact receiveBytes_quieter _ _ _ _ h

theorem sendHeader_quieter (s : State) : s.Quieter s.sendHeader :=
  ((listen_quieter s false).trans (txAll_quieter _ _)).trans (listen_quieter _ true)

theorem sendHeader_sameButApdu (s : State) : s.SameButApdu s.sendHeader :=
  ((listen_sameButApdu s false).trans (txAll_sameButApdu _ _)).trans (listen_sameButApdu _ true)

theorem sendHeader_apdu (s : State) : s.sendHeader.apdu = s.apdu :=
  (txAll_same s.apdu.header (s.listen false)).apdu

theorem loopTest_sameButApdu (s : State) : s.SameButApdu s.loopTest := toStep_sameButApdu s _

theorem loopTest_rank (s : State) :
    s.loopTest.apduRank ≤ 2 * (s.left + (s.apdu.p3.toNat - s.apdu.count)) + 3 := by
  unfold State.loopTest State.toStep State.apduRank
  dsimp only
  split
  · simp
  · simp
  · omega
  · exact Nat.le_refl _
  · split at * <;> simp_all
  · split at * <;> simp_all

/-- One step of the sequencer: no fault, `ApduOk` again, nothing written but what SEND_APDU may write;
and with a card that falls silent it comes nearer to its end. -/
theorem apduStep_ok (s : State) (h : s.ApduOk) :
    ∃ t, s.apduStep = .ok t ∧ t.ApduOk ∧ s.SameButApdu t ∧ (s.env.flood = none →
      t.env.flood = none ∧ ((∀ sw, s.apdu.step ≠ .done sw) → t.apduRank < s.apduRank)) := by
  unfold State.apduStep
  cases hs : s.apdu.step with
  | header =>
    have ha := sendHeader_apdu s
    refine ⟨_, rfl, loopTest_ok (by rw [ha]; exact h.cap) (by rw [ha]; exact h.count) rfl,
      (sendHeader_sameButApdu s).trans (loopTest_sameButApdu _), fun hf => ?_⟩
    have hq := sendHeader_quieter s hf
    refine ⟨hq.1, fun _ => ?_⟩
    have hr := loopTest_rank s.sendHeader
    rw [ha] at hr
    have : s.apduRank = 2 * (s.left + (s.apdu.p3.toNat - s.apdu.count)) + 5 := by
      unfold State.apduRank; rw [hs]
    have := hq.2
    omega
  | proc =>
    have hl := h.listening (by simp [hs])
    have hp := h.proc hs
    have h1 := rxChar_same s s.apdu.timeoutMs
    have hlf := fun hf => left_rxChar s.apdu.timeoutMs s hf
    have hrk : s.apduRank = 2 * (s.left + (s.apdu.p3.toNat - s.apdu.count)) + 3 := by
      unfold State.apduRank; rw [hs]
    dsimp only
    unfold State.procStep
    cases hr : s.rxChar s.apdu.timeoutMs with
    | mk o s1 =>
      rw [hr] at h1 hlf
      have ha : s1.apdu = s.apdu := h1.apdu
      have hl1 : s1.ioMode = .released := by rw [h1.ioMode]; exact hl
      cases o with
      | none =>
        refine ⟨_, rfl, done_ok (by rw [ha]; exact h.cap) (by rw [ha]; exact h.count) hl1 _,
          h1.toApdu.trans (toStep_sameButApdu _ _), fun hf => ⟨(hlf hf).1, fun _ => ?_⟩⟩
        rw [hrk]
        simp [State.apduRank, State.toStep]
      | some pb =>
        dsimp only
        have hk : s.SameButApdu { s1 with apdu := { s1.apdu with proc := some pb } } :=
          h1.toApdu.trans ⟨rfl, List.prefix_refl _, rfl, fun _ => rfl, Nat.le_refl _,
            fun _ _ => rfl, id⟩
        have hless : s.env.flood = none → s1.left + 1 ≤ s.left := fun hf => (hlf hf).2.1 (by simp)
        have hfl : s.env.flood = none → s1.env.flood = none := fun hf => (hlf hf).1
        unfold State.dispatchProc
        dsimp only
        split
        · refine ⟨_, rfl, ⟨by simp only [State.toStep, ha]; exact h.cap,
            by simp only [State.toStep, ha]; exact h.count, by simp [State.toStep], ?_, fun _ => hl1⟩,
            hk.trans (toStep_sameButApdu _ _), fun hf => ⟨hfl hf, fun _ => ?_⟩⟩
          · intro n hn
            simp only [State.toStep, ApduStep.xfer.injEq] at hn ⊢
            rw [ha]; omega
          · have e : State.left (State.toStep { s1 with apdu := { s1.apdu with proc := some pb } }
                (.xfer 1)) = s1.left := rfl
            have := hless hf
            rw [hrk]
            unfold State.apduRank
            rw [e]
            simp only [State.toStep, ha]
            omega
        · refine ⟨_, rfl, ⟨by simp only [State.toStep, ha]; exact h.cap,
            by simp only [State.toStep, ha]; exact h.count, by simp [State.toStep], ?_, fun _ => hl1⟩,
            hk.trans (toStep_sameButApdu _ _), fun hf => ⟨hfl hf, fun _ => ?_⟩⟩
          · intro n hn
            simp only [State.toStep, ApduStep.xfer.injEq] at hn ⊢
            rw [ha] at hn ⊢; omega
          · have e : State.left (State.toStep { s1 with apdu := { s1.apdu with proc := some pb } }
                (.xfer (s1.apdu.p3.toNat - s1.apdu.count))) = s1.left := rfl
            have := hless hf
            rw [hrk]
            unfold State.apduRank
            rw [e]
            simp only [State.toStep, ha]
            omega
        · refine ⟨_, rfl, ⟨by dsimp only; rw [ha]; exact h.cap, by dsimp only; rw [ha]; exact h.count,
              by dsimp only; rw [ha]; exact h.proc, by dsimp only; rw [ha]; exact h.xfer,
              fun _ => hl1⟩, hk, fun hf => ⟨hfl hf, fun _ => ?_⟩⟩
          have e : State.left { s1 with apdu := { s1.apdu with proc := some pb } } = s1.left := rfl
          have := hless hf
          rw [hrk]
          unfold State.apduRank
          rw [e]
          simp only [ha, hs]
          omega
        · refine ⟨_, rfl, ⟨by simp only [State.toStep, ha]; exact h.cap,
              by simp only [State.toStep, ha]; exact h.count, by simp [State.toStep],
              by simp [State.toStep], fun _ => hl1⟩,
              hk.trans (toStep_sameButApdu _ _), fun hf => ⟨hfl hf, fun _ => ?_⟩⟩
          rw [hrk]
          simp only [State.apduRank, State.toStep]
          omega
        · refine ⟨_, rfl, ⟨by dsimp only; rw [ha]; exact h.cap, by dsimp only; rw [ha]; exact h.count,
              by dsimp only; rw [ha]; exact h.proc, by dsimp only; rw [ha]; exact h.xfer,
              fun _ => hl1⟩, hk, fun hf => ⟨hfl hf, fun _ => ?_⟩⟩
          have e : State.left { s1 with apdu := { s1.apdu with proc := some pb } } = s1.left := rfl
          have := hless hf
          rw [hrk]
          unfold State.apduRank
          rw [e]
          simp only [ha, hs]
          omega
  | xfer n =>
    have hl := h.listening (by simp [hs])
    obtain ⟨hn, hc⟩ := h.xfer n hs
    have hcap := h.cap
    obtain ⟨b, t, e, k1, k2, k3, k4, k5, -⟩ := transfer_ok s n (by omega) hl
    have hq := transfer_quieter s t n b e
    have hp3 : t.apdu.p3 = s.apdu.p3 := by rw [k1.request]
    have hcp : t.apdu.cap = s.apdu.cap := by rw [k1.request]
    have hrk : s.apduRank = 2 * (s.left + (s.apdu.p3.toNat - s.apdu.count)) + 4 := by
      unfold State.apduRank; rw [hs]
    dsimp only
    unfold State.xferStep
    rw [e]
    cases b with
    | true =>
      have k5 := k5 rfl
      refine ⟨_, rfl, loopTest_ok (by rw [hp3, hcp]; exact hcap) (by rw [hp3]; omega) k2,
        k1.trans (loopTest_sameButApdu t), fun hf => ⟨(hq hf).1, fun _ => ?_⟩⟩
      have hr := loopTest_rank t
      have := (hq hf).2
      rw [hp3] at hr
      omega
    | false =>
      obtain ⟨sw, e2⟩ := rxTimeoutStatus_ok t (by rw [hcp]; omega)
      dsimp only
      rw [e2]
      refine ⟨_, rfl, done_ok (by rw [hp3, hcp]; exact hcap) (by rw [hp3]; omega) k2 sw,
        k1.trans (toStep_sameButApdu t _), fun hf => ⟨(hq hf).1, fun _ => ?_⟩⟩
      rw [hrk]
      simp [State.apduRank, State.toStep]
  | sw2 sw1 =>
    have hl := h.listening (by simp [hs])
    have h1 := rxChar_same s s.apdu.timeoutMs
    have hlf := fun hf => left_rxChar s.apdu.timeoutMs s hf
    have hrk : s.apduRank = 1 := by unfold State.apduRank; rw [hs]
    dsimp only
    unfold State.sw2Step
    cases hr : s.rxChar s.apdu.timeoutMs with
    | mk o s1 =>
      rw [hr] at h1 hlf
      have ha : s1.apdu = s.apdu := h1.apdu
      have hl1 : s1.ioMode = .released := by rw [h1.ioMode]; exact hl
      cases o <;>
        exact ⟨_, rfl, done_ok (by rw [ha]; exact h.cap) (by rw [ha]; exact h.count) hl1 _,
          h1.toApdu.trans (toStep_sameButApdu _ _), fun hf => ⟨(hlf hf).1, fun _ => by
            rw [hrk]; simp [State.apduRank, State.toStep]⟩⟩
  | final =>
    have hl := h.listening (by simp [hs])
    have h1 := rxChar_same s s.apdu.timeoutMs
    have hlf := fun hf => left_rxChar s.apdu.timeoutMs s hf
    have hrk : s.apduRank = 2 := by unfold State.apduRank; rw [hs]
    dsimp only
    unfold State.finalStep
    cases hr : s.rxChar s.apdu.timeoutMs with
    | mk o s1 =>
      rw [hr] at h1 hlf
      have ha : s1.apdu = s.apdu := h1.apdu
      have hl1 : s1.ioMode = .released := by rw [h1.ioMode]; exact hl
      cases o with
      | none =>
        exact ⟨_, rfl, done_ok (by rw [ha]; exact h.cap) (by rw [ha]; exact h.count) hl1 _,
          h1.toApdu.trans (toStep_sameButApdu _ _), fun hf => ⟨(hlf hf).1, fun _ => by
            rw [hrk]; simp [State.apduRank, State.toStep]⟩⟩
      | some sw1 =>
        exact ⟨_, rfl, ⟨by simp only [State.toStep, ha]; exact h.cap,
          by simp only [State.toStep, ha]; exact h.count, by simp [State.toStep],
          by simp [State.toStep], fun _ => hl1⟩,
          h1.toApdu.trans (toStep_sameButApdu _ _), fun hf => ⟨(hlf hf).1, fun _ => by
            rw [hrk]; simp [State.apduRank, State.toStep]⟩⟩
  | done sw => exact ⟨s, rfl, h, State.SameButApdu.refl s, fun hf => ⟨hf, fun k => absurd rfl (k sw)⟩⟩

/-- One step of a run that is not at its end. -/
theorem apduRun_succ {s t : State} (n : Nat) (h : ∀ sw, s.apdu.step ≠ .done sw)
    (e : s.apduStep = .ok t) : apduRun (n + 1) s = apduRun n t := by
  rw [apduRun]
  split
  · rename_i sw hs
    exact absurd hs (h sw)
  · rw [e]

theorem apduRun_done {s : State} {sw : StatusWord} (n : Nat) (h : s.apdu.step = .done sw) :
    apduRun (n + 1) s = s.apduFinish sw := by
  rw [apduRun, h]

/-- A run of the sequencer ends with a status word, or runs out of steps; a property the steps keep holds
at its end, and with a card that falls silent `apduRank` steps are enough. -/
theorem apduRun_ok {P : State → Prop} (hP : ∀ u v, P u → u.apduStep = .ok v → P v) (n : Nat)
    (s : State) (h : s.ApduOk) (hs : P s) :
    (∃ t sw, s.SameButApdu t ∧ t.ApduOk ∧ P t ∧ t.apdu.step = .done sw ∧
      apduRun n s = t.apduFinish sw) ∨
    (apduRun n s = .fault .commandNeverEnds ∧ (s.env.flood = none → n ≤ s.apduRank)) := by
  induction n generalizing s with
  | zero => exact .inr ⟨rfl, fun _ => Nat.zero_le _⟩
  | succ n ih =>
    by_cases hd : ∃ sw, s.apdu.step = .done sw
    · obtain ⟨sw, hd⟩ := hd
      exact .inl ⟨s, sw, State.SameButApdu.refl s, h, hs, hd, apduRun_done n hd⟩
    · have hd : ∀ sw, s.apdu.step ≠ .done sw := fun sw k => hd ⟨sw, k⟩
      obtain ⟨t, e, k1, k2, k3⟩ := apduStep_ok s h
      rw [apduRun_succ n hd e]
      rcases ih t k1 (hP s t hs e) with ⟨u, sw, m1, m2, m3, m4, m5⟩ | ⟨m1, m2⟩
      · exact .inl ⟨u, sw, k2.trans m1, m2, m3, m4, m5⟩
      · refine .inr ⟨m1, fun hf => ?_⟩
        have h1 := k3 hf
        have h2 := h1.2 hd
        have h3 := m2 h1.1
        omega

/-- The state in which SEND_APDU enters its sequencer. -/
def State.apduStart (s : State) (timeoutMs : Nat) (cla ins p1 p2 p3 : Byte) (dir : Dir) (cap : Nat) :
    State :=
  { s with apdu := { timeoutMs := timeoutMs, cla := cla, ins := ins, p1 := p1, p2 := p2, p3 := p3,
                     dir := dir, cap := cap, count := 0, proc := none, step := .header } }

/-- SEND_APDU past its checks is a run of the sequencer. -/
theorem sendApdu_eq {timeoutMs : Nat} {cla ins p1 p2 p3 : Byte} {dir : Dir} {cap : Nat} {s : State}
    (h1 : s.sessionValid = true) (h2 : s.admits timeoutMs = true) (h3 : p3.toNat ≤ cap) :
    execSendApdu timeoutMs cla ins p1 p2 p3 dir cap s =
      apduRun (s.apduFuel p3) (s.apduStart timeoutMs cla ins p1 p2 p3 dir cap) := by
  simp only [execSendApdu, State.withSession, h1, State.withTimeout, h2, if_true,
    if_neg (Nat.not_lt.2 h3), State.apduStart]

theorem apduStart_ok {timeoutMs : Nat} {cla ins p1 p2 p3 : Byte} {dir : Dir} {cap : Nat} (s : State)
    (h : p3.toNat ≤ cap) : (s.apduStart timeoutMs cla ins p1 p2 p3 dir cap).ApduOk :=
  ⟨h, Nat.zero_le _, by simp [State.apduStart], by simp [State.apduStart],
    by simp [State.apduStart]⟩

/-- `apduFuel` is more than the rank of the start, for a card that falls silent. -/
theorem apduStart_rank (timeoutMs : Nat) (cla ins p1 p2 p3 : Byte) (dir : Dir) (cap : Nat) (s : State) :
    (s.apduStart timeoutMs cla ins p1 p2 p3 dir cap).apduRank < s.apduFuel p3 := by
  have h := left_le s
  have e : (s.apduStart timeoutMs cla ins p1 p2 p3 dir cap).apduRank =
      2 * (s.left + p3.toNat) + 5 := rfl
  rw [e]
  unfold State.apduFuel
  omega

/-! ### Runs without a script -/

theorem elapse_unscripted {s : State} (h : s.env.script = []) (n : Nat) : s.elapse n = s.advance n := by
  have e : s.nextTicks = 0 := by
    unfold State.nextTicks
    rw [h]
    rfl
  unfold State.elapse
  rw [envTurn_unscripted h, e, Nat.sub_zero]

theorem txAll_env (bs : List Byte) {s : State} (h : s.env.script = []) : (s.txAll bs).env = s.env := by
  induction bs generalizing s with
  | nil => rfl
  | cons b bs ih =>
    have e : (s.txChar b).env = s.env := by
      rw [txChar_env, h, List.tail_nil, List.tail_nil, ← h]
    rw [State.txAll, ih (by rw [e]; exact h), e]

theorem sendBytes_env (n : Nat) {s t : State} (h : s.env.script = []) (e : sendBytes n s = .ok t) :
    t.env = s.env := by
  induction n generalizing s with
  | zero => cases e; rfl
  | succ n ih =>
    unfold sendBytes at e
    split at e
    · simp at e
    · rename_i b _
      have k : (s.txChar b).env = s.env := by
        rw [txChar_env, h, List.tail_nil, List.tail_nil, ← h]
      have m := ih (by dsimp only; rw [k]; exact h) e
      rw [m]
      exact k

/-- The header is sent, the line released and nothing is held, whatever the mode was before (R253,
R254). -/
theorem sendHeader_facts (s : State) :
    s.sendHeader.rxHold = none ∧ s.sendHeader.ioMode = .released ∧ s.sendHeader.cfg = s.cfg ∧
      s.sendHeader.convention = s.convention ∧ s.sendHeader.baudRate = s.baudRate ∧
      s.sendHeader.buffer = s.buffer ∧ s.sendHeader.apdu = s.apdu ∧
      s.sendHeader.trace = s.trace ++ .pin (.io .driveHigh) :: s.apdu.header.flatMap s.txEvents ++
        [.pin (.io .released)] := by
  have h := txAll_same s.apdu.header (s.listen false)
  have hm : ((s.listen false).txAll s.apdu.header).ioMode = .driveHigh := h.ioMode
  refine ⟨?_, rfl, h.cfg, h.convention, h.baudRate, h.buffer, h.apdu, ?_⟩
  · rw [State.sendHeader, listen_rxHold, hm]
    rfl
  · have ht := h.trace
    have hev : (s.listen false).txEvents = s.txEvents := rfl
    simp only [State.sendHeader, listen_trace, ht, hev]
    simp [ioModeFor]

theorem sendHeader_env {s : State} (h : s.env.script = []) : s.sendHeader.env = s.env :=
  txAll_env s.apdu.header (s := s.listen false) h

/-- A Receive transfer of characters that arrive at the polls (R266, R268). -/
theorem receiveBytes_card (data more : List CardFrame) (s : State) (hs : s.env.script = [])
    (hl : s.ioMode = .released) (hh : s.rxHold = none) (hc : s.env.card = data ++ more)
    (hr : ∀ f ∈ data, f.rate = none) (hw : Memory.wf s.buffer = true)
    (hn : s.apdu.count + data.length ≤ s.apdu.cap) :
    ∃ m, receiveBytes data.length s = .ok (true, { s with
        buffer := m, apdu := { s.apdu with count := s.apdu.count + data.length },
        env := { s.env with card := more } }) ∧ Memory.wf m = true ∧
      ∀ a, Memory.read m a =
        if s.apdu.count ≤ a ∧ a < s.apdu.count + data.length then
          ((rawBytesOf data).map (translate s.convention)).getD (a - s.apdu.count) 0x00#8
        else Memory.read s.buffer a := by
  induction data generalizing s with
  | nil =>
    refine ⟨s.buffer, ?_, hw, fun a => ?_⟩
    · have e : ({ s.env with card := more } : Environment) = s.env := by
        rw [List.nil_append] at hc
        rw [← hc]
      rw [e]
      rfl
    · rw [if_neg (by simp)]
  | cons f data ih =>
    rw [List.length_cons] at hn ⊢
    unfold receiveBytes
    rw [rxChar_card (more := data ++ more) hs hl hh hc (hr f (by simp))]
    dsimp only
    have hm : memWrite .apdu (s.withCard (data ++ more)).apdu.cap (s.withCard (data ++ more)).buffer
        (s.withCard (data ++ more)).apdu.count (translate s.convention f.frame.data) =
        .ok (Memory.write s.buffer s.apdu.count (translate s.convention f.frame.data)) := by
      unfold memWrite
      rw [if_pos (by simp only [withCard_apdu]; omega)]
      rfl
    rw [hm]
    dsimp only
    obtain ⟨m, e, k1, k2⟩ := ih { s.withCard (data ++ more) with
        buffer := Memory.write s.buffer s.apdu.count (translate s.convention f.frame.data),
        apdu := { (s.withCard (data ++ more)).apdu with
          count := (s.withCard (data ++ more)).apdu.count + 1 } }
      hs hl hh rfl (fun g hg => hr g (by simp [hg])) (Memory.wf_write hw _ _)
      (by simp only [withCard_apdu]; omega)
    refine ⟨m, ?_, k1, fun a => ?_⟩
    · rw [e]
      simp only [State.withCard, Nat.add_assoc, Nat.add_comm 1]
    · rw [k2]
      simp only [withCard_apdu, withCard_convention, Memory.read_write hw, rawBytesOf, List.map_cons]
      by_cases h1 : a < s.apdu.count
      · rw [if_neg (by omega), if_neg (by omega), if_neg (by omega)]
      · by_cases h2 : a = s.apdu.count
        · subst h2
          rw [if_neg (by omega), if_pos rfl, if_pos (by omega)]
          simp
        · by_cases h3 : a < s.apdu.count + 1 + data.length
          · rw [if_pos (by omega), if_pos (by omega)]
            obtain ⟨k, hk⟩ : ∃ k, a - s.apdu.count = k + 1 := ⟨a - s.apdu.count - 1, by omega⟩
            have hk2 : a - (s.apdu.count + 1) = k := by omega
            rw [hk, hk2]
            simp
          · rw [if_neg (by omega), if_neg h2, if_neg (by omega)]

/-- The first step of a run sends the header. -/
theorem apduRun_start (n timeoutMs : Nat) (cla ins p1 p2 p3 : Byte) (dir : Dir) (cap : Nat) (s : State) :
    apduRun (n + 1) (s.apduStart timeoutMs cla ins p1 p2 p3 dir cap) =
      apduRun n (s.apduStart timeoutMs cla ins p1 p2 p3 dir cap).sendHeader.loopTest :=
  apduRun_succ n (by simp [State.apduStart]) rfl

theorem loopTest_proc {s : State} (h : s.apdu.count < s.apdu.p3.toNat) :
    s.loopTest = s.toStep .proc := by
  unfold State.loopTest
  rw [if_pos h]

theorem loopTest_final {s : State} (h : s.apdu.p3.toNat ≤ s.apdu.count) :
    s.loopTest = s.toStep .final := by
  unfold State.loopTest
  rw [if_neg (by omega)]

/-- PROC reads one character, keeps it in `proc` and dispatches on it (R255, R264). -/
theorem apduStep_proc {s : State} {f : CardFrame} {more : List CardFrame} (hst : s.apdu.step = .proc)
    (hs : s.env.script = []) (hl : s.ioMode = .released) (hh : s.rxHold = none)
    (hc : s.env.card = f :: more) (hf : f.rate = none) :
    s.apduStep = .ok (State.dispatchProc
      { s.withCard more with
        apdu := { s.apdu with proc := some (translate s.convention f.frame.data) } }
      (translate s.convention f.frame.data)) := by
  unfold State.apduStep
  rw [hst]
  dsimp only
  unfold State.procStep
  rw [rxChar_card hs hl hh hc hf]
  rfl

/-- SW2 reads one character (R260). -/
theorem apduRun_sw2 {s : State} {sw1 : Byte} {g : CardFrame} {more : List CardFrame} (n : Nat)
    (hst : s.apdu.step = .sw2 sw1) (hs : s.env.script = []) (hl : s.ioMode = .released)
    (hh : s.rxHold = none) (hc : s.env.card = g :: more) (hg : g.rate = none) :
    apduRun (n + 2) s = State.apduFinish ((s.withCard more).toStep
        (.done (statusWord sw1 (translate s.convention g.frame.data))))
      (statusWord sw1 (translate s.convention g.frame.data)) := by
  have e1 : s.apduStep = .ok ((s.withCard more).toStep
      (.done (statusWord sw1 (translate s.convention g.frame.data)))) := by
    unfold State.apduStep
    rw [hst]
    dsimp only
    unfold State.sw2Step
    rw [rxChar_card hs hl hh hc hg]
  rw [apduRun_succ (n + 1) (by simp [hst]) e1]
  exact apduRun_done n rfl

/-- FINAL reads two characters as SW1 and SW2 (R263). -/
theorem apduRun_final {s : State} {f g : CardFrame} {more : List CardFrame} (n : Nat)
    (hst : s.apdu.step = .final) (hs : s.env.script = []) (hl : s.ioMode = .released)
    (hh : s.rxHold = none) (hc : s.env.card = f :: g :: more) (hf : f.rate = none)
    (hg : g.rate = none) :
    apduRun (n + 3) s = State.apduFinish ((s.withCard more).toStep
        (.done (statusWord (translate s.convention f.frame.data) (translate s.convention g.frame.data))))
      (statusWord (translate s.convention f.frame.data) (translate s.convention g.frame.data)) := by
  have e1 : s.apduStep = .ok ((s.withCard (g :: more)).toStep
      (.sw2 (translate s.convention f.frame.data))) := by
    unfold State.apduStep
    rw [hst]
    dsimp only
    unfold State.finalStep
    rw [rxChar_card hs hl hh hc hf]
  rw [apduRun_succ (n + 2) (by simp [hst]) e1]
  exact apduRun_sw2 (s := (s.withCard (g :: more)).toStep
    (.sw2 (translate s.convention f.frame.data))) n rfl hs hl hh rfl hg

/-! ### The part of the invariant about what the environment writes -/

theorem sendBytes_envOk (n : Nat) {s t : State} (h : s.EnvOk) (e : sendBytes n s = .ok t) :
    t.EnvOk := by
  induction n generalizing s with
  | zero => cases e; exact h
  | succ n ih =>
    unfold sendBytes at e
    split at e
    · simp at e
    · rename_i b _
      have h1 := txChar_ok h b
      refine ih ?_ e
      exact ⟨h1.counter, h1.hold, h1.clock⟩

theorem receiveBytes_envOk (n : Nat) {s t : State} {b : Bool} (h : s.EnvOk)
    (e : receiveBytes n s = .ok (b, t)) : t.EnvOk := by
  induction n generalizing s with
  | zero => cases e; exact h
  | succ n ih =>
    unfold receiveBytes at e
    have h1 := rxChar_ok h s.apdu.timeoutMs
    cases hr : s.rxChar s.apdu.timeoutMs with
    | mk o s1 =>
      rw [hr] at e h1
      cases o with
      | none => cases e; exact h1
      | some d =>
        dsimp only at e
        split at e
        · simp at e
        · refine ih ?_ e
          exact ⟨h1.counter, h1.hold, h1.clock⟩

theorem transfer_envOk {s t : State} {n : Nat} {b : Bool} (h : s.EnvOk)
    (e : s.transfer n = .ok (b, t)) : t.EnvOk := by
  unfold State.transfer at e
  split at e
  · split at e
    · rename_i s1 h1
      cases e
      exact listen_ok (sendBytes_envOk n (listen_ok h false) h1) true
    · simp at e
  · exact receiveBytes_envOk n h e

theorem toStep_envOk {s : State} (h : s.EnvOk) (st : ApduStep) : (s.toStep st).EnvOk :=
  ⟨h.counter, h.hold, h.clock⟩

theorem apduStep_envOk {s t : State} (h : s.EnvOk) (e : s.apduStep = .ok t) : t.EnvOk := by
  have hr := rxChar_ok h s.apdu.timeoutMs
  unfold State.apduStep at e
  split at e
  · cases e
    exact toStep_envOk (listen_ok (txAll_ok _ (listen_ok h false)) true) _
  · cases e
    unfold State.procStep
    cases hc : s.rxChar s.apdu.timeoutMs with
    | mk o s1 =>
      rw [hc] at hr
      cases o with
      | none => exact toStep_envOk hr _
      | some pb =>
        have h1 : State.EnvOk { s1 with apdu := { s1.apdu with proc := some pb } } :=
          ⟨hr.counter, hr.hold, hr.clock⟩
        unfold State.dispatchProc
        dsimp only
        split
        · exact toStep_envOk h1 _
        · exact toStep_envOk h1 _
        · exact h1
        · exact toStep_envOk h1 _
        · exact h1
  · unfold State.xferStep at e
    split at e
    · simp at e
    · rename_i s1 h1
      cases e
      exact toStep_envOk (transfer_envOk h h1) _
    · rename_i s1 h1
      split at e
      · simp at e
      · cases e
        exact toStep_envOk (transfer_envOk h h1) _
  · cases e
    unfold State.sw2Step
    cases hc : s.rxChar s.apdu.timeoutMs with
    | mk o s1 =>
      rw [hc] at hr
      cases o <;> exact toStep_envOk hr _
  · cases e
    unfold State.finalStep
    cases hc : s.rxChar s.apdu.timeoutMs with
    | mk o s1 =>
      rw [hc] at hr
      cases o <;> exact toStep_envOk hr _
  · cases e
    exact h

end Sys2Proof.Machine
end

