-- ==== Sys2Proof/Laws/Atr.lean ====
section
/-! SUPPORT. ACQUIRE_ATR: what reading one byte does, the induction over the loop, and what the engine's
registers say about the bytes received. -/

namespace Sys2Proof.Machine

/-- `t` differs from `s` at most in the convention, the ATR engine and what the environment writes. -/
def State.SameButAtr (s t : State) : Prop :=
  t = { s with convention := t.convention, rxHold := t.rxHold, msCounter := t.msCounter,
               clkHigh := t.clkHigh, env := t.env, atr := t.atr }

theorem State.SameButAtr.refl (s : State) : s.SameButAtr s := rfl

theorem State.SameButAtr.trans {s t u : State} (h : s.SameButAtr t) (k : t.SameButAtr u) :
    s.SameButAtr u := by
  unfold State.SameButAtr at *
  rw [k, h]

theorem State.SameButEnv.toAtr {s t : State} (h : s.SameButEnv t) : s.SameButAtr t := by
  unfold State.SameButEnv State.SameButAtr at *
  rw [h]

theorem translate_invol (c : Convention) (b : Byte) : translate c (translate c b) = b := by
  cases c with
  | direct => rfl
  | inverse => revert b; decide

/-! ### One byte -/

/-- The registers after the case distinction of R191 on a byte, the buffer apart. -/
def AtrEngine.read (a : AtrEngine) (b : Byte) : AtrEngine :=
  match a.state with
  | .ts => { a with state := .t0 }
  | .t0 => { a with
      histLen := lowNibble b, pending := presence b,
      expected := a.expected + presenceCount (presence b) + lowNibble b,
      state := nextAtrState (presence b) }
  | .ta => { a with ta1 := a.ta1.or (some b) }.clear 0
  | .tb => a.clear 1
  | .tc => a.clear 2
  | .td => { a with
      pending := presence b, expected := a.expected + presenceCount (presence b),
      state := nextAtrState (presence b) }
  | .hist => a

/-- The convention after a raw byte: the auto-detect acts on the first one only (R196). -/
def State.conventionAfter (s : State) (r : Byte) : Convention :=
  if s.atr.state = .ts ∧ wrongGuess s.convention r = true then s.convention.flip else s.convention

/-- Reading one byte with room in the buffer: the deadline is extended, the byte is stored as the
convention in force after it translates it, and the registers move on. -/
theorem atrByte_eq (s : State) (r : Byte) (h : s.atr.count < 32) :
    s.atrByte r = .ok { s with
      convention := s.conventionAfter r,
      atr := { ({ s.atr with
          deadline := (s.atr.deadline + s.cfg.atrExtendMs) % 2 ^ s.cfg.timerWidth }.read
            (translate (s.conventionAfter r) r)) with
        buf := Memory.write s.atr.buf s.atr.count (translate (s.conventionAfter r) r),
        count := s.atr.count + 1 } } := by
  have hm : s.atr.count < Config.atrMax := h
  unfold State.atrByte State.atrCase State.conventionAfter State.atrExtend
  dsimp only
  cases hs : s.atr.state <;>
    simp only [State.atrTs, State.atrT0, State.atrTa, State.atrTb, State.atrTc, State.atrTd,
      State.atrHist, State.atrStore, memWrite, AtrEngine.read, AtrEngine.clear, hm, if_true,
      reduceCtorEq, false_and, if_false, true_and]
  split <;> simp_all

theorem read_buf (a : AtrEngine) (b : Byte) : (a.read b).buf = a.buf := by
  unfold AtrEngine.read AtrEngine.clear; split <;> rfl
theorem read_count (a : AtrEngine) (b : Byte) : (a.read b).count = a.count := by
  unfold AtrEngine.read AtrEngine.clear; split <;> rfl
theorem read_deadline (a : AtrEngine) (b : Byte) : (a.read b).deadline = a.deadline := by
  unfold AtrEngine.read AtrEngine.clear; split <;> rfl
theorem nextAtrState_ne_ts (p : BitVec 4) : nextAtrState p ≠ .ts ∧ nextAtrState p ≠ .t0 := by
  unfold nextAtrState
  split
  · simp
  · split
    · simp
    · split
      · simp
      · split <;> simp

/-! ### The loop -/

/-- The induction over R191's loop: a property that reading a byte and a timeout keep holds at its end;
and with enough iterations the loop ends at the computed length, at 32 bytes or at a timeout, of which
`Q` holds. -/
theorem atrLoop_induct {P Q : State → Prop}
    (hbyte : ∀ s r s1 s2, P s → s.atr.count < 32 → s.atr.count ≠ s.atr.expected →
      s.awaitChar s.atr.deadline = (some r, s1) → s1.atrByte r = .ok s2 →
      P s2 ∧ s2.atr.count = s.atr.count + 1)
    (hend : ∀ s s1, P s → s.atr.count < 32 → s.atr.count ≠ s.atr.expected →
      s.awaitChar s.atr.deadline = (none, s1) → P s1 ∧ Q s1)
    (n : Nat) (s : State) (hP : P s) (hc : s.atr.count ≤ 32) (hn : 32 < n + s.atr.count) :
    ∃ t, atrLoop n s = .ok t ∧ P t ∧ (t.atr.count = t.atr.expected ∨ t.atr.count = 32 ∨ Q t) := by
  induction n generalizing s with
  | zero => omega
  | succ n ih =>
    unfold atrLoop
    split
    · exact ⟨s, rfl, hP, .inl (by assumption)⟩
    · split
      · exact ⟨s, rfl, hP, .inr (.inl (by assumption))⟩
      · rename_i he hm
        have hm : s.atr.count ≠ 32 := hm
        cases hw : s.awaitChar s.atr.deadline with
        | mk o s1 =>
          cases o with
          | none =>
            have h := hend s s1 hP (by omega) he hw
            exact ⟨s1, rfl, h.1, .inr (.inr h.2)⟩
          | some r =>
            have hk : s1.atr = s.atr := by
              have := (awaitChar_same s s.atr.deadline).atr
              rwa [hw] at this
            have hok := atrByte_eq s1 r (by rw [hk]; omega)
            have h := hbyte s r s1 _ hP (by omega) he hw hok
            dsimp only
            rw [hok]
            exact ih _ h.1 (by rw [h.2]; omega) (by rw [h.2]; omega)

/-! ### What the registers say about the bytes received -/

theorem Memory.take_write {m : Memory} (h : Memory.wf m = true) (n : Nat) (b : Byte) :
    Memory.take (Memory.write m n b) (n + 1) = Memory.take m n ++ [b] := by
  unfold Memory.take
  rw [List.range_succ, List.map_append]
  congr 1
  · refine List.map_congr_left fun i hi => ?_
    exact Memory.read_write_other m (Nat.ne_of_lt (List.mem_range.1 hi)) b
  · simp [Memory.read_write_same h]

theorem Memory.length_take (m : Memory) (n : Nat) : (Memory.take m n).length = n := by
  simp [Memory.take]

theorem presence_eq (b : Byte) : presence b = groupOf b := by revert b; decide

theorem presenceCount_eq (p : BitVec 4) : presenceCount p = groupSize p := by revert p; decide

theorem clearPending_eq (p : BitVec 4) :
    clearPending p 0 = p &&& 0b1110#4 ∧ clearPending p 1 = p &&& 0b1101#4 ∧
      clearPending p 2 = p &&& 0b1011#4 := by revert p; decide

/-- R207 and R199 while the bytes come in: what the bytes so far announce, and those still to come, adds up
to the computed length and what the pending presence bits announce of those still to come; and the first TA
byte of them all is the one retained, or the first of those still to come. -/
def AtrEngine.Tracks (a : AtrEngine) (bytes : List Byte) : Prop :=
  match bytes with
  | [] => a.state = .ts ∧ a.expected = 2 ∧ a.histLen = 0 ∧ a.ta1 = none
  | [_] => a.state = .t0 ∧ a.expected = 2 ∧ a.histLen = 0 ∧ a.ta1 = none
  | _ :: t0 :: rest => a.state = nextAtrState a.pending ∧ a.histLen = lowNibble t0 ∧
      (∀ more, 2 + lowNibble t0 + groupSize (groupOf t0) + announced (groupOf t0) (rest ++ more) =
        a.expected + announced a.pending more) ∧
      ∀ more, firstTa (groupOf t0) (rest ++ more) = a.ta1.or (firstTa a.pending more)

theorem announced_cons (p : BitVec 4) (b : Byte) (bs : List Byte) :
    announced p (b :: bs) = match nextAtrState p with
      | .ta => announced (clearPending p 0) bs
      | .tb => announced (clearPending p 1) bs
      | .tc => announced (clearPending p 2) bs
      | .td => presenceCount (presence b) + announced (presence b) bs
      | .hist => 0
      | .ts => 0
      | .t0 => 0 := by
  obtain ⟨h0, h1, h2⟩ := clearPending_eq p
  rw [announced, h0, h1, h2, presenceCount_eq, presence_eq]
  unfold nextAtrState
  (repeat' split) <;> simp_all

theorem firstTa_cons (p : BitVec 4) (b : Byte) (bs : List Byte) :
    firstTa p (b :: bs) = match nextAtrState p with
      | .ta => some b
      | .tb => firstTa (clearPending p 1) bs
      | .tc => firstTa (clearPending p 2) bs
      | .td => firstTa (presence b) bs
      | .hist => none
      | .ts => none
      | .t0 => none := by
  obtain ⟨-, h1, h2⟩ := clearPending_eq p
  rw [firstTa, h1, h2, presence_eq]
  unfold nextAtrState
  (repeat' split) <;> simp_all

theorem announced_hist {p : BitVec 4} (h : nextAtrState p = .hist) (bs : List Byte) :
    announced p bs = 0 := by
  cases bs with
  | nil => rfl
  | cons b bs => rw [announced_cons, h]

theorem firstTa_hist {p : BitVec 4} (h : nextAtrState p = .hist) (bs : List Byte) :
    firstTa p bs = none := by
  cases bs with
  | nil => rfl
  | cons b bs => rw [firstTa_cons, h]

/-- Reading a byte keeps `Tracks`. -/
theorem Tracks_read {a : AtrEngine} {bytes : List Byte} (h : a.Tracks bytes) (b : Byte) :
    (a.read b).Tracks (bytes ++ [b]) := by
  match bytes, h with
  | [], h =>
    obtain ⟨h1, h2, h3, h4⟩ := h
    simp [AtrEngine.read, h1, AtrEngine.Tracks, h2, h3, h4]
  | [ts], h =>
    obtain ⟨h1, h2, h3, h4⟩ := h
    simp only [AtrEngine.read, h1, AtrEngine.Tracks, h2, h4, List.cons_append, List.nil_append,
      presence_eq, presenceCount_eq, Option.none_or]
    refine ⟨trivial, trivial, fun more => ?_, fun _ => trivial⟩
    omega
  | ts :: t0 :: rest, h =>
    obtain ⟨h1, h2, h3, h5⟩ := h
    have h4 := fun more => h3 (b :: more)
    have h6 := fun more => h5 (b :: more)
    simp only [announced_cons] at h4
    simp only [firstTa_cons] at h6
    simp only [List.cons_append]
    unfold AtrEngine.Tracks AtrEngine.read
    have hts := nextAtrState_ne_ts a.pending
    rw [h1]
    cases hn : nextAtrState a.pending <;> simp only [hn] at h4 h6 hts ⊢
    case ts => simp at hts
    case t0 => simp at hts
    case hist =>
      refine ⟨by rw [h1, hn], h2, fun more => ?_, fun more => ?_⟩
      · rw [List.append_assoc, List.cons_append, List.nil_append, h4, announced_hist hn]
      · rw [List.append_assoc, List.cons_append, List.nil_append, h6, firstTa_hist hn]
    all_goals
      refine ⟨?_, h2, fun more => ?_, fun more => ?_⟩
      · first
        | rfl
        | trivial
      · rw [List.append_assoc, List.cons_append, List.nil_append, h4]
        first
        | rfl
        | exact (Nat.add_assoc _ _ _).symm
      · rw [List.append_assoc, List.cons_append, List.nil_append]
        refine (h6 more).trans ?_
        first
        | rfl
        | (simp only [AtrEngine.clear]; cases a.ta1 <;> rfl)

/-- The buffer and the registers of the engine agree. -/
structure AtrEngine.Good (a : AtrEngine) : Prop where
  wf : Memory.wf a.buf = true
  count : a.count ≤ 32
  hist : a.histLen ≤ 15
  tracks : a.Tracks (Memory.take a.buf a.count)

theorem lowNibble_le (b : Byte) : lowNibble b ≤ 15 := by
  unfold lowNibble field
  omega

theorem read_hist {a : AtrEngine} (h : a.histLen ≤ 15) (b : Byte) : (a.read b).histLen ≤ 15 := by
  unfold AtrEngine.read AtrEngine.clear
  split <;> first | exact h | exact lowNibble_le b

theorem Good_read {a : AtrEngine} (h : a.Good) (hc : a.count < 32) (b : Byte) (d : Nat) :
    AtrEngine.Good { ({ a with deadline := d }.read b) with
      buf := Memory.write a.buf a.count b, count := a.count + 1 } where
  wf := Memory.wf_write h.wf _ _
  count := hc
  hist := read_hist (a := { a with deadline := d }) h.hist b
  tracks := by
    dsimp only
    rw [Memory.take_write h.wf]
    have h2 := Tracks_read (a := { a with deadline := d }) (bytes := Memory.take a.buf a.count)
      (by unfold AtrEngine.Tracks; exact h.tracks) b
    unfold AtrEngine.Tracks at h2 ⊢
    exact h2

theorem atrEntry_good (s : State) : s.atrEntry.atr.Good where
  wf := rfl
  count := by simp [State.atrEntry, AtrEngine.idle]
  hist := by simp [State.atrEntry, AtrEngine.idle]
  tracks := by simp [State.atrEntry, AtrEngine.idle, Memory.take, AtrEngine.Tracks]

/-- What a byte that is read leaves alone. -/
theorem atrByte_same {s t : State} {r : Byte} (h : s.atr.count < 32) (e : s.atrByte r = .ok t) :
    s.SameButAtr t := by
  rw [atrByte_eq s r h] at e
  cases e
  rfl

theorem atrByte_good {s t : State} {r : Byte} (h : s.atr.Good) (hc : s.atr.count < 32)
    (e : s.atrByte r = .ok t) : t.atr.Good := by
  rw [atrByte_eq s r hc] at e
  cases e
  exact Good_read h hc _ _

theorem atrByte_count {s t : State} {r : Byte} (hc : s.atr.count < 32) (e : s.atrByte r = .ok t) :
    t.atr.count = s.atr.count + 1 := by
  rw [atrByte_eq s r hc] at e
  cases e
  rfl

theorem atrEntry_listening (s : State) : s.atrEntry.ioMode = .released := rfl

/-- R191's loop always ends with the engine's registers in agreement, whatever the card does. -/
theorem atrLoop_good (s : State) (h : s.atr.Good) (n : Nat) (hn : 32 < n + s.atr.count) :
    ∃ t, atrLoop n s = .ok t ∧ s.SameButAtr t ∧ t.atr.Good := by
  obtain ⟨t, h1, ⟨h2, h3⟩, -⟩ := atrLoop_induct
    (P := fun u => s.SameButAtr u ∧ u.atr.Good) (Q := fun _ => True)
    (fun u r u1 u2 hP hc _ hw hb => by
      have hs := awaitChar_same u u.atr.deadline
      rw [hw] at hs
      have hk : u1.atr = u.atr := hs.atr
      have hc1 : u1.atr.count < 32 := by rw [hk]; exact hc
      exact ⟨⟨(hP.1.trans hs.toAtr).trans (atrByte_same hc1 hb),
        atrByte_good (by rw [hk]; exact hP.2) hc1 hb⟩, by rw [atrByte_count hc1 hb, hk]⟩)
    (fun u u1 hP _ _ hw => by
      have hs := awaitChar_same u u.atr.deadline
      rw [hw] at hs
      exact ⟨⟨hP.1.trans hs.toAtr, by rw [show u1.atr = u.atr from hs.atr]; exact hP.2⟩, trivial⟩)
    n s ⟨State.SameButAtr.refl s, h⟩ h.count hn
  exact ⟨t, h1, h2, h3⟩

/-- ACQUIRE_ATR in a session is the entry, the loop and the end. -/
theorem acquireAtr_eq {s t : State} (h : s.sessionValid = true)
    (hl : atrLoop 33 s.atrEntry = .ok t) : execAcquireAtr s = t.atrFinish := by
  simp only [execAcquireAtr, State.withSession, h, if_true, Config.atrMax, hl]

end Sys2Proof.Machine
end

