-- ==== Sys2Proof/Laws/Exchange.lean ====
section
/-! SUPPORT. The sequencer of SEND_APDU under a card that sends characters at the current etu and then
falls silent: one step of it keeps the `exchange` that is to come. -/

namespace Sys2Proof.Machine

/-- `u` is a state of a SEND_APDU begun in `s`, under such a card, with the data bytes `got` received. -/
structure State.Talks (s u : State) (got : List Byte) : Prop where
  script : u.env.script = []
  flood : u.env.flood = none
  rate : ∀ f ∈ u.env.card, f.rate = none
  listening : u.ioMode = .released
  hold : u.rxHold = none
  wf : Memory.wf u.buffer = true
  cfg : u.cfg = s.cfg
  convention : u.convention = s.convention
  buffer : ∀ a, Memory.read u.buffer a =
    if a < got.length then got.getD a 0x00#8 else Memory.read s.buffer a
  count : u.apdu.dir = .receive → got.length = u.apdu.count
  card : u.env.card <:+ s.env.card

/-- The logical bytes still to come. -/
def State.logicalBytes (u : State) : List Byte := (rawBytesOf u.env.card).map (translate u.convention)

/-- The exchange from here on, if the next character is read as `a`. -/
def State.exchangeFrom (u : State) (a : Await) (got : List Byte) : Exchanged :=
  exchange u.cfg u.apdu.ins u.apdu.p3.toNat u.apdu.dir a u.apdu.count u.apdu.proc got u.logicalBytes

/-- The exchange that the sequencer's step still has to make. -/
def State.exchangeToCome (u : State) (got : List Byte) : Exchanged :=
  match u.apdu.step with
  | .header => u.exchangeFrom (.next u.apdu.count u.apdu.p3.toNat) got
  | .proc => u.exchangeFrom .procByte got
  | .xfer n =>
    match u.apdu.dir with
    | .receive => u.exchangeFrom (.data n) got
    | .send =>
      exchange u.cfg u.apdu.ins u.apdu.p3.toNat u.apdu.dir (.next (u.apdu.count + n) u.apdu.p3.toNat)
        (u.apdu.count + n) u.apdu.proc got u.logicalBytes
  | .sw2 sw1 => u.exchangeFrom (.sw2 sw1) got
  | .final => u.exchangeFrom .sw1 got
  | .done sw => ⟨⟨sw, u.apdu.count, u.apdu.proc⟩, got, u.logicalBytes⟩

theorem logicalBytes_nil {u : State} (h : u.env.card = []) : u.logicalBytes = [] := by
  simp [State.logicalBytes, h, rawBytesOf]

theorem logicalBytes_cons {u : State} {f : CardFrame} {more : List CardFrame}
    (h : u.env.card = f :: more) :
    u.logicalBytes = translate u.convention f.frame.data :: (u.withCard more).logicalBytes := by
  simp [State.logicalBytes, h, rawBytesOf]

theorem expire_logicalBytes (u : State) (d : Nat) : (u.expire d).logicalBytes = u.logicalBytes := by
  unfold State.expire
  split <;> rfl

theorem State.Talks.congr {s u v : State} {got : List Byte} (h : s.Talks u got) (he : v.env = u.env)
    (hi : v.ioMode = u.ioMode) (hh : v.rxHold = u.rxHold) (hb : v.buffer = u.buffer)
    (hc : v.cfg = u.cfg) (hv : v.convention = u.convention)
    (hl : v.apdu.dir = .receive → u.apdu.dir = .receive ∧ v.apdu.count = u.apdu.count) :
    s.Talks v got where
  script := by rw [he]; exact h.script
  flood := by rw [he]; exact h.flood
  rate := by rw [he]; exact h.rate
  listening := by rw [hi]; exact h.listening
  hold := by rw [hh]; exact h.hold
  wf := by rw [hb]; exact h.wf
  cfg := by rw [hc]; exact h.cfg
  convention := by rw [hv]; exact h.convention
  buffer := by rw [hb]; exact h.buffer
  count := fun k => by rw [(hl k).2]; exact h.count (hl k).1
  card := by rw [he]; exact h.card

theorem State.Talks.toStep {s u : State} {got : List Byte} (h : s.Talks u got) (st : ApduStep) :
    s.Talks (u.toStep st) got :=
  h.congr rfl rfl rfl rfl rfl rfl fun k => ⟨k, rfl⟩

theorem State.Talks.expire {s u : State} {got : List Byte} (h : s.Talks u got) (d : Nat) :
    s.Talks (u.expire d) got := by
  have k := expire_same u d
  have he : (u.expire d).env = u.env ∧ (u.expire d).rxHold = u.rxHold := by
    unfold State.expire
    split <;> exact ⟨rfl, rfl⟩
  exact h.congr he.1 k.ioMode he.2 k.buffer k.cfg k.convention (by rw [k.apdu]; exact fun x => ⟨x, rfl⟩)

theorem State.Talks.withCard {s u : State} {got : List Byte} {f : CardFrame} {more : List CardFrame}
    (h : s.Talks u got) (hc : u.env.card = f :: more) : s.Talks (u.withCard more) got where
  script := h.script
  flood := h.flood
  rate := fun g hg => h.rate g (by rw [hc]; exact List.mem_cons_of_mem _ hg)
  listening := h.listening
  hold := h.hold
  wf := h.wf
  cfg := h.cfg
  convention := h.convention
  buffer := h.buffer
  count := h.count
  card := by
    have k := h.card
    rw [hc] at k
    exact (List.suffix_cons f more).trans k

/-- The next character of such a card, or its silence. -/
theorem State.Talks.rxChar {s u : State} {got : List Byte} (h : s.Talks u got) (n : Nat) :
    (∃ d, u.env.card = [] ∧ u.rxChar n = (none, u.expire d)) ∨
    (∃ f more, u.env.card = f :: more ∧
      u.rxChar n = (some (translate u.convention f.frame.data), u.withCard more)) := by
  cases hc : u.env.card with
  | nil => exact .inl ⟨_, rfl, rxChar_silent h.script h.hold hc h.flood n⟩
  | cons f more =>
    exact .inr ⟨f, more, rfl,
      rxChar_card h.script h.listening h.hold hc (h.rate f (by simp [hc])) n⟩

/-- A data byte received at index `count` is the next of `got` (R266, R268). -/
theorem State.Talks.store {s u : State} {got : List Byte} {f : CardFrame} {more : List CardFrame}
    (h : s.Talks u got) (hd : u.apdu.dir = .receive) (hc : u.env.card = f :: more) (b : Byte) :
    s.Talks { u.withCard more with
      buffer := Memory.write u.buffer u.apdu.count b,
      apdu := { u.apdu with count := u.apdu.count + 1 } } (got ++ [b]) := by
  have k := h.withCard hc
  have hl := h.count hd
  refine ⟨k.script, k.flood, k.rate, k.listening, k.hold, Memory.wf_write h.wf _ _, k.cfg, k.convention,
    fun a => ?_, fun _ => by simp [hl], k.card⟩
  dsimp only
  rw [Memory.read_write h.wf, h.buffer a, hl]
  by_cases h1 : a < u.apdu.count
  · rw [if_neg (by omega), if_pos h1, if_pos (by simp; omega), List.getD_append _ _ _ _ (by omega)]
  · by_cases h2 : a = u.apdu.count
    · rw [if_pos h2, if_pos (by simp; omega), List.getD_append_right _ _ _ _ (by omega)]
      simp [h2, hl]
    · rw [if_neg h2, if_neg h1, if_neg (by simp; omega)]

theorem memWrite_count {u : State} (h : u.apdu.count < u.apdu.cap) (b : Byte) :
    memWrite .apdu u.apdu.cap u.buffer u.apdu.count b =
      .ok (Memory.write u.buffer u.apdu.count b) := by
  unfold memWrite
  rw [if_pos h]

/-- A Receive transfer of one byte or more keeps the exchange to come, whether it completes or times out
(R266, R262). -/
theorem State.Talks.receiveBytes {s : State} (n : Nat) {u : State} {got : List Byte}
    (h : s.Talks u got) (hd : u.apdu.dir = .receive) (hn : 1 ≤ n)
    (hcap : u.apdu.count + n ≤ u.apdu.cap) :
    ∃ b t got', receiveBytes n u = .ok (b, t) ∧ s.Talks t got' ∧
      t.apdu = { u.apdu with count := t.apdu.count } ∧ t.apdu.count ≤ u.apdu.count + n ∧
      (b = true →
        u.exchangeFrom (.data n) got = t.exchangeFrom (.next t.apdu.count t.apdu.p3.toNat) got') ∧
      (b = false → t.env.card = [] ∧ u.exchangeFrom (.data n) got =
        ⟨⟨missingDataStatus s.cfg got', t.apdu.count, t.apdu.proc⟩, got', []⟩) := by
  induction n generalizing u got with
  | zero => omega
  | succ n ih =>
    unfold Machine.receiveBytes
    rcases h.rxChar u.apdu.timeoutMs with ⟨d, hc, e⟩ | ⟨f, more, hc, e⟩
    · have ha := (expire_same u d).apdu
      have hx : (u.expire d).env.card = [] := by
        unfold State.expire
        split <;> exact hc
      rw [e]
      refine ⟨_, _, got, rfl, h.expire d, by rw [ha], by rw [ha]; omega, by simp, fun _ => ⟨hx, ?_⟩⟩
      unfold State.exchangeFrom
      rw [ha, logicalBytes_nil hc, h.cfg]
      rfl
    · rw [e]
      dsimp only
      rw [memWrite_count (u := u.withCard more) (by rw [withCard_apdu]; omega)]
      have hv := h.store hd hc (translate u.convention f.frame.data)
      have hex : u.exchangeFrom (.data (n + 1)) got = State.exchangeFrom
          { u.withCard more with
            buffer := Memory.write u.buffer u.apdu.count (translate u.convention f.frame.data),
            apdu := { u.apdu with count := u.apdu.count + 1 } }
          (if n + 1 ≤ 1 then .next (u.apdu.count + 1) u.apdu.p3.toNat else .data n)
          (got ++ [translate u.convention f.frame.data]) := by
        unfold State.exchangeFrom
        rw [logicalBytes_cons hc, exchange]
        rfl
      by_cases hn0 : n = 0
      · subst hn0
        exact ⟨true, _, _, rfl, hv, rfl, by simp, fun _ => hex, by simp⟩
      · rw [if_neg (by omega)] at hex
        obtain ⟨b, t, got', e1, e2, e3, e4, e5, e6⟩ :=
          ih hv hd (by omega) (by dsimp only; omega)
        exact ⟨b, t, got', e1, e2, by rw [e3], by dsimp only at e4; omega,
          fun hb => hex.trans (e5 hb), fun hb => ⟨(e6 hb).1, hex.trans (e6 hb).2⟩⟩

theorem loopTest_exchange (u : State) (got : List Byte) :
    u.loopTest.exchangeToCome got = u.exchangeFrom (.next u.apdu.count u.apdu.p3.toNat) got := by
  unfold State.loopTest Await.next
  split <;>
    simp [State.exchangeToCome, State.toStep, State.exchangeFrom, State.logicalBytes]

/-- What a missing character makes of the exchange in every step but a transfer (R255, R260, R263). -/
theorem silent_exchange {u : State} {a : Await} (hc : u.env.card = []) (ha : ∀ n, a ≠ .data n)
    (d : Nat) (got : List Byte) :
    ((u.expire d).toStep (.done (u.expire d).cfg.swPbTimeout)).exchangeToCome got =
      u.exchangeFrom a got := by
  have k := expire_same u d
  have hl : ((u.expire d).toStep (.done (u.expire d).cfg.swPbTimeout)).logicalBytes = [] :=
    (expire_logicalBytes u d).trans (logicalBytes_nil hc)
  unfold State.exchangeFrom State.exchangeToCome
  rw [logicalBytes_nil hc, hl]
  cases a with
  | data n => exact absurd rfl (ha n)
  | _ => simp [State.toStep, exchange]

/-- The status of a transfer that timed out (R262). -/
theorem State.Talks.rxTimeoutStatus {s t : State} {got : List Byte} (h : s.Talks t got)
    (hd : t.apdu.dir = .receive) (hc : t.apdu.count ≤ t.apdu.cap) :
    t.rxTimeoutStatus = .ok (missingDataStatus s.cfg got) := by
  have hg := h.count hd
  unfold State.rxTimeoutStatus missingDataStatus
  rw [h.cfg, hg]
  by_cases hx : s.cfg.fallbackSw = true ∧ 2 ≤ t.apdu.count
  · rw [if_pos hx, if_pos hx]
    unfold memRead
    rw [if_pos (by omega), if_pos (by omega), h.buffer, h.buffer, if_pos (by omega),
      if_pos (by omega)]
  · rw [if_neg hx, if_neg hx]

/-- One step of the sequencer keeps the exchange that is to come. -/
theorem State.Talks.apduStep {s u : State} {got : List Byte} (h : s.Talks u got) (ho : u.ApduOk)
    (hh : u.apdu.step ≠ .header) :
    ∃ t got', u.apduStep = .ok t ∧ t.apdu.step ≠ .header ∧ s.Talks t got' ∧
      t.exchangeToCome got' = u.exchangeToCome got := by
  unfold State.apduStep
  cases hst : u.apdu.step with
  | header => exact absurd hst hh
  | done sw => exact ⟨u, got, rfl, hh, h, rfl⟩
  | final =>
    have hR : u.exchangeToCome got = u.exchangeFrom .sw1 got := by simp [State.exchangeToCome, hst]
    dsimp only
    unfold State.finalStep
    rcases h.rxChar u.apdu.timeoutMs with ⟨d, hc, e⟩ | ⟨f, more, hc, e⟩
    · rw [e, hR]
      exact ⟨_, got, rfl, by simp [State.toStep], (h.expire d).toStep _,
        silent_exchange hc (by simp) d got⟩
    · rw [e, hR]
      refine ⟨_, got, rfl, by simp [State.toStep], (h.withCard hc).toStep _, ?_⟩
      unfold State.exchangeFrom
      rw [logicalBytes_cons hc, exchange]
      rfl
  | sw2 b =>
    have hR : u.exchangeToCome got = u.exchangeFrom (.sw2 b) got := by
      simp [State.exchangeToCome, hst]
    dsimp only
    unfold State.sw2Step
    rcases h.rxChar u.apdu.timeoutMs with ⟨d, hc, e⟩ | ⟨f, more, hc, e⟩
    · rw [e, hR]
      exact ⟨_, got, rfl, by simp [State.toStep], (h.expire d).toStep _,
        silent_exchange hc (by simp) d got⟩
    · rw [e, hR]
      refine ⟨_, got, rfl, by simp [State.toStep], (h.withCard hc).toStep _, ?_⟩
      unfold State.exchangeFrom
      rw [logicalBytes_cons hc, exchange]
      rfl
  | proc =>
    have hR : u.exchangeToCome got = u.exchangeFrom .procByte got := by
      simp [State.exchangeToCome, hst]
    have hlt := ho.proc hst
    dsimp only
    unfold State.procStep
    rcases h.rxChar u.apdu.timeoutMs with ⟨d, hc, e⟩ | ⟨f, more, hc, e⟩
    · rw [e, hR]
      exact ⟨_, got, rfl, by simp [State.toStep], (h.expire d).toStep _,
        silent_exchange hc (by simp) d got⟩
    · rw [e, hR]
      dsimp only
      have hk : s.Talks { u.withCard more with apdu := { (u.withCard more).apdu with
          proc := some (translate u.convention f.frame.data) } } got :=
        (h.withCard hc).congr rfl rfl rfl rfl rfl rfl fun k => ⟨k, rfl⟩
      refine ⟨_, got, rfl, ?_, ?_, ?_⟩
      · unfold State.dispatchProc
        split <;> simp [State.toStep, hst]
      · unfold State.dispatchProc
        split <;> exact hk.toStep _
      · unfold State.exchangeFrom
        rw [logicalBytes_cons hc]
        unfold State.dispatchProc
        simp only [withCard_apdu]
        generalize translate u.convention f.frame.data = pb
        cases hcl : classify pb u.apdu.ins <;> cases hd : u.apdu.dir <;>
          simp [State.exchangeToCome, State.exchangeFrom, State.logicalBytes, State.toStep,
            State.withCard, exchange, hst, hcl]
        rw [show u.apdu.count + (u.apdu.p3.toNat - u.apdu.count) = u.apdu.p3.toNat by omega]
        simp [Await.next]
  | xfer n =>
    obtain ⟨hn1, hn2⟩ := ho.xfer n hst
    have hcap := ho.cap
    have hloop : ∀ v : State, v.loopTest.apdu.step ≠ .header := by
      intro v
      unfold State.loopTest State.toStep
      dsimp only
      split <;> simp
    dsimp only
    unfold State.xferStep State.transfer
    cases hd : u.apdu.dir with
    | send =>
      obtain ⟨t, e, k⟩ := sendBytes_eq n (u.listen false) (by simp; omega)
      have he : t.env = u.env := sendBytes_env n (s := u.listen false) h.script e
      have ha : (t.listen true).apdu = { u.apdu with count := u.apdu.count + n } := k.apdu
      have hcfg : (t.listen true).cfg = u.cfg := k.cfg
      have hb : (t.listen true).logicalBytes = u.logicalBytes := by
        have h1 : (t.listen true).env = u.env := he
        have h2 : (t.listen true).convention = u.convention := k.convention
        unfold State.logicalBytes
        rw [h1, h2]
      have hcf : s.Talks (t.listen true) got := by
        refine h.congr he h.listening.symm ?_ k.buffer k.cfg k.convention fun hx => ?_
        · rw [listen_rxHold, k.ioMode, h.hold]
          rfl
        · rw [ha] at hx
          rw [show u.apdu.dir = .receive from hx] at hd
          cases hd
      dsimp only
      rw [e]
      refine ⟨_, got, rfl, hloop _, hcf.toStep _, ?_⟩
      rw [loopTest_exchange]
      unfold State.exchangeFrom
      rw [ha, hcfg, hb]
      simp [State.exchangeToCome, hst, hd]
    | receive =>
      have hR : u.exchangeToCome got = u.exchangeFrom (.data n) got := by
        simp [State.exchangeToCome, hst, hd]
      obtain ⟨b, t, got', e1, e2, e3, e4, e5, e6⟩ := h.receiveBytes n hd hn1 (by omega)
      have hdt : t.apdu.dir = .receive := by rw [e3]; exact hd
      have hct : t.apdu.cap = u.apdu.cap := by rw [e3]
      dsimp only
      rw [e1, hR]
      cases b with
      | true => exact ⟨_, got', rfl, hloop _, e2.toStep _, by rw [loopTest_exchange, e5 rfl]⟩
      | false =>
        dsimp only
        rw [e2.rxTimeoutStatus hdt (by omega)]
        refine ⟨_, got', rfl, by simp [State.toStep], e2.toStep _, ?_⟩
        rw [(e6 rfl).2]
        simp only [State.exchangeToCome, State.toStep]
        exact congrArg _ (logicalBytes_nil (e6 rfl).1)

end Sys2Proof.Machine
end

