-- ==== Sys2Proof/Laws/PerInstr.lean ====
section
/-! SUPPORT. Per-instruction family: the encoding of each command is as long as its own word 0 says. -/

namespace Sys2Proof

/-- The opcode field of a word made of an opcode and an operand that fit. -/
theorem opcodeOf_wordOf {opcode operand : Nat} (h : opcode < 2 ^ 8) (h' : operand < 2 ^ 24) :
    opcodeOf (wordOf opcode operand) = opcode := by
  simp [opcodeOf, field, wordOf, BitVec.toNat_ofNat]
  omega

/-- Every opcode fits its field (R83). -/
theorem Instr.opcode_lt (i : Instr) : i.opcode < 2 ^ 8 := by cases i <;> simp [Instr.opcode]

/-- The operand of a well-formed command fits its field (R81, R82). -/
theorem Instr.operand_lt (i : Instr) (h : i.WellFormed) : i.operand < 2 ^ 24 := by
  have hb : ∀ b : Bool, b.toNat < 2 ^ 24 := by decide
  have hx : ∀ b : Byte, b.toNat < 2 ^ 24 := fun b => Nat.lt_of_lt_of_le b.isLt (by decide)
  cases i <;> simp only [Instr.operand]
  case glitchPulse d => simp [Instr.WellFormed, Instr.wellFormed] at h; omega
  case readByte n => simpa [Instr.WellFormed, Instr.wellFormed] using h
  case sendApdu => simp [Instr.WellFormed, Instr.wellFormed] at h; omega
  all_goals first | exact hb _ | exact hx _ | decide

namespace Laws.EncodedLength

/-- R80: the number of words of a well-formed command is told by the opcode in its word 0. -/
def Statement (i : Instr) : Prop :=
  i.WellFormed → (encode i).length = descriptorLength ((encode i).headD 0#32)

/-- The statement from the number of words. -/
theorem of_words {i : Instr} (h : 1 + i.laterWords.length = if i.opcode = 0x40 then 3 else 1) :
    Statement i := by
  intro hw
  simp only [encode, List.length_cons, List.headD_cons, descriptorLength,
    opcodeOf_wordOf i.opcode_lt (i.operand_lt hw)]
  omega

theorem setPower (on : Bool) : Statement (.setPower on) := of_words rfl
theorem setReset (asserted : Bool) : Statement (.setReset asserted) := of_words rfl
theorem setClockFreerun (run : Bool) : Statement (.setClockFreerun run) := of_words rfl
theorem glitchPulse (d : Nat) : Statement (.glitchPulse d) := of_words rfl
theorem triggerPulse : Statement .triggerPulse := of_words rfl
theorem powerOn : Statement .powerOn := of_words rfl
theorem powerOff : Statement .powerOff := of_words rfl
theorem setListening (on : Bool) : Statement (.setListening on) := of_words rfl
theorem readByte (timeoutMs : Nat) : Statement (.readByte timeoutMs) := of_words rfl
theorem writeByte (b : Byte) : Statement (.writeByte b) := of_words rfl
theorem getConvention : Statement .getConvention := of_words rfl
theorem setConvention (inverse : Bool) : Statement (.setConvention inverse) := of_words rfl
theorem acquireAtr : Statement .acquireAtr := of_words rfl
theorem sendApdu (timeoutMs : Nat) (cla ins p1 p2 p3 : Byte) (dir : Dir) (cap : Nat) :
    Statement (.sendApdu timeoutMs cla ins p1 p2 p3 dir cap) := of_words rfl

end Laws.EncodedLength

end Sys2Proof
end

