-- ==== Sys2Proof/Laws/Sources.lean ====
section
/-! SUPPORT. Where a character that a poll takes comes from: it was held, or the receiver assembles it
from a frame that the card will send. -/

namespace Sys2Proof.Machine

/-- The frame of an event of the environment, if it is one. -/
def EnvEvent.frame? : EnvEvent → Option CardFrame
  | .frame f => some f
  | .ms => none
  | .clk _ => none

theorem frames_eq (e : Environment) :
    e.frames = e.script.flatten.filterMap EnvEvent.frame? ++ e.card ++ e.flood.toList := by
  unfold Environment.frames
  congr 3

/-- `u` receives as `s` does, and what `u` holds `s` may receive. -/
structure State.HoldsOf (s u : State) : Prop where
  assembled : ∀ c, u.assembled c = s.assembled c
  hold : ∀ r, u.rxHold = some r → s.mayReceive r

/-- `u` is a later state of `s` within a wait: it holds what `s` may receive, and no more frames come. -/
structure State.ReceivesOf (s u : State) : Prop extends s.HoldsOf u where
  frames : ∀ f ∈ u.env.frames, f ∈ s.env.frames

theorem State.ReceivesOf.refl (s : State) : s.ReceivesOf s :=
  ⟨⟨fun _ => rfl, fun _ h => .inl h⟩, fun _ h => h⟩

theorem receive_holdsOf {s u : State} {c : CardFrame} (h : s.HoldsOf u) (hc : c ∈ s.env.frames) :
    s.HoldsOf (u.receive c) := by
  unfold State.receive
  split
  · split
    · exact ⟨h.assembled, h.hold⟩
    · rename_i r hr
      split
      · refine ⟨h.assembled, fun r' hr' => .inr ⟨c, hc, ?_⟩⟩
        rw [← h.assembled, hr]
        exact hr'
      · exact ⟨h.assembled, h.hold⟩
  · exact ⟨h.assembled, h.hold⟩

theorem act_receivesOf {s u : State} {e : EnvEvent} (h : s.ReceivesOf u)
    (hc : ∀ f, e.frame? = some f → f ∈ s.env.frames) : s.ReceivesOf (u.act e) := by
  cases e with
  | ms => exact ⟨⟨h.assembled, h.hold⟩, h.frames⟩
  | frame f =>
    refine ⟨receive_holdsOf h.toHoldsOf (hc f rfl), ?_⟩
    have e : (u.receive f).env = u.env := receive_env u f
    rw [show u.act (.frame f) = u.receive f from rfl, e]
    exact h.frames
  | clk b =>
    unfold State.act
    dsimp only
    split <;> exact ⟨⟨h.assembled, h.hold⟩, h.frames⟩

theorem acts_receivesOf {s : State} (es : List EnvEvent) {u : State} (h : s.ReceivesOf u)
    (hc : ∀ f ∈ es.filterMap EnvEvent.frame?, f ∈ s.env.frames) :
    s.ReceivesOf (es.foldl State.act u) := by
  induction es generalizing u with
  | nil => exact h
  | cons e es ih =>
    refine ih (act_receivesOf h fun f hf => hc f (by simp [hf])) fun f hf => ?_
    refine hc f ?_
    rw [List.filterMap_cons]
    split <;> simp_all

theorem envTurn_receivesOf {s u : State} (h : s.ReceivesOf u) : s.ReceivesOf u.envTurn := by
  unfold State.envTurn
  split
  · exact h
  · rename_i b rest hs
    have h3 := h.frames
    rw [frames_eq u.env] at h3
    simp only [hs, List.flatten_cons, List.filterMap_append] at h3
    refine acts_receivesOf _ ⟨⟨h.assembled, h.hold⟩, fun f hf => ?_⟩ fun f hf => ?_
    · apply h3
      rw [frames_eq] at hf
      simp only [State.withScript, List.mem_append] at hf ⊢
      tauto
    · apply h3
      simp only [List.mem_append]
      tauto

theorem tailPoll_source {s : State} (d : Nat) (fs : List CardFrame) {u : State} (h : s.HoldsOf u)
    (hfs : ∀ f ∈ fs, f ∈ s.env.frames) (hf : ∀ f, u.env.flood = some f → f ∈ s.env.frames) {r : Byte}
    (hr : (tailPoll d fs u).1 = some r) : s.mayReceive r := by
  induction fs generalizing u with
  | nil =>
    unfold tailPoll at hr
    split at hr
    · simp at hr
    · rename_i f hu
      have k := receive_holdsOf h (hf f hu)
      split at hr
      · rename_i r' hr'
        cases hr
        exact k.hold _ hr'
      · simp at hr
  | cons f fs ih =>
    have k : s.HoldsOf ((u.withCard fs).receive f) :=
      receive_holdsOf (u := u.withCard fs) ⟨h.assembled, h.hold⟩ (hfs f (by simp))
    unfold tailPoll at hr
    split at hr
    · rename_i r' hr'
      cases hr
      exact k.hold _ hr'
    · exact ih k (fun g hg => hfs g (by simp [hg])) (by rw [receive_env]; exact hf) hr

theorem lastPolls_source {s u : State} (d : Nat) (h : s.ReceivesOf u) {r : Byte}
    (hr : (u.lastPolls d).1 = some r) : s.mayReceive r := by
  unfold State.lastPolls at hr
  split at hr
  · rename_i r' hr'
    cases hr
    exact h.hold _ hr'
  · refine tailPoll_source d _ h.toHoldsOf (fun f hf => ?_) (fun f hf => ?_) hr
    · exact h.frames f (by rw [frames_eq]; simp [hf])
    · exact h.frames f (by rw [frames_eq]; simp [hf])

theorem pollLoop_source {s : State} (d n : Nat) {u : State} (h : s.ReceivesOf u) {r : Byte}
    (hr : (pollLoop d n u).1 = some r) : s.mayReceive r := by
  induction n generalizing u with
  | zero => exact lastPolls_source d h hr
  | succ n ih =>
    unfold pollLoop at hr
    split at hr
    · exact lastPolls_source d h hr
    · have k := envTurn_receivesOf h
      split at hr
      · rename_i r' hr'
        cases hr
        exact k.hold _ hr'
      · split at hr
        · simp at hr
        · exact ih (envTurn_receivesOf k) hr

/-- A character that RxChar returns translates a raw byte that was held or that a frame of the card
brings (R160, R159). -/
theorem rxChar_source (s : State) (n : Nat) {b : Byte} (h : (s.rxChar n).1 = some b) :
    ∃ raw, b = translate s.convention raw ∧ s.mayReceive raw := by
  have hc := (awaitChar_same s.envTurn (s.envTurn.deadlineIn n)).convention
  rw [(envTurn_same s).convention] at hc
  unfold State.rxChar at h
  dsimp only at h
  rw [hc] at h
  cases hr : (s.envTurn.awaitChar (s.envTurn.deadlineIn n)).1 with
  | none => rw [hr] at h; cases h
  | some raw =>
    rw [hr] at h
    cases h
    exact ⟨raw, rfl, pollLoop_source _ _ (envTurn_receivesOf (State.ReceivesOf.refl s)) hr⟩

end Sys2Proof.Machine
end

