-- ==== Sys2Proof/Tests/Slice0.lean ====
section
/-! SUPPORT. The model's own tests: expected values are those of spec/95_test_vectors.md and of the
rules' examples. -/

namespace Sys2Proof.Tests

open Sys2Proof.Machine

/-! ## Well-formedness: a term each check refuses -/

theorem test_wf_refuses_wide_ticks : (Instr.glitchPulse 65536).wellFormed = false := by decide
theorem test_wf_refuses_wide_timeout : (Instr.readByte 16777216).wellFormed = false := by decide
theorem test_wf_refuses_wide_apdu_timeout :
    (Instr.sendApdu 16777216 0 0 0 0 0 .send 0).wellFormed = false := by decide
theorem test_wf_refuses_wide_capacity :
    (Instr.sendApdu 0 0 0 0 0 0 .send 512).wellFormed = false := by decide

/-! ## Decoding: the words of 95_test_vectors.md section 2.1 and Part 3 -/

/-- The one command of a descriptor. -/
def decoded (ws : List Word) : Option Instr :=
  match decode ws with
  | .ok (i, []) => some i
  | _ => none

theorem test_decode_setPower : decoded [0x01000001#32] = some (.setPower true) := by decide
theorem test_decode_setReset : decoded [0x02000000#32] = some (.setReset false) := by decide
theorem test_decode_setClockFreerun :
    decoded [0x03000001#32] = some (.setClockFreerun true) := by decide
theorem test_decode_glitchPulse : decoded [0x0400FFFF#32] = some (.glitchPulse 65535) := by decide
theorem test_decode_triggerPulse : decoded [0x05000000#32] = some .triggerPulse := by decide
theorem test_decode_powerOn : decoded [0x10000000#32] = some .powerOn := by decide
theorem test_decode_powerOff : decoded [0x11000000#32] = some .powerOff := by decide
theorem test_decode_setListening :
    decoded [0x20000001#32] = some (.setListening true) := by decide
theorem test_decode_readByte : decoded [0x21000064#32] = some (.readByte 100) := by decide
theorem test_decode_writeByte : decoded [0x2200003F#32] = some (.writeByte 0x3F#8) := by decide
theorem test_decode_getConvention : decoded [0x23000000#32] = some .getConvention := by decide
theorem test_decode_setConvention :
    decoded [0x24000001#32] = some (.setConvention true) := by decide
theorem test_decode_acquireAtr : decoded [0x30000000#32] = some .acquireAtr := by decide
theorem test_decode_sendApdu :
    decoded [0x400001F4#32, 0x00A40400#32, 0x02800002#32] =
      some (.sendApdu 500 0x00#8 0xA4#8 0x04#8 0x00#8 0x02#8 .send 2) := by decide
theorem test_decode_sendApdu_receive :
    decoded [0x40000064#32, 0x00C00000#32, 0x04000004#32] =
      some (.sendApdu 100 0x00#8 0xC0#8 0x00#8 0x00#8 0x04#8 .receive 4) := by decide

theorem test_decode_reserved_b :
    decode [0x20000002#32] = .error (.reservedBits 0x20000002#32) := by decide
theorem test_decode_reserved_d :
    decode [0x04010000#32] = .error (.reservedBits 0x04010000#32) := by decide
theorem test_decode_reserved_x :
    decode [0x2200013F#32] = .error (.reservedBits 0x2200013F#32) := by decide
theorem test_decode_reserved_a :
    decode [0x40000064#32, 0x00C00000#32, 0x04000204#32] =
      .error (.reservedBits 0x04000204#32) := by decide
theorem test_decode_undefined :
    decode [0x06000000#32] = .error (.undefinedOpcode 0x06000000#32) ∧
    decode [0x00000000#32] = .error (.undefinedOpcode 0x00000000#32) ∧
    decode [0xFF000000#32] = .error (.undefinedOpcode 0xFF000000#32) := by decide

theorem test_encode_sendApdu :
    encode (.sendApdu 500 0x00#8 0xA4#8 0x04#8 0x00#8 0x02#8 .send 2) =
      [0x400001F4#32, 0x00A40400#32, 0x02800002#32] := by decide

/-! ## Bytes: R152 and section 2.2 -/

theorem test_inv_corners :
    inv 0x03#8 = 0x3F#8 ∧ inv 0x3B#8 = 0x23#8 ∧ inv 0x01#8 = 0x7F#8 ∧ inv 0x80#8 = 0xFE#8 ∧
    inv 0x0F#8 = 0x0F#8 ∧ inv 0xA4#8 = 0xDA#8 := by decide
theorem test_parity :
    parity .direct 0x3B#8 = true ∧ parity .direct 0x3F#8 = false ∧ parity .direct 0xA4#8 = true ∧
    parity .inverse 0xFF#8 = true ∧ parity .inverse 0xDA#8 = false ∧
    parity .inverse 0x03#8 = true := by decide
theorem test_classify :
    classify 0x5B#8 0xA4#8 = .ack1 ∧ classify 0x5A#8 0xA4#8 = .ack1 ∧
    classify 0xA5#8 0xA4#8 = .ackAll ∧ classify 0x60#8 0xA4#8 = .null ∧
    classify 0x6C#8 0xA4#8 = .sw1 ∧ classify 0xFF#8 0xA4#8 = .other := by decide
theorem test_classify_overlaps :
    classify 0xFF#8 0xFF#8 = .ack1 ∧ classify 0x60#8 0x5F#8 = .ackAll ∧
    classify 0x60#8 0x9E#8 = .ack1 ∧ classify 0x6F#8 0x6F#8 = .ackAll ∧
    classify 0x80#8 0x7F#8 = .ack1 := by decide
theorem test_elapsed :
    sdiffW 16 0xFFFF 0x0010 = -17 ∧ elapsedAt 16 0x0010 0x0010 = true ∧
    sdiffW 16 0x800F 0x0010 = 32767 ∧ sdiffW 16 0x8010 0x0010 = -32768 := by decide
theorem test_baud :
    negotiatedBaud Config.vectors 0x18#8 = some 115200 ∧
    negotiatedBaud Config.vectors 0xD1#8 = some 1743 ∧
    negotiatedBaud Config.vectors 0x97#8 = some 446400 ∧
    negotiatedBaud Config.vectors 0x71#8 = none ∧
    negotiatedBaud Config.vectors 0x1A#8 = none := by decide
theorem test_baud_di7_rfu :
    negotiatedBaud { Config.vectors with diTable := Config.isoDiTable none } 0x97#8 = none := by
  decide

/-! ## Commands -/

/-- The result a command returned, if it ended. -/
def resultOf : Host.Outcome State Fault Refusal → Option Result
  | .next t => t.lastResult
  | .fault _ => none
  | .refused _ => none

/-- The state a command left, `s` if it did not end. -/
def after (s : State) : Host.Outcome State Fault Refusal → State
  | .next t => t
  | .fault _ => s
  | .refused _ => s

/-- The card sends these raw bytes, each with a wrong parity bit half of the time, then is silent. -/
def card (bytes : List Byte) : Environment where
  script := []
  card := bytes.map fun b => CardFrame.ofRaw b (b.getLsbD 0)
  flood := none

/-- A session right after POWER_ON with the vector parameters and these characters to come. -/
def live (bytes : List Byte) : State :=
  { State.reset with
    sessionValid := true, baudRate := 9600, powerState := .active, vccOn := true,
    clkRunning := true, env := card bytes }

/-- The same, transmit-armed under a convention. -/
def armed (c : Convention) : State := { live [] with ioMode := .driveHigh, convention := c }

theorem test_setPower :
    recordedEvents (after State.reset (exec (.setPower true) State.reset)).trace =
      [.pin (.vcc true)] := by decide
theorem test_setReset :
    (after State.reset (exec (.setReset true) State.reset)).rstAsserted = true := by decide
theorem test_setClockFreerun_stop :
    (after (live []) (exec (.setClockFreerun false) (live []))).trace =
      [.clkLowWait, .pin (.clk false), .returned .nothing] := by decide
theorem test_setClockFreerun_stopped :
    (after State.reset (exec (.setClockFreerun false) State.reset)).trace =
      [.pin (.clk false), .returned .nothing] := by decide
/-- The environment's turn in WaitClkLow: the counter may move on (R341, 93_implementation_defined.md
I27). -/
theorem test_waitClkLow_turn :
    (after State.reset (exec (.setClockFreerun false)
      { live [] with env := { card [] with script := [[.ms]] } })).msCounter = 1 := by decide
theorem test_glitchPulse :
    recordedEvents (after State.reset (exec (.glitchPulse 10) State.reset)).trace =
      [.pin (.glitch true), .pin (.glitch false), .glitch 10] := by decide
theorem test_glitchPulse_zero :
    recordedEvents (after State.reset (exec (.glitchPulse 0) State.reset)).trace =
      [.glitch 0] := by decide
theorem test_triggerPulse :
    recordedEvents (after State.reset (exec .triggerPulse State.reset)).trace =
      [.pin (.trigger true), .pin (.trigger false)] := by decide
theorem test_powerOn_trace :
    recordedEvents (after State.reset (exec .powerOn State.reset)).trace =
      [.pin (.rst true), .waitMs 12, .pin (.vcc true), .pin (.io .released), .pin (.clk true),
       .pin (.rst false)] := by decide
theorem test_powerOn_state :
    after State.reset (exec .powerOn State.reset) =
      { live [] with
        msCounter := 13, trace := (after State.reset (exec .powerOn State.reset)).trace } := by
  decide
theorem test_powerOff_trace :
    recordedEvents (after (live []) (exec .powerOff (live []))).trace =
      [.pin (.rst true), .pin (.clk false), .pin (.io .driveLow), .pin (.vcc false)] := by decide
theorem test_powerOff_no_session :
    (after State.reset (exec .powerOff State.reset)).sessionValid = false := by decide

theorem test_setListening_keeps :
    (after State.reset (exec (.setListening true)
      { State.reset with rxHold := some 0x55#8 })).rxHold = some 0x55#8 := by decide
theorem test_setListening_empties :
    (after State.reset (exec (.setListening false)
      { State.reset with rxHold := some 0x55#8 })).rxHold = none := by decide
/-- Translation; a held byte before the deadline; a character and an elapsed deadline at the same poll
yield the character (R309). -/
theorem test_readByte_byte :
    resultOf (exec (.readByte 100) { live [0x03#8] with convention := .inverse }) =
      some (.byte (some 0x3F#8)) ∧
    resultOf (exec (.readByte 0) { live [] with rxHold := some 0x55#8 }) =
      some (.byte (some 0x55#8)) ∧
    resultOf (exec (.readByte 1)
      { live [] with env := { card [] with
          script := [[], [.ms, .ms, .frame (CardFrame.ofRaw 0x90#8 false)]] } }) =
      some (.byte (some 0x90#8)) := by decide
theorem test_readByte_silent :
    (after State.reset (exec (.readByte 100) { live [] with msCounter := 65500 })).trace =
        [.returned (.byte none)] ∧
      (after State.reset (exec (.readByte 100) { live [] with msCounter := 65500 })).msCounter =
        64 := by decide
theorem test_writeByte_inverse :
    (after State.reset (exec (.writeByte 0x3F#8) (armed .inverse))).trace =
      [.waitUs 104, .tx (txFrame 0x03#8 true) 9600, .returned .nothing] := by decide
theorem test_faults :
    exec (.readByte 10) State.reset = .fault (.noSession 0x21) ∧
    exec (.readByte 10) { State.reset with ioMode := .driveHigh } = .fault (.noSession 0x21) ∧
    exec (.writeByte 0x41#8) (live []) = .fault (.directionFault 0x22 .released) ∧
    exec (.readByte 100) (armed .direct) = .fault (.directionFault 0x21 .driveHigh) ∧
    exec (.readByte 32768) (live []) = .refused (.timeoutNotAdmitted 32768) := by
  refine ⟨?_, ?_, ?_, ?_, ?_⟩ <;> rfl
theorem test_getConvention :
    resultOf (exec .getConvention (armed .inverse)) = some (.flag true) ∧
    resultOf (exec .getConvention (live [])) = some (.flag false) := by decide
theorem test_setConvention :
    (after State.reset (exec (.setConvention true) (live []))).convention = .inverse := by decide

/-- The record of an ACQUIRE_ATR of these raw bytes with the rate and convention after it. -/
def atrOf (s : State) : Option (Result × Convention × Nat) :=
  match exec .acquireAtr s with
  | .next t => t.lastResult.map fun r => (r, t.convention, t.baudRate)
  | .fault _ => none
  | .refused _ => none

/-- Section 2.5: inverse TS with TA1, the last TA of one group kept, two groups. -/
theorem test_atr_complete :
    atrOf (live [0x03#8, 0xF7#8, 0x37#8]) =
      some (.atr ⟨[0x3F#8, 0x10#8, 0x13#8], 0, true, 0x13#8, 3, true, .ok 38400⟩, .inverse,
        38400) ∧
    atrOf (live [0x3B#8, 0x80#8, 0x10#8, 0x96#8]) =
      some (.atr ⟨[0x3B#8, 0x80#8, 0x10#8, 0x96#8], 0, true, 0x96#8, 4, true, .ok 223200⟩, .direct,
        223200) ∧
    atrOf (live [0x3B#8, 0xF0#8, 0x11#8, 0x22#8, 0x33#8, 0x80#8, 0x00#8]) =
      some (.atr ⟨[0x3B#8, 0xF0#8, 0x11#8, 0x22#8, 0x33#8, 0x80#8, 0x00#8], 0, true, 0x11#8, 7, true,
        .ok 9600⟩, .direct, 9600) := by decide
/-- Underrun, truncation at 32 bytes, a second acquisition in one power cycle. -/
theorem test_atr_limits :
    atrOf (live [0x3B#8, 0x66#8, 0x00#8]) =
      some (.atr ⟨[0x3B#8, 0x66#8, 0x00#8], 6, false, 0#8, 10, false, .notRun⟩, .direct, 9600) ∧
    atrOf (live (0x3B#8 :: List.replicate 41 0xFF#8)) =
      some (.atr ⟨0x3B#8 :: List.replicate 31 0xFF#8, 15, true, 0xFF#8, 49, false, .notRun⟩, .direct,
        9600) ∧
    atrOf { live [0x3B#8, 0x10#8, 0x13#8] with negotiatedThisCycle := true, baudRate := 38400 } =
      some (.atr ⟨[0x3B#8, 0x10#8, 0x13#8], 0, true, 0x13#8, 3, true, .notRun⟩, .direct, 9600) := by
  decide

/-- The session of `live` listening after ACQUIRE_ATR, with a buffer. -/
def withBuffer (bytes data : List Byte) : State :=
  { live bytes with buffer := Memory.ofBytes 0 data }

/-- The frames sent, as (raw byte, parity). -/
def sent (t : State) : List (Byte × Bool) :=
  t.trace.filterMap fun e => match e with
    | .tx f _ => some (f.data, f.parity)
    | _ => none

/-- SEND_APDU 00 A4 00 00 02 send cap=2 with data 3F 00 (case A and its variants). -/
def select (s : State) : Host.Outcome State Fault Refusal :=
  exec (.sendApdu 500 0x00#8 0xA4#8 0x00#8 0x00#8 0x02#8 .send 2) s

/-- The buffer after SEND_APDU 00 `ins` 00 00 04 recv cap=4, with the result. -/
def fetch4 (ins : Byte) (s : State) : Option Result × List Byte :=
  let o := exec (.sendApdu 100 0x00#8 ins 0x00#8 0x00#8 0x04#8 .receive 4) s
  (resultOf o, Memory.take (after s o).buffer 4)

/-- Cases A, F, M and J2 of section 2.7. -/
theorem test_apdu_send :
    resultOf (select (withBuffer [0xA4#8, 0x90#8, 0x00#8] [0x3F#8, 0x00#8])) =
        some (.apdu ⟨0x9000#16, 2, some 0xA4#8⟩) ∧
      sent (after State.reset (select (withBuffer [0xA4#8, 0x90#8, 0x00#8] [0x3F#8, 0x00#8]))) =
        [(0x00#8, false), (0xA4#8, true), (0x00#8, false), (0x00#8, false), (0x02#8, true),
         (0x3F#8, false), (0x00#8, false)] ∧
    resultOf (select (withBuffer [0x6A#8] [0x3F#8, 0x00#8])) =
      some (.apdu ⟨0x0001#16, 0, some 0x6A#8⟩) ∧
    resultOf (select { withBuffer [0xDA#8, 0xF6#8, 0xFF#8] [0x3F#8, 0x00#8] with
      convention := .inverse }) = some (.apdu ⟨0x9000#16, 2, some 0xA4#8⟩) ∧
    resultOf (exec (.sendApdu 100 0x00#8 0xA4#8 0x00#8 0x00#8 0x00#8 .send 0)
      (live [0x60#8, 0x90#8])) = some (.apdu ⟨0x6090#16, 0, none⟩) := by decide
/-- Cases C, G and H2 of section 2.7. -/
theorem test_apdu_receive :
    fetch4 0xC0#8 (withBuffer
      [0x60#8, 0x3F#8, 0x11#8, 0xC0#8, 0x22#8, 0x33#8, 0x44#8, 0x90#8, 0x00#8] []) =
      (some (.apdu ⟨0x9000#16, 4, some 0xC0#8⟩), [0x11#8, 0x22#8, 0x33#8, 0x44#8]) ∧
    fetch4 0xB0#8 (withBuffer [0xB0#8, 0x01#8, 0x02#8, 0x90#8] [9#8, 9#8, 9#8, 9#8]) =
      (some (.apdu ⟨0x0002#16, 3, some 0xB0#8⟩), [0x01#8, 0x02#8, 0x90#8, 9#8]) ∧
    fetch4 0xB0#8 { withBuffer [0xB0#8, 0x01#8, 0x90#8, 0x00#8] [] with
      cfg := { Config.vectors with fallbackSw := true } } =
      (some (.apdu ⟨0x9000#16, 3, some 0xB0#8⟩), [0x01#8, 0x90#8, 0x00#8, 0x00#8]) := by decide

/-- Cases B, C, H, H3, R, F and L of section 2.7, through the function `exchange` of the statements. -/
theorem test_exchange :
    exchange Config.vectors 0xA4#8 2 .send .procByte 0 none [] [0x5B#8, 0x5A#8, 0x90#8, 0x00#8] =
      ⟨⟨0x9000#16, 2, some 0x5A#8⟩, [], []⟩ ∧
    exchange Config.vectors 0xC0#8 4 .receive .procByte 0 none []
      [0x60#8, 0x3F#8, 0x11#8, 0xC0#8, 0x22#8, 0x33#8, 0x44#8, 0x90#8, 0x00#8] =
      ⟨⟨0x9000#16, 4, some 0xC0#8⟩, [0x11#8, 0x22#8, 0x33#8, 0x44#8], []⟩ ∧
    exchange Config.vectors 0xB0#8 4 .receive .procByte 0 none []
      [0xB0#8, 0x01#8, 0x02#8, 0x90#8, 0x00#8] =
      ⟨⟨0x0001#16, 4, some 0xB0#8⟩, [0x01#8, 0x02#8, 0x90#8, 0x00#8], []⟩ ∧
    exchange { Config.vectors with fallbackSw := true } 0xB0#8 4 .receive .procByte 0 none []
      [0xB0#8, 0x90#8] = ⟨⟨0x0002#16, 1, some 0xB0#8⟩, [0x90#8], []⟩ ∧
    exchange { Config.vectors with fallbackSw := true } 0xB0#8 2 .receive .procByte 0 none []
      [0x4F#8] = ⟨⟨0x0002#16, 0, some 0x4F#8⟩, [], []⟩ ∧
    exchange Config.vectors 0xA4#8 2 .send .procByte 0 none [] [0x6A#8] =
      ⟨⟨0x0001#16, 0, some 0x6A#8⟩, [], []⟩ ∧
    exchange Config.vectors 0xA4#8 1 .send .procByte 0 none [] [0xA4#8, 0x90#8] =
      ⟨⟨0x0001#16, 1, some 0xA4#8⟩, [], []⟩ := by decide

/-! ## Steps -/

theorem test_step_runs_word :
    (match step (State.reset.withFetchWord 32 0x01000001) with
      | .next t => t.vccOn
      | _ => false) = true := by decide
theorem test_step_refuses_word :
    step (State.reset.withFetchWord 32 0x24000003) = .refused (.illegalCommand 0x24000003#32) := by
  rfl
theorem test_decodeTableWord :
    decodeTableWord 32 0x0400000A = some (.glitchPulse 10) ∧
    decodeTableWord 96 0x0280000200A40400400001F4 =
      some (.sendApdu 500 0x00#8 0xA4#8 0x04#8 0x00#8 0x02#8 .send 2) := by decide

/-! ## Witnesses: states and operands that meet the hypotheses of the obligations, at the ends of their
ranges -/

/-- A command that ends in a state `p` holds of, by evaluation. -/
theorem returns_of_check {o : Host.Outcome State Fault Refusal} {p : State → Prop} [DecidablePred p]
    (h : (match o with
      | .next t => decide (p t)
      | .fault _ => false
      | .refused _ => false) = true) : Returns o p := by
  cases o with
  | next t => exact ⟨t, rfl, of_decide_eq_true h⟩
  | fault _ => cases h
  | refused _ => cases h

theorem vectors_valid : Config.vectors.Valid where
  fClk := by decide
  timerWidth := by decide
  guardFactor := by decide
  atrTimeout := by decide
  atrDeadline := by decide
  pbRx := by decide
  pbBad := by decide
  rxBad := by decide
  pbNibble := by decide
  rxNibble := by decide
  badNibble := by decide
  fiEntries := by intro n hn; simp [Config.vectors, Config.isoFiTable] at hn; omega
  diEntries := by intro n hn; simp [Config.vectors, Config.isoDiTable] at hn; omega
  fiOne := by decide
  diOne := by decide
  triggerWidth := by decide

/-- The narrowest counter. -/
def narrow : State := { live [] with cfg := { Config.vectors with timerWidth := 2 } }

/-- One frame at a rate. -/
def frameAt (rate : Option Nat) (replace : Bool) : CardFrame :=
  { CardFrame.ofRaw 0x90#8 false with rate := rate, replace := replace }

/-- A session with a card that sends one byte for ever. -/
def flooding (b : Byte) : State :=
  { live [] with env := { card [] with flood := some (CardFrame.ofRaw b false) } }

/-- A session in the middle of SEND_APDU. -/
def running (a : ApduEngine) (bytes : List Byte) : State := { live bytes with apdu := a }

/-- A session in the middle of ACQUIRE_ATR, with `n` bytes stored. -/
def acquiring (st : AtrState) (n : Nat) (ta1 : Option Byte) : State :=
  { live [] with atr := { AtrEngine.idle with state := st, count := n, ta1 := ta1 } }

/-- A complete ATR with a TA byte. -/
def recordOf (ta1 : Byte) : AtrRecord where
  rawBytes := [0x3B#8, 0x10#8, ta1]
  historicalLength := 0
  ta1Present := true
  ta1 := ta1
  expectedLength := 3
  complete := true
  negotiation := .notRun

theorem witness_DecodeInvertsEncode :
    (Instr.sendApdu 16777215 0xFF#8 0xFF#8 0xFF#8 0xFF#8 0xFF#8 .send 511).WellFormed ∧
    (Instr.glitchPulse 65535).WellFormed ∧ (Instr.readByte 16777215).WellFormed := by decide
theorem witness_EncodeInvertsDecode :
    decode [0x0400FFFF#32, 0x05000000#32] = .ok (.glitchPulse 65535, [0x05000000#32]) := by decide

/-- What the host queues for one descriptor. -/
def queued (ws : List Word) : State := { State.reset with pending := [⟨ws, none⟩] }

/-- No command has this word as its whole descriptor: opcode 0x20 with bit 1 set. -/
theorem no_command_0x20000002 : ∀ i : Instr, i.WellFormed → encode i ≠ [0x20000002#32] := by
  intro i hw h
  have ho := opcodeOf_wordOf i.opcode_lt (i.operand_lt hw)
  simp only [encode, List.cons.injEq] at h
  rw [h.1] at ho
  have h20 : i.opcode = 0x20 := ho.symm.trans (by decide)
  cases i <;> simp [Instr.opcode] at h20
  rename_i on
  revert h
  cases on <;> decide
theorem witness_IllegalDescriptorRefused :
    (queued [0x06000000#32]).pending = ⟨[0x06000000#32], none⟩ :: [] ∧
    opcodeOf 0x06000000#32 ∉ [0x01, 0x02, 0x03, 0x04, 0x05, 0x10, 0x11, 0x20, 0x21, 0x22, 0x23, 0x24,
      0x30, 0x40] ∧
    (queued [0x20000002#32]).pending = ⟨[0x20000002#32], none⟩ :: [] ∧
    (∀ i : Instr, i.WellFormed → encode i ≠ [0x20000002#32]) ∧
    (queued []).pending = ⟨[], none⟩ :: [] ∧ (∀ i : Instr, i.WellFormed → encode i ≠ []) :=
  ⟨rfl, by decide, rfl, no_command_0x20000002, rfl, fun _ _ => List.cons_ne_nil _ _⟩
theorem witness_StepRunsDecodedCommand :
    (queued [0x11000000#32]).pending = ⟨[0x11000000#32], none⟩ :: [] ∧
    decode [0x11000000#32] = .ok (.powerOff, []) := ⟨rfl, by decide⟩
theorem witness_IdleBlockWaits : State.reset.pending = [] := rfl
/-- A running and a stopped clock. -/
theorem witness_SetClockFreerunEffect :
    (live []).clkRunning = true ∧ State.reset.clkRunning = false := by decide
theorem witness_PowerOffEffect : State.reset.clkRunning = false := by decide
theorem witness_HcuCommandsAlwaysRun :
    ∀ i ∈ [Instr.setPower true, .setReset false, .setClockFreerun false, .glitchPulse 65535,
      .triggerPulse],
      (∃ on, i = .setPower on) ∨ (∃ a, i = .setReset a) ∨ (∃ r, i = .setClockFreerun r) ∨
        (∃ d, i = .glitchPulse d) ∨ i = .triggerPulse := by simp
/-- Each clause, with the two ways a frame has the current etu. -/
theorem witness_CharacterReception :
    (frameAt none false).rate = none ∧
    ((live []).sessionValid = true ∧ (frameAt (some 9600) true).rate = some (live []).baudRate) ∧
    ((live []).ioMode = .released ∧ (live []).rxHold = none) ∧
    ({ live [] with rxHold := some 0x55#8 }.rxHold ≠ none ∧ (frameAt (some 9600) true).replace = true ∧
      (frameAt none false).replace = false) ∧
    (armed .direct).ioMode ≠ .released := by decide
theorem witness_ReadByteReturns :
    ((live []).sessionValid = true ∧ (live []).ioMode = .released ∧
      32767 < 2 ^ ((live []).cfg.timerWidth - 1) ∧ 2 ≤ (live []).cfg.timerWidth) ∧
    (narrow.sessionValid = true ∧ narrow.ioMode = .released ∧
      1 < 2 ^ (narrow.cfg.timerWidth - 1) ∧ 2 ≤ narrow.cfg.timerWidth) := by decide
/-- A byte held; none held and a character with and without a rate of its own. -/
theorem witness_ReadByteHeldByteFirst :
    (let s := { live [0x11#8] with rxHold := some 0x55#8 }
    s.sessionValid = true ∧ s.ioMode = .released ∧ 0 < 2 ^ (s.cfg.timerWidth - 1) ∧
      s.env.script = [] ∧ s.rxHold = some 0x55#8) ∧
    ∀ r ∈ [none, some 9600],
      let s := { live [] with env := { card [] with card := [frameAt r false] } }
      s.sessionValid = true ∧ s.ioMode = .released ∧ 32767 < 2 ^ (s.cfg.timerWidth - 1) ∧
        s.env.script = [] ∧ s.rxHold = none ∧ s.env.card = frameAt r false :: [] ∧
        ((frameAt r false).rate = none ∨ (frameAt r false).rate = some s.baudRate) := by decide
theorem witness_ReadByteSilentCard :
    let s := { live [] with msCounter := 65535 }
    s.sessionValid = true ∧ s.ioMode = .released ∧ 32767 < 2 ^ (s.cfg.timerWidth - 1) ∧
      2 ≤ s.cfg.timerWidth ∧ s.msCounter < 2 ^ s.cfg.timerWidth ∧ s.env.script = [] ∧
      s.env.card = [] ∧ s.env.flood = none ∧ s.rxHold = none := by decide
theorem witness_WriteByteSends :
    (armed .inverse).sessionValid = true ∧ (armed .inverse).ioMode = .driveHigh := by decide
theorem witness_GetConventionEffect :
    (live []).sessionValid = true ∧ State.reset.sessionValid = false := by decide
theorem witness_SetConventionEffect :
    (armed .inverse).sessionValid = true ∧ State.reset.sessionValid = false := by decide
/-- A card that sends for ever; a record cut short by the deadline, which then stands at 1050. -/
theorem witness_AcquireAtrCompletes :
    (flooding 0x3B#8).sessionValid = true ∧ (live [0x3B#8]).sessionValid = true ∧
    Returns (exec .acquireAtr (live [0x3B#8])) fun t =>
      t.lastResult = some (.atr ⟨[0x3B#8], 0, false, 0#8, 2, false, .notRun⟩) ∧
      t.msCounter = 1000 + 50 :=
  ⟨by decide, by decide, returns_of_check (by decide)⟩
theorem witness_NoSessionFaults :
    State.reset.sessionValid = false ∧
    Instr.opcode (.sendApdu 0 0 0 0 0 0 .send 0) ∈ [0x21, 0x22, 0x23, 0x24, 0x30, 0x40] ∧
    Instr.opcode (.setListening true) ∉ [0x21, 0x22, 0x23, 0x24, 0x30, 0x40] := by decide
theorem witness_WrongDirectionFaults :
    (armed .direct).sessionValid = true ∧ (armed .direct).ioMode ≠ .released ∧
    32767 < 2 ^ ((armed .direct).cfg.timerWidth - 1) ∧ (live []).sessionValid = true ∧ (live []).ioMode ≠ .driveHigh ∧
    exec (.writeByte 0#8) (live []) = .fault (.directionFault 0x22 .released) :=
  ⟨by decide, by decide, by decide, by decide, by decide, rfl⟩
theorem witness_WideTimeoutRefused :
    (live []).sessionValid = true ∧ 2 ^ ((live []).cfg.timerWidth - 1) ≤ 32768 ∧
    (live []).ioMode = .released := by decide
theorem witness_OnlyTheNamedStops :
    exec .acquireAtr State.reset = .fault (.noSession 0x30) ∧
    exec (.writeByte 0#8) (live []) = .fault (.directionFault 0x22 .released) ∧
    exec (.sendApdu 0 0 0 0 0 1 .send 1) (flooding 0x60#8) = .fault .commandNeverEnds ∧
    exec (.readByte 32768) (live []) = .refused (.timeoutNotAdmitted 32768) := by
  refine ⟨?_, ?_, ?_, ?_⟩ <;> rfl
theorem witness_DeadlineTestSurvivesWraparound :
    2 ≤ 16 ∧ 32767 < 2 ^ (16 - 1) ∧ 65534 < 32767 + 2 ^ (16 - 1) ∧
    2 ≤ 2 ∧ 0 < 2 ^ (2 - 1) ∧ 1 < 0 + 2 ^ (2 - 1) := by decide
/-- Nothing held, a TS held while listening (R335), transmit-armed. -/
theorem witness_AtrBytesInOrderUnderFinalConvention :
    (∀ s ∈ [live [0x03#8, 0xFF#8], { live [0xFF#8] with rxHold := some 0x03#8 },
        { live [0x3B#8] with ioMode := .driveHigh }],
      s.sessionValid = true ∧ s.env.script = [] ∧ (∀ c ∈ s.env.card, c.rate = none) ∧
        s.env.flood = none) ∧
    ([] : List Byte) = (if (live []).ioMode = .released then (live []).rxHold.toList else []) ∧
    Returns (exec .acquireAtr { live [0xFF#8] with rxHold := some 0x03#8 }) fun t =>
      t.lastResult = some (.atr ⟨[0x3F#8, 0x00#8], 0, false, 0#8, 2, true, .notRun⟩) :=
  ⟨by decide, rfl, returns_of_check (by decide)⟩
/-- No byte, one byte, two bytes of an ATR, and one with a TA byte in its second group. -/
theorem witness_AtrExpectedLengthClosedForm :
    (Returns (exec .acquireAtr (live [])) fun t =>
      t.lastResult = some (.atr ⟨[], 0, false, 0#8, 2, false, .notRun⟩)) ∧
    (Returns (exec .acquireAtr (live [0x3B#8])) fun t =>
      t.lastResult = some (.atr ⟨[0x3B#8], 0, false, 0#8, 2, false, .notRun⟩)) ∧
    (Returns (exec .acquireAtr (live [0x3B#8, 0x00#8])) fun t =>
      t.lastResult = some (.atr ⟨[0x3B#8, 0x00#8], 0, false, 0#8, 2, true, .notRun⟩)) ∧
    (Returns (exec .acquireAtr (live [0x3B#8, 0x80#8, 0x10#8, 0x96#8])) fun t =>
      t.lastResult = some (.atr ⟨[0x3B#8, 0x80#8, 0x10#8, 0x96#8], 0, true, 0x96#8, 4, true,
        .ok 223200⟩)) :=
  ⟨returns_of_check (by decide), returns_of_check (by decide), returns_of_check (by decide),
    returns_of_check (by decide)⟩
theorem witness_TsAutoDetect :
    (acquiring .ts 31 none).atr.state = .ts ∧ (acquiring .ts 31 none).atr.count < 32 ∧
    Memory.wf (acquiring .ts 31 none).atr.buf = true ∧
    (acquiring .ts 31 none).convention = .direct ∧
    { acquiring .ts 31 none with convention := .inverse }.convention = .inverse := by decide
theorem witness_FormatBytesExtendTheLength :
    (acquiring .t0 31 none).atr.count < 32 ∧ (acquiring .t0 31 none).atr.state = .t0 ∧
    (acquiring .td 31 none).atr.state = .td ∧ (acquiring .tb 31 none).atr.state = .tb ∧
    (acquiring .tc 31 none).atr.state = .tc ∧ (acquiring .tc 31 none).atr.count < 32 ∧
    (0xFF#8 : Byte) = translate (acquiring .t0 31 none).convention 0xFF#8 := by decide
theorem witness_FirstTaRetained :
    (acquiring .ta 31 none).atr.state = .ta ∧ (acquiring .ta 31 none).atr.count < 32 ∧
    Memory.wf (acquiring .ta 31 none).atr.buf = true ∧ (acquiring .ta 31 none).atr.ta1 = none ∧ (acquiring .ta 31 (some 0#8)).atr.ta1 ≠ none := by
  decide
theorem witness_AtrFlipsOnlyByTs :
    (Returns (exec .acquireAtr (live [0x03#8])) fun t =>
      t.lastResult = some (.atr ⟨[0x3F#8], 0, false, 0#8, 2, false, .notRun⟩) ∧
      t.convention ≠ (live []).convention ∧ t.convention = .inverse) ∧
    (Returns (exec .acquireAtr { live [0x3B#8] with convention := .inverse }) fun t =>
      t.lastResult = some (.atr ⟨[0x3B#8], 0, false, 0#8, 2, false, .notRun⟩) ∧
      t.convention ≠ .inverse ∧ t.convention = .direct) :=
  ⟨returns_of_check (by decide), returns_of_check (by decide)⟩
/-- It does not run; it runs on defined entries, at the ends of the tables; it runs on an RFU entry. -/
theorem witness_NegotiationStep :
    ({ recordOf 0x11#8 with complete := false }.complete = false ∧
      { recordOf 0x11#8 with ta1Present := false }.ta1Present = false ∧
      { live [] with negotiatedThisCycle := true }.negotiatedThisCycle = true) ∧
    ((recordOf 0xD9#8).complete = true ∧ (recordOf 0xD9#8).ta1Present = true ∧
      (live []).negotiatedThisCycle = false ∧
      (live []).cfg.fiTable[(0xD9#8 : Byte).toNat / 16]? = some (some 2048) ∧
      (live []).cfg.diTable[(0xD9#8 : Byte).toNat % 16]? = some (some 20) ∧
      (live []).cfg.fiTable[(0x01#8 : Byte).toNat / 16]? = some (some 372)) ∧
    ((live []).cfg.fiTable[(0xF1#8 : Byte).toNat / 16]? = some none ∧
      (live []).cfg.diTable[(0x10#8 : Byte).toNat % 16]? = some none) := by decide
theorem witness_NegotiatedRates :
    Config.vectors.Valid ∧ negotiatedBaud Config.vectors 0xD1#8 = some 1743 :=
  ⟨vectors_valid, by decide⟩
/-- A negotiation that fails, one that succeeds and a record that runs none. -/
theorem witness_AtrRunsNegotiation :
    (Returns (exec .acquireAtr (live [0x3B#8, 0x10#8, 0x71#8])) fun t =>
      t.lastResult = some (.atr { recordOf 0x71#8 with negotiation := .failed })) ∧
    negotiatedBaud (live []).cfg 0x71#8 = none ∧
    (Returns (exec .acquireAtr (live [0x3B#8, 0x10#8, 0x18#8])) fun t =>
      t.lastResult = some (.atr { recordOf 0x18#8 with negotiation := .ok 115200 })) ∧
    negotiatedBaud (live []).cfg 0x18#8 = some 115200 ∧
    (Returns (exec .acquireAtr (live [0x3B#8, 0x00#8])) fun t =>
      t.lastResult = some (.atr ⟨[0x3B#8, 0x00#8], 0, false, 0#8, 2, true, .notRun⟩)) :=
  ⟨returns_of_check (by decide), by decide, returns_of_check (by decide), by decide,
    returns_of_check (by decide)⟩
/-- A byte of each class, INS 0xA4: NULL, the two ends of both SW1 ranges, and their neighbours. -/
theorem witness_ProcedureByteClasses :
    ((0x5B#8 : Byte) = ~~~0xA4#8 ∧ (0x5A#8 : Byte) = ~~~(0xA4#8 + 1)) ∧
    ((0xA4#8 : Byte) ≠ ~~~0xA4#8 ∧ (0xA5#8 : Byte) = 0xA4#8 + 1) ∧
    (∀ b ∈ [(0x60#8 : Byte), 0x61#8, 0x6F#8, 0x90#8, 0x9F#8, 0x70#8, 0x8F#8],
      b ≠ ~~~0xA4#8 ∧ b ≠ ~~~(0xA4#8 + 1) ∧ b ≠ 0xA4#8 ∧ b ≠ 0xA4#8 + 1) ∧
    (∀ b ∈ [(0x61#8 : Byte), 0x6F#8, 0x90#8, 0x9F#8], b.toNat / 16 = 6 ∨ b.toNat / 16 = 9) ∧
    (∀ b ∈ [(0x70#8 : Byte), 0x8F#8], b.toNat / 16 ≠ 6 ∧ b.toNat / 16 ≠ 9) := by decide
theorem witness_CapacityFailure :
    (live []).sessionValid = true ∧ 32767 < 2 ^ ((live []).cfg.timerWidth - 1) ∧
    254 < (0xFF#8 : Byte).toNat := by decide
theorem witness_SendApduCompletes :
    (live [0x60#8]).sessionValid = true ∧ 0 < 2 ^ ((live [0x60#8]).cfg.timerWidth - 1) ∧
    (0xFF#8 : Byte).toNat ≤ 255 ∧ (live [0x60#8]).env.flood = none := by decide
/-- A Send within the capacity and a Receive above it. -/
theorem witness_SendApduFrame :
    (Returns (select (withBuffer [0xA4#8, 0x90#8, 0x00#8] [0x3F#8, 0x00#8])) fun t =>
      t.lastResult = some (.apdu ⟨0x9000#16, 2, some 0xA4#8⟩)) ∧ (0x02#8 : Byte).toNat ≤ 2 ∧
    (Returns (exec (.sendApdu 100 0 0xB0#8 0 0 5 .receive 4) (live [])) fun t =>
      t.lastResult = some (.apdu ⟨0x0003#16, 0, none⟩)) ∧ 4 < (0x05#8 : Byte).toNat :=
  ⟨returns_of_check (by decide), by decide, returns_of_check (by decide), by decide⟩
theorem witness_HeaderGoesOutFirst :
    (0xFF#8 : Byte).toNat ≤ 255 ∧
    Returns (exec (.sendApdu 500 0 0xA4#8 0 0 0xFF#8 .send 255) (live [])) fun t =>
      t.lastResult = some (.apdu ⟨0x0001#16, 0, none⟩) :=
  ⟨by decide, returns_of_check (by decide)⟩
theorem witness_AckAllSend :
    let s := withBuffer [0xA4#8, 0x90#8, 0x00#8] [0x3F#8]
    s.sessionValid = true ∧ 500 < 2 ^ (s.cfg.timerWidth - 1) ∧ 0 < (1#8 : Byte).toNat ∧
      (1#8 : Byte).toNat ≤ 1 ∧ s.env.script = [] ∧
      s.env.card = [CardFrame.ofRaw 0xA4#8 false, CardFrame.ofRaw 0x90#8 false,
        CardFrame.ofRaw 0x00#8 false] ∧
      classify (translate s.convention 0xA4#8) 0xA4#8 = .ackAll := by decide
theorem witness_AckAllReceive :
    let s := withBuffer [0xC1#8, 0x22#8, 0x90#8, 0x00#8] [0x01#8, 0x02#8]
    s.sessionValid = true ∧ 500 < 2 ^ (s.cfg.timerWidth - 1) ∧ 0 < (1#8 : Byte).toNat ∧
      (1#8 : Byte).toNat ≤ 1 ∧ Memory.wf s.buffer = true ∧ s.env.script = [] ∧
      s.env.card = CardFrame.ofRaw 0xC1#8 true :: [CardFrame.ofRaw 0x22#8 false] ++
        [CardFrame.ofRaw 0x90#8 false, CardFrame.ofRaw 0x00#8 false] ∧
      [CardFrame.ofRaw 0x22#8 false].length = (1#8 : Byte).toNat ∧
      classify (translate s.convention 0xC1#8) 0xC0#8 = .ackAll := by decide
/-- The frames that the witnesses of SEND_APDU list are at the current etu. -/
theorem witness_atCurrentEtu :
    ∀ bytes : List Byte, atCurrentEtu (card bytes).card := by
  intro bytes c hc
  simp only [card, List.mem_map] at hc
  obtain ⟨b, -, rfl⟩ := hc
  rfl
theorem witness_ProcedureByteDispatch :
    let s := running { ApduEngine.idle with ins := 0xA4#8, p3 := 0xFF#8, step := .proc }
      [0xA4#8]
    s.env.script = [] ∧ s.rxHold = none ∧ s.ioMode = .released ∧
      s.env.card = [CardFrame.ofRaw 0xA4#8 false] ∧ (CardFrame.ofRaw 0xA4#8 false).rate = none := by
  decide
/-- A Send of all the bytes that fit, and a Receive of as many, complete and cut short. -/
theorem witness_GrantedTransfer :
    (running { ApduEngine.idle with dir := .send, cap := 2, count := 1 } []).apdu.dir = .send ∧
    let s := running { ApduEngine.idle with cap := 2, count := 1 } [0x11#8]
    s.apdu.count + 1 ≤ s.apdu.cap ∧ s.apdu.dir = .receive ∧ Memory.wf s.buffer = true ∧
      s.env.script = [] ∧ s.rxHold = none ∧ s.ioMode = .released ∧ (card [0x11#8]).card.length = 1 ∧
      s.env.card = (card [0x11#8]).card ++ [] ∧ (card []).card.length < 1 ∧
      (live []).env.card = (card []).card ∧ (live []).env.flood = none := by decide
theorem witness_StatusAtOnce :
    let s := live [0x6A#8, 0x82#8]
    s.sessionValid = true ∧ 500 < 2 ^ (s.cfg.timerWidth - 1) ∧ 0 < (2#8 : Byte).toNat ∧
      (2#8 : Byte).toNat ≤ 2 ∧ s.env.script = [] ∧
      s.env.card = [CardFrame.ofRaw 0x6A#8 false, CardFrame.ofRaw 0x82#8 false] ∧
      classify (translate s.convention 0x6A#8) 0xA4#8 = .sw1 := by decide
theorem witness_ZeroLengthReadsStatus :
    let s := live [0x60#8, 0x90#8]
    s.sessionValid = true ∧ 0 < 2 ^ (s.cfg.timerWidth - 1) ∧ s.env.script = [] ∧
      s.env.card = [CardFrame.ofRaw 0x60#8 false, CardFrame.ofRaw 0x90#8 false] := by decide
theorem witness_ApduOfSilentCard :
    (live []).sessionValid = true ∧ 32767 < 2 ^ ((live []).cfg.timerWidth - 1) ∧
    (0xFF#8 : Byte).toNat ≤ 255 ∧ (live []).env.script = [] ∧ (live []).env.card = [] ∧
    (live []).env.flood = none := by decide
/-- Two bytes moved and the fallback; one byte moved and the fallback; the sentinel. For the whole
exchange: the card of case G, at the longest admitted timeout and the full capacity. -/
theorem witness_ReceiveTimeoutStatus :
    (let a := { ApduEngine.idle with cap := 2, count := 2 }
    a.count ≤ a.cap ∧ 2 ≤ a.count ∧ { Config.vectors with fallbackSw := true }.fallbackSw = true ∧
      { a with count := 1 }.count < 2 ∧ Config.vectors.fallbackSw = false) ∧
    (let s := withBuffer [0xB0#8, 0x01#8, 0x02#8, 0x90#8] [9#8]
    s.sessionValid = true ∧ 32767 < 2 ^ (s.cfg.timerWidth - 1) ∧ (4#8 : Byte).toNat ≤ 4 ∧
      Memory.wf s.buffer = true ∧ s.env.script = [] ∧ (∀ c ∈ s.env.card, c.rate = none) ∧
      s.env.flood = none) := by decide
theorem witness_NullFloodNeverEnds :
    (flooding 0x60#8).sessionValid = true ∧ 500 < 2 ^ ((flooding 0x60#8).cfg.timerWidth - 1) ∧
    0 < (1#8 : Byte).toNat ∧ (1#8 : Byte).toNat ≤ 1 ∧ (flooding 0x60#8).env.script = [] ∧
    (flooding 0x60#8).env.card = [] ∧
    (flooding 0x60#8).env.flood = some (CardFrame.ofRaw 0x60#8 false) ∧
    (CardFrame.ofRaw 0x60#8 false).rate = none ∧
    classify (translate (flooding 0x60#8).convention 0x60#8) 0xA4#8 = .null ∧
    classify (translate (flooding 0xFF#8).convention 0xFF#8) 0xA4#8 = .other := by decide
theorem witness_SentinelsAreNoCardStatus :
    Config.vectors.Valid ∧ ∀ sw1 ∈ [(0x60#8 : Byte), 0x6F#8, 0x90#8, 0x9F#8],
      sw1.toNat / 16 = 6 ∨ sw1.toNat / 16 = 9 := ⟨vectors_valid, by decide⟩
theorem live_inv : (live [0x03#8]).Inv where
  cfg := vectors_valid
  counter := by decide
  buffer := by decide
  hold := by decide
  glitch := rfl
  trigger := rfl
  clock := by decide
  atr := rfl
  apdu := rfl
  baud := by decide
  power := by decide
theorem witness_StepKeepsInv :
    (live [0x03#8]).Inv ∧ Returns (step (live [0x03#8])) fun _ => True :=
  ⟨live_inv, ⟨_, rfl, trivial⟩⟩
theorem witness_ResetMeetsInv : Config.vectors.Valid := vectors_valid
/-- Each output changes. -/
theorem witness_OutputWriters :
    (Returns (exec .powerOff (live [])) fun t =>
      t.vccOn ≠ (live []).vccOn ∧ t.rstAsserted ≠ (live []).rstAsserted ∧
      t.clkRunning ≠ (live []).clkRunning ∧ t.ioMode ≠ (live []).ioMode) :=
  returns_of_check (by decide)
/-- Each session field changes. -/
theorem witness_SessionWriters :
    (Returns (exec .powerOn State.reset) fun t =>
      t.sessionValid ≠ State.reset.sessionValid ∧ t.baudRate ≠ State.reset.baudRate ∧
      t.powerState ≠ State.reset.powerState) ∧
    (Returns (exec .acquireAtr (live [0x03#8, 0xF7#8, 0x37#8])) fun t =>
      t.convention ≠ (live []).convention ∧
      t.negotiatedThisCycle ≠ (live []).negotiatedThisCycle) :=
  ⟨returns_of_check (by decide), returns_of_check (by decide)⟩
theorem witness_CommandsAppendToTheTrace :
    (Returns (exec .triggerPulse State.reset) fun t => t.trace ≠ State.reset.trace) ∧
    Instr.triggerPulse.opcode ≠ 0x40 :=
  ⟨returns_of_check (by decide), by decide⟩

end Sys2Proof.Tests
end

section
/-! Which outputs a command writes (10_state.md sections 4 and 5): what a command that returns has done, and
that beside the commands R28 to R30 and R32 name, none writes VCC, RST, CLK or the line's mode. -/

namespace Sys2Proof.Machine

/-! ### How a command comes to return -/

theorem finish_next {s t : State} {r : Result} :
    s.finish r = .next t ↔ t = s.emit (.returned r) := by
  simp [State.finish, eq_comm]

theorem withSession_next {s t : State} {opcode : Nat} {k : Host.Outcome State Fault Refusal} :
    s.withSession opcode k = .next t ↔ s.sessionValid = true ∧ k = .next t := by
  unfold State.withSession
  split <;> simp_all

theorem withTimeout_next {s t : State} {n : Nat} {k : Host.Outcome State Fault Refusal} :
    s.withTimeout n k = .next t ↔ s.admits n = true ∧ k = .next t := by
  unfold State.withTimeout
  split <;> simp_all

/-- A READ_BYTE that returns has polled for a character while listening. -/
theorem readByte_next {s t : State} {n : Nat} (h : execReadByte n s = .next t) :
    s.sessionValid = true ∧ s.ioMode = .released ∧ s.admits n = true ∧
      t = (s.rxChar n).2.emit (.returned (.byte (s.rxChar n).1)) := by
  obtain ⟨hv, h⟩ := withSession_next.1 h
  split at h
  · rename_i hl
    obtain ⟨ha, h⟩ := withTimeout_next.1 h
    exact ⟨hv, hl, ha, finish_next.1 h⟩
  · cases h

/-- A WRITE_BYTE that returns has sent its byte while transmit-armed. -/
theorem writeByte_next {s t : State} {b : Byte} (h : execWriteByte b s = .next t) :
    s.sessionValid = true ∧ s.ioMode = .driveHigh ∧ t = (s.txChar b).emit (.returned .nothing) := by
  obtain ⟨hv, h⟩ := withSession_next.1 h
  split at h
  · rename_i hm
    exact ⟨hv, hm, finish_next.1 h⟩
  · cases h

/-- An ACQUIRE_ATR that returns has run the entry, the loop and the end of R191. -/
theorem acquireAtr_next {s t : State} (h : execAcquireAtr s = .next t) :
    s.sessionValid = true ∧
      ∃ u, s.atrEntry.SameButAtr u ∧ u.atr.Good ∧ u.atrFinish = .next t := by
  have hv := (withSession_next.1 h).1
  obtain ⟨u, hl, hs, hg⟩ := atrLoop_good s.atrEntry (atrEntry_good s) 33 (by omega)
  exact ⟨hv, u, hs, hg, acquireAtr_eq hv hl ▸ h⟩

/-- A SEND_APDU that returns has answered a buffer too small for P3 (R251), or has run its sequencer to
DONE. -/
theorem sendApdu_next {timeoutMs : Nat} {cla ins p1 p2 p3 : Byte} {dir : Dir} {cap : Nat}
    {s t : State} (h : execSendApdu timeoutMs cla ins p1 p2 p3 dir cap s = .next t) :
    s.sessionValid = true ∧ s.admits timeoutMs = true ∧
      (cap < p3.toNat ∧ t = s.emit (.returned
          (.apdu { sw := s.cfg.swBadLength, count := 0, proc := none })) ∨
        p3.toNat ≤ cap ∧ ∃ u sw, (s.apduStart timeoutMs cla ins p1 p2 p3 dir cap).SameButApdu u ∧
          u.ApduOk ∧ u.apdu.step = .done sw ∧ u.apduFinish sw = .next t) := by
  obtain ⟨hv, hk⟩ := withSession_next.1 h
  obtain ⟨ha, hk⟩ := withTimeout_next.1 hk
  refine ⟨hv, ha, ?_⟩
  by_cases hc : cap < p3.toNat
  · rw [if_pos hc] at hk
    exact .inl ⟨hc, finish_next.1 hk⟩
  · have hc := Nat.not_lt.1 hc
    rw [sendApdu_eq hv ha hc] at h
    rcases apduRun_ok (P := fun _ => True) (fun _ _ _ _ => trivial) (s.apduFuel p3) _
      (apduStart_ok s hc) trivial with ⟨u, sw, hs, ho, -, hd, he⟩ | ⟨he, -⟩
    · exact .inr ⟨hc, u, sw, hs, ho, hd, he ▸ h⟩
    · rw [he] at h
      cases h

/-! ### Keeping the outputs -/

/-- `t` drives VCC, RST and CLK as `s` does. -/
structure State.SamePins (s t : State) : Prop where
  vccOn : t.vccOn = s.vccOn
  rstAsserted : t.rstAsserted = s.rstAsserted
  clkRunning : t.clkRunning = s.clkRunning

/-- `t` drives VCC, RST, CLK and the line as `s` does. -/
structure State.SameOutputs (s t : State) : Prop extends s.SamePins t where
  ioMode : t.ioMode = s.ioMode

theorem State.SamePins.trans {s t u : State} (h : s.SamePins t) (k : t.SamePins u) :
    s.SamePins u :=
  ⟨k.vccOn.trans h.vccOn, k.rstAsserted.trans h.rstAsserted, k.clkRunning.trans h.clkRunning⟩

/-- Of outputs that are kept, every claim about who changed one holds. -/
theorem State.SameOutputs.no_writer {s t : State} (h : s.SameOutputs t) {p q r w : Prop} :
    (t.vccOn ≠ s.vccOn → p) ∧ (t.rstAsserted ≠ s.rstAsserted → q) ∧
      (t.clkRunning ≠ s.clkRunning → r) ∧ (t.ioMode ≠ s.ioMode → w) :=
  ⟨absurd h.vccOn, absurd h.rstAsserted, absurd h.clkRunning, absurd h.ioMode⟩

theorem State.SameButAtr.samePins {s t : State} (h : s.SameButAtr t) : s.SamePins t := by
  unfold State.SameButAtr at h
  rw [h]
  exact ⟨rfl, rfl, rfl⟩

theorem State.SameButApdu.samePins {s t : State} (h : s.SameButApdu t) : s.SamePins t := by
  rw [h.frame]
  exact ⟨rfl, rfl, rfl⟩

theorem negotiate_samePins (s : State) (rec : AtrRecord) : s.SamePins (s.negotiate rec).2 := by
  unfold State.negotiate
  split
  · split <;> exact ⟨rfl, rfl, rfl⟩
  · exact ⟨rfl, rfl, rfl⟩

theorem glitchPulse_sameOutputs (s : State) (d : Nat) : s.SameOutputs (s.glitchPulse d) := by
  unfold State.glitchPulse
  split <;> exact ⟨⟨rfl, rfl, rfl⟩, rfl⟩

theorem execGlitchPulse_sameOutputs {s t : State} {d : Nat} (h : execGlitchPulse d s = .next t) :
    s.SameOutputs t := by
  cases finish_next.1 h
  have hg := glitchPulse_sameOutputs (s.emit (.exactNs s.cfg.glitchLatencyNs)) d
  exact ⟨⟨by simp [hg.vccOn], by simp [hg.rstAsserted], by simp [hg.clkRunning]⟩,
    by simp [hg.ioMode]⟩

theorem execTriggerPulse_sameOutputs {s t : State} (h : execTriggerPulse s = .next t) :
    s.SameOutputs t := by
  cases finish_next.1 h
  exact ⟨⟨by simp, by simp, by simp⟩, by simp⟩

theorem execReadByte_sameOutputs {s t : State} {n : Nat} (h : execReadByte n s = .next t) :
    s.SameOutputs t := by
  obtain ⟨-, -, -, rfl⟩ := readByte_next h
  exact ⟨⟨by simp, by simp, by simp⟩, by simp⟩

theorem execWriteByte_sameOutputs {s t : State} {b : Byte} (h : execWriteByte b s = .next t) :
    s.SameOutputs t := by
  obtain ⟨-, -, rfl⟩ := writeByte_next h
  exact ⟨⟨by simp, by simp, by simp⟩, by simp⟩

theorem execGetConvention_sameOutputs {s t : State} (h : execGetConvention s = .next t) :
    s.SameOutputs t := by
  cases finish_next.1 (withSession_next.1 h).2
  exact ⟨⟨rfl, rfl, rfl⟩, rfl⟩

theorem execSetConvention_sameOutputs {s t : State} {inverse : Bool}
    (h : execSetConvention inverse s = .next t) : s.SameOutputs t := by
  cases finish_next.1 (withSession_next.1 h).2
  exact ⟨⟨rfl, rfl, rfl⟩, rfl⟩

/-- ACQUIRE_ATR sets the line to listening, but drives no pin. -/
theorem execAcquireAtr_samePins {s t : State} (h : execAcquireAtr s = .next t) : s.SamePins t := by
  obtain ⟨-, u, hu, -, hf⟩ := acquireAtr_next h
  cases finish_next.1 hf
  have entry : s.SamePins s.atrEntry := ⟨rfl, rfl, rfl⟩
  have k := (entry.trans hu.samePins).trans (negotiate_samePins u u.atrOutput)
  exact ⟨k.vccOn, k.rstAsserted, k.clkRunning⟩

/-- SEND_APDU turns the line, but drives no pin. -/
theorem execSendApdu_samePins {timeoutMs : Nat} {cla ins p1 p2 p3 : Byte} {dir : Dir} {cap : Nat}
    {s t : State} (h : execSendApdu timeoutMs cla ins p1 p2 p3 dir cap s = .next t) :
    s.SamePins t := by
  obtain ⟨-, -, ⟨-, rfl⟩ | ⟨-, u, sw, hu, -, -, hf⟩⟩ := sendApdu_next h
  · exact ⟨rfl, rfl, rfl⟩
  · cases finish_next.1 hf
    have k := hu.samePins
    exact ⟨k.vccOn, k.rstAsserted, k.clkRunning⟩

/-! ### The writers -/

/-- Settles O58: for each output, a command that returns is one of those R28 to R30 or R32 name, or it
keeps the output. -/
theorem outputWriters : Obligations.OutputWriters := by
  unfold Obligations.OutputWriters
  intro i s t h
  cases i with
  | setPower on => cases finish_next.1 h; simp [Instr.opcode]
  | setReset asserted => cases finish_next.1 h; simp [Instr.opcode]
  | setClockFreerun run =>
    cases finish_next.1 h
    cases run <;> simp [Instr.opcode]
  | setListening on => cases finish_next.1 h; simp [Instr.opcode]
  | powerOn => simp [Instr.opcode]
  | powerOff => simp [Instr.opcode]
  | glitchPulse d => exact (execGlitchPulse_sameOutputs h).no_writer
  | triggerPulse => exact (execTriggerPulse_sameOutputs h).no_writer
  | readByte n => exact (execReadByte_sameOutputs h).no_writer
  | writeByte b => exact (execWriteByte_sameOutputs h).no_writer
  | getConvention => exact (execGetConvention_sameOutputs h).no_writer
  | setConvention inverse => exact (execSetConvention_sameOutputs h).no_writer
  | acquireAtr =>
    have k := execAcquireAtr_samePins h
    simp [Instr.opcode, k.vccOn, k.rstAsserted, k.clkRunning]
  | sendApdu =>
    have k := execSendApdu_samePins h
    simp [Instr.opcode, k.vccOn, k.rstAsserted, k.clkRunning]

end Sys2Proof.Machine
end

section
/-! The command encoding both ways (30_encoding.md rules R80 to R84): what each format reads, stated once
through the operand field of word 0, and the decoder's answer in those terms. -/

namespace Sys2Proof

/-! ### Words and their fields -/

theorem field_lt (v hi lo : Nat) : field v hi lo < 2 ^ (hi + 1 - lo) :=
  Nat.mod_lt _ (Nat.two_pow_pos _)

theorem toNat_wordOf {opcode operand : Nat} (h : opcode < 2 ^ 8) (h' : operand < 2 ^ 24) :
    (wordOf opcode operand).toNat = opcode * 2 ^ 24 + operand := by
  rw [wordOf, BitVec.toNat_ofNat, Nat.mod_eq_of_lt (by omega)]

/-- A word is an opcode and an operand that fit exactly if its two fields hold them (R80). -/
theorem wordOf_eq_iff {opcode operand : Nat} (h : opcode < 2 ^ 8) (h' : operand < 2 ^ 24) (w : Word) :
    wordOf opcode operand = w ↔ opcodeOf w = opcode ∧ field w.toNat 23 0 = operand := by
  rw [← BitVec.toNat_inj, toNat_wordOf h h', opcodeOf, field, field]
  omega

theorem toNat_wordOfBytes (a b c d : Byte) :
    (wordOfBytes a b c d).toNat = a.toNat * 2 ^ 24 + b.toNat * 2 ^ 16 + c.toNat * 2 ^ 8 + d.toNat := by
  rw [wordOfBytes, BitVec.toNat_ofNat, Nat.mod_eq_of_lt (by omega)]

theorem toNat_lengthWord (p3 : Byte) (dir : Dir) {cap : Nat} (h : cap ≤ Config.capMax) :
    (lengthWord p3 dir cap).toNat =
      p3.toNat * 2 ^ 24 + (if dir = .send then 2 ^ 23 else 0) + cap := by
  have hc : cap ≤ 511 := h
  rw [lengthWord, BitVec.toNat_ofNat, Nat.mod_eq_of_lt (by split <;> omega)]

/-- A byte read from an 8-bit field. -/
theorem ofNat_eq_byte_iff {n : Nat} (h : n < 2 ^ 8) (b : Byte) : BitVec.ofNat 8 n = b ↔ n = b.toNat := by
  rw [← BitVec.toNat_inj, BitVec.toNat_ofNat, Nat.mod_eq_of_lt h]

/-- The bytes of word 1 of SEND_APDU (R82). -/
theorem wordOfBytes_eq_iff (a b c d : Byte) (w : Word) :
    wordOfBytes a b c d = w ↔
      BitVec.ofNat 8 (field w.toNat 31 24) = a ∧ BitVec.ofNat 8 (field w.toNat 23 16) = b ∧
      BitVec.ofNat 8 (field w.toNat 15 8) = c ∧ BitVec.ofNat 8 (field w.toNat 7 0) = d := by
  rw [ofNat_eq_byte_iff (field_lt _ 31 24), ofNat_eq_byte_iff (field_lt _ 23 16),
    ofNat_eq_byte_iff (field_lt _ 15 8), ofNat_eq_byte_iff (field_lt _ 7 0),
    ← BitVec.toNat_inj, toNat_wordOfBytes]
  simp only [field]
  omega

/-- The direction that bit 23 of word 2 of SEND_APDU stands for (R82). -/
def dirOf (w : Word) : Dir := if field w.toNat 23 23 = 1 then .send else .receive

theorem dirOf_eq_iff (w : Word) (dir : Dir) :
    dirOf w = dir ↔ field w.toNat 23 23 = if dir = .send then 1 else 0 := by
  have hf : field w.toNat 23 23 < 2 := field_lt _ 23 23
  unfold dirOf
  cases dir <;> split <;> simp <;> omega

/-- The fields of word 2 of SEND_APDU, of which one is reserved (R82). -/
theorem lengthWord_eq_iff (p3 : Byte) (dir : Dir) {cap : Nat} (h : cap ≤ Config.capMax) (w : Word) :
    lengthWord p3 dir cap = w ↔ field w.toNat 22 9 = 0 ∧
      BitVec.ofNat 8 (field w.toNat 31 24) = p3 ∧ dirOf w = dir ∧ field w.toNat 8 0 = cap := by
  have hc : cap ≤ 511 := h
  rw [ofNat_eq_byte_iff (field_lt _ 31 24), dirOf_eq_iff, ← BitVec.toNat_inj,
    toNat_lengthWord p3 dir h]
  simp only [field]
  split <;> omega

/-! ### The formats -/

section Formats

variable {w : Word} {i : Instr} {ws rest : List Word}

theorem withReserved_eq_ok {j : Instr} {reserved : Nat} :
    withReserved w reserved j ws = .ok (i, rest) ↔ reserved = 0 ∧ j = i ∧ ws = rest := by
  unfold withReserved
  split <;> simp [*]

theorem formatN_eq_ok {j : Instr} :
    formatN w j ws = .ok (i, rest) ↔ field w.toNat 23 0 = 0 ∧ j = i ∧ ws = rest :=
  withReserved_eq_ok

theorem formatB_eq_ok {k : Bool → Instr} :
    formatB w k ws = .ok (i, rest) ↔ ∃ b, field w.toNat 23 0 = b.toNat ∧ k b = i ∧ ws = rest := by
  have hb : ∀ b : Bool, field w.toNat 23 0 = b.toNat ↔
      field w.toNat 23 1 = 0 ∧ (field w.toNat 0 0 == 1) = b := by
    intro b
    simp only [field]
    cases b <;> simp <;> omega
  simp only [formatB, withReserved_eq_ok, hb, and_assoc, exists_and_left, exists_eq_left']

theorem formatD_eq_ok {k : Nat → Instr} :
    formatD w k ws = .ok (i, rest) ↔
      ∃ d, d < 2 ^ 16 ∧ field w.toNat 23 0 = d ∧ k d = i ∧ ws = rest := by
  have hd : ∀ d, d < 2 ^ 16 ∧ field w.toNat 23 0 = d ↔
      field w.toNat 23 16 = 0 ∧ field w.toNat 15 0 = d := by
    intro d
    simp only [field]
    omega
  simp only [formatD, withReserved_eq_ok, ← and_assoc, hd]
  simp only [and_assoc, exists_and_left, exists_eq_left']

theorem formatT_eq_ok {k : Nat → Instr} :
    formatT w k ws = .ok (i, rest) ↔ k (field w.toNat 23 0) = i ∧ ws = rest := by
  simp [formatT]

theorem formatX_eq_ok {k : Byte → Instr} :
    formatX w k ws = .ok (i, rest) ↔
      ∃ b, field w.toNat 23 0 = b.toNat ∧ k b = i ∧ ws = rest := by
  have hx : ∀ b : Byte, field w.toNat 23 0 = b.toNat ↔
      field w.toNat 23 8 = 0 ∧ BitVec.ofNat 8 (field w.toNat 7 0) = b := by
    intro b
    rw [ofNat_eq_byte_iff (field_lt _ 7 0)]
    simp only [field]
    omega
  simp only [formatX, withReserved_eq_ok, hx, and_assoc, exists_and_left, exists_eq_left']

theorem formatA_eq_ok :
    formatA w ws = .ok (i, rest) ↔ ∃ cla ins p1 p2 p3 dir cap, cap ≤ Config.capMax ∧
      .sendApdu (field w.toNat 23 0) cla ins p1 p2 p3 dir cap = i ∧
      ws = wordOfBytes cla ins p1 p2 :: lengthWord p3 dir cap :: rest := by
  match ws with
  | [] | [_] => simp [formatA]
  | w1 :: w2 :: tail =>
    have hcap : field w2.toNat 8 0 ≤ Config.capMax := Nat.lt_succ_iff.1 (field_lt _ 8 0)
    constructor
    · intro h
      obtain ⟨hr, hi, rfl⟩ := withReserved_eq_ok.1 h
      refine ⟨_, _, _, _, _, _, _, hcap, hi, ?_⟩
      have h1 := (wordOfBytes_eq_iff _ _ _ _ w1).2 ⟨rfl, rfl, rfl, rfl⟩
      have h2 := (lengthWord_eq_iff _ _ hcap w2).2 ⟨hr, rfl, rfl, rfl⟩
      exact congrArg₂ (· :: · :: tail) h1.symm h2.symm
    · rintro ⟨cla, ins, p1, p2, p3, dir, cap, hc, rfl, hw⟩
      obtain ⟨h1, h2, rfl⟩ : w1 = _ ∧ w2 = _ ∧ tail = rest := by simpa using hw
      obtain ⟨rfl, rfl, rfl, rfl⟩ := (wordOfBytes_eq_iff _ _ _ _ w1).1 h1.symm
      obtain ⟨hr, rfl, rfl, rfl⟩ := (lengthWord_eq_iff _ _ hc w2).1 h2.symm
      exact withReserved_eq_ok.2 ⟨hr, rfl, rfl⟩

end Formats

/-! ### The decoder and the encoder -/

/-- The decoder's answer through the fields of word 0: the operand field holds the operand of a well-formed
command whose opcode the word has, and its later words stand in front of what is left. -/
theorem decode_cons_eq_ok {w : Word} {ws rest : List Word} {i : Instr} :
    decode (w :: ws) = .ok (i, rest) ↔ i.WellFormed ∧
      (opcodeOf w = i.opcode ∧ field w.toNat 23 0 = i.operand) ∧ ws = i.laterWords ++ rest := by
  constructor
  · intro h
    have ht : field w.toNat 23 0 < 2 ^ 24 := field_lt _ 23 0
    simp only [decode] at h
    split at h
    case h_1 ho | h_2 ho | h_3 ho | h_8 ho | h_12 ho =>
      obtain ⟨b, hx, rfl, rfl⟩ := formatB_eq_ok.1 h
      exact ⟨rfl, ⟨ho, hx⟩, rfl⟩
    case h_4 ho =>
      obtain ⟨d, hd, hx, rfl, rfl⟩ := formatD_eq_ok.1 h
      exact ⟨decide_eq_true hd, ⟨ho, hx⟩, rfl⟩
    case h_5 ho | h_6 ho | h_7 ho | h_11 ho | h_13 ho =>
      obtain ⟨hx, rfl, rfl⟩ := formatN_eq_ok.1 h
      exact ⟨rfl, ⟨ho, hx⟩, rfl⟩
    case h_9 ho =>
      obtain ⟨rfl, rfl⟩ := formatT_eq_ok.1 h
      exact ⟨decide_eq_true ht, ⟨ho, rfl⟩, rfl⟩
    case h_10 ho =>
      obtain ⟨b, hx, rfl, rfl⟩ := formatX_eq_ok.1 h
      exact ⟨rfl, ⟨ho, hx⟩, rfl⟩
    case h_14 ho =>
      obtain ⟨cla, ins, p1, p2, p3, dir, cap, hc, rfl, rfl⟩ := formatA_eq_ok.1 h
      exact ⟨Bool.and_eq_true_iff.2 ⟨decide_eq_true ht, decide_eq_true hc⟩, ⟨ho, rfl⟩, rfl⟩
    case h_15 => cases h
  · rintro ⟨hw, ⟨ho, hx⟩, rfl⟩
    cases i <;> simp only [decode, ho, Instr.opcode]
    case setPower | setReset | setClockFreerun | setListening | setConvention =>
      exact formatB_eq_ok.2 ⟨_, hx, rfl, rfl⟩
    case glitchPulse =>
      exact formatD_eq_ok.2 ⟨_, of_decide_eq_true hw, hx, rfl, rfl⟩
    case triggerPulse | powerOn | powerOff | getConvention | acquireAtr =>
      exact formatN_eq_ok.2 ⟨hx, rfl, rfl⟩
    case readByte =>
      exact formatT_eq_ok.2 ⟨congrArg _ hx, rfl⟩
    case writeByte =>
      exact formatX_eq_ok.2 ⟨_, hx, rfl, rfl⟩
    case sendApdu =>
      have hc := of_decide_eq_true (Bool.and_eq_true_iff.1 hw).2
      exact formatA_eq_ok.2 ⟨_, _, _, _, _, _, _, hc, congrArg (Instr.sendApdu · ..) hx, rfl⟩

/-- A well-formed command's descriptor through the fields of its word 0. -/
theorem encode_append_eq_cons {i : Instr} (h : i.WellFormed) {w : Word} {ws rest : List Word} :
    encode i ++ rest = w :: ws ↔
      (opcodeOf w = i.opcode ∧ field w.toNat 23 0 = i.operand) ∧ ws = i.laterWords ++ rest := by
  rw [encode, List.cons_append, List.cons.injEq, wordOf_eq_iff i.opcode_lt (i.operand_lt h),
    eq_comm (a := ws)]

/-- The encoder and the decoder are one relation between well-formed commands and words (R80 to R84). -/
theorem decode_eq_ok_iff {ws rest : List Word} {i : Instr} :
    decode ws = .ok (i, rest) ↔ i.WellFormed ∧ encode i ++ rest = ws := by
  cases ws with
  | nil => simp [decode, encode]
  | cons w ws =>
    rw [decode_cons_eq_ok]
    exact and_congr_right fun h => (encode_append_eq_cons h).symm

/-- Settles O1: a well-formed command's descriptor meets the relation by definition. -/
theorem decodeInvertsEncode : Obligations.DecodeInvertsEncode := by
  unfold Obligations.DecodeInvertsEncode
  exact fun i rest h => decode_eq_ok_iff.2 ⟨h, rfl⟩

/-- Settles O2: the same relation read from the words. -/
theorem encodeInvertsDecode : Obligations.EncodeInvertsDecode := by
  unfold Obligations.EncodeInvertsDecode
  exact fun ws i rest => decode_eq_ok_iff.1

end Sys2Proof
end

section
/-! ACQUIRE_ATR and the convention: the auto-detect acts on the first byte only, and stores it as the TS of
the convention it turns to (42_atr.md R196, R206). -/

namespace Sys2Proof.Machine

/-- The TS byte of a convention (R90). -/
def Convention.ts : Convention → Byte
  | .direct => 0x3B#8
  | .inverse => 0x3F#8

/-- A wrong guess's raw byte is the TS of the other convention (R196, R90). -/
theorem translate_wrongGuess {c : Convention} {r : Byte} (h : wrongGuess c r = true) :
    translate c.flip r = c.flip.ts := by
  cases c
  case direct =>
    obtain rfl : r = 0x03#8 := by simpa [wrongGuess] using h
    decide
  case inverse =>
    obtain rfl : r = 0x3B#8 := by simpa [wrongGuess] using h
    rfl

/-- The convention is still `c`, or the bytes stored begin with the TS of the convention in force. -/
def State.FlippedByTs (c : Convention) (s : State) : Prop :=
  s.convention ≠ c → (Memory.take s.atr.buf s.atr.count).head? = some s.convention.ts

/-- The engine reads TS exactly as the first byte (R191, R196). -/
theorem AtrEngine.Good.state_eq_ts_iff {a : AtrEngine} (h : a.Good) : a.state = .ts ↔ a.count = 0 := by
  have ht := h.tracks
  rw [← Memory.length_take a.buf a.count]
  match hb : Memory.take a.buf a.count with
  | [] => rw [hb] at ht; simp [ht.1]
  | [_] => rw [hb] at ht; simp [ht.1]
  | _ :: _ :: _ => rw [hb] at ht; simp [ht.1, (nextAtrState_ne_ts a.pending).1]

/-- Reading a byte keeps it: the auto-detect flips on the first byte only, and stores it as TS. -/
theorem atrByte_flippedByTs {c : Convention} {s t : State} {r : Byte} (hg : s.atr.Good)
    (hc : s.atr.count < 32) (h : s.FlippedByTs c) (e : s.atrByte r = .ok t) : t.FlippedByTs c := by
  rw [atrByte_eq s r hc] at e
  cases e
  intro hne
  dsimp only at hne ⊢
  rw [Memory.take_write hg.wf]
  by_cases hw : s.atr.state = .ts ∧ wrongGuess s.convention r = true
  · have h0 := hg.state_eq_ts_iff.1 hw.1
    have hcv : s.conventionAfter r = s.convention.flip := if_pos hw
    rw [hcv, h0, translate_wrongGuess hw.2]
    rfl
  · have hcv : s.conventionAfter r = s.convention := if_neg hw
    rw [hcv] at hne ⊢
    rw [List.head?_append, h hne]
    rfl

theorem State.SameButEnv.flippedByTs {c : Convention} {s t : State} (h : s.SameButEnv t)
    (k : s.FlippedByTs c) : t.FlippedByTs c := by
  unfold State.FlippedByTs
  rwa [h.atr, h.convention]

/-- R191's loop ends with the convention it found, or with the one whose TS the record begins with. -/
theorem atrLoop_flippedByTs (s : State) :
    ∃ t, atrLoop 33 s.atrEntry = .ok t ∧ t.FlippedByTs s.convention := by
  have hawait {u u' : State} {o : Option Byte} (h : u.awaitChar u.atr.deadline = (o, u')) :
      u.SameButEnv u' := by
    have hs := awaitChar_same u u.atr.deadline
    rwa [h] at hs
  obtain ⟨t, hl, ⟨-, hf⟩, -⟩ := atrLoop_induct
    (P := fun u => u.atr.Good ∧ u.FlippedByTs s.convention) (Q := fun _ => True)
    (fun u r u1 u2 ⟨hg, hf⟩ hc _ hw hb => by
      have hs := hawait hw
      rw [← hs.atr] at hg hc ⊢
      exact ⟨⟨atrByte_good hg hc hb, atrByte_flippedByTs hg hc (hs.flippedByTs hf) hb⟩,
        atrByte_count hc hb⟩)
    (fun u u1 ⟨hg, hf⟩ _ _ hw => by
      have hs := hawait hw
      exact ⟨⟨hs.atr ▸ hg, hs.flippedByTs hf⟩, trivial⟩)
    33 s.atrEntry ⟨atrEntry_good s, absurd rfl⟩ (atrEntry_good s).count (by omega)
  exact ⟨t, hl, hf⟩

@[simp] theorem lastResult_emit_returned (s : State) (r : Result) :
    (s.emit (.returned r)).lastResult = some r := by
  simp [State.lastResult, State.emit]

@[simp] theorem negotiate_convention (s : State) (rec : AtrRecord) :
    (s.negotiate rec).2.convention = s.convention := by
  unfold State.negotiate
  split
  · split <;> rfl
  · rfl

/-- Settles O37: `FlippedByTs` along R191's loop; the end of the command keeps the convention. -/
theorem atrFlipsOnlyByTs : Obligations.AtrFlipsOnlyByTs := by
  unfold Obligations.AtrFlipsOnlyByTs
  intro s t rec h hr hne
  obtain ⟨u, hl, hf⟩ := atrLoop_flippedByTs s
  have hfin : u.atrFinish = .next t := acquireAtr_eq (withSession_next.1 h).1 hl ▸ h
  obtain rfl := finish_next.1 hfin
  rw [lastResult_emit_returned] at hr
  cases hr
  simp only [emit_convention, negotiate_convention] at hne ⊢
  have hts := hf hne
  exact ⟨fun hc => hts.trans (congrArg (some ·.ts) hc), fun hc => hts.trans (congrArg (some ·.ts) hc)⟩

end Sys2Proof.Machine
end

section
/-! Bytes and status words: the inverse transform bit by bit (R88), the order of the procedure-byte classes
(R93) and the high nibble of a status word (R9, R94). -/

namespace Sys2Proof.Machine

/-! ### The inverse transform -/

/-- The step of `inv` for one bit position (R88). -/
def invStep (b out : Byte) (i : Nat) : Byte := if b.getLsbD i then out else out ||| (1#8 <<< (7 - i))

theorem invStep_getLsbD (b out : Byte) (i k : Nat) :
    (invStep b out i).getLsbD k = (out.getLsbD k || (!b.getLsbD i && k == 7 - i)) := by
  have hbit : (1#8 <<< (7 - i)).getLsbD k = (k == 7 - i) := by
    refine (BitVec.getLsbD_twoPow (7 - i) k).trans ?_
    rw [Bool.eq_iff_iff]
    simp only [Bool.and_eq_true, decide_eq_true_eq, beq_iff_eq]
    omega
  unfold invStep
  by_cases hb : b.getLsbD i
  · rw [if_pos hb, hb, Bool.not_true, Bool.false_and, Bool.or_false]
  · rw [if_neg hb, BitVec.getLsbD_or, hbit, Bool.eq_false_iff.2 hb, Bool.not_false, Bool.true_and]

/-- A fold of such steps sets the bits opposite to the 0 bits it visits. -/
theorem foldl_invStep_getLsbD (b : Byte) (k : Nat) (l : List Nat) (out : Byte) :
    (l.foldl (invStep b) out).getLsbD k =
      (out.getLsbD k || l.any fun j => !b.getLsbD j && k == 7 - j) := by
  induction l generalizing out with
  | nil => simp
  | cons j l ih =>
    rw [List.foldl_cons, ih, invStep_getLsbD b out j k, List.any_cons, Bool.or_assoc]

theorem inv_getLsbD (b : Byte) (i : Fin 8) : (inv b).getLsbD (7 - i) = !b.getLsbD i := by
  refine (foldl_invStep_getLsbD b (7 - i) (List.range 8) 0#8).trans ?_
  have hi : ∀ j < 8, 7 - i.val = 7 - j ↔ j = i := by omega
  rw [Bool.eq_iff_iff]
  simp only [BitVec.getLsbD_zero, Bool.false_or, List.any_eq_true, List.mem_range,
    Bool.and_eq_true, beq_iff_eq]
  constructor
  · rintro ⟨j, hj, hb, hij⟩
    rwa [(hi j hj).1 hij] at hb
  · exact fun hb => ⟨i, i.isLt, hb, rfl⟩

/-- Settles O15: the bits of `inv` from its fold, the involution from `translate_invol`. -/
theorem inverseTransform : Obligations.InverseTransform := by
  unfold Obligations.InverseTransform
  exact fun b => ⟨inv_getLsbD b, rfl, rfl, fun c => translate_invol c b⟩

/-! ### Procedure bytes -/

theorem highNibble_eq (b : Byte) : highNibble b = b.toNat / 16 := by
  unfold highNibble field
  omega

/-- Settles O41, one test of R93 after the other. -/
theorem procedureByteClasses : Obligations.ProcedureByteClasses := by
  unfold Obligations.ProcedureByteClasses
  intro b ins
  unfold classify
  rw [highNibble_eq, Config.nullByte]
  refine ⟨fun h => if_pos h, fun h1 h2 => ?_⟩
  rw [if_neg (not_or.2 ⟨h1, h2⟩)]
  refine ⟨fun h => if_pos h, fun h3 h4 => ?_⟩
  rw [if_neg (not_or.2 ⟨h3, h4⟩)]
  refine ⟨fun h => if_pos h, fun h5 => ?_⟩
  rw [if_neg h5]
  exact ⟨fun h => if_pos h, fun h6 h7 => if_neg (not_or.2 ⟨h6, h7⟩)⟩

/-! ### Status words -/

/-- SW1 is the high byte of a status word (R94). -/
theorem statusWord_div (sw1 sw2 : Byte) :
    (statusWord sw1 sw2).toNat / 2 ^ 12 = sw1.toNat / 16 := by
  rw [statusWord, BitVec.toNat_append, ← Nat.shiftLeft_add_eq_or_of_lt sw2.isLt, Nat.shiftLeft_eq]
  omega

theorem statusWord_ne_of_sentinelOk {sw : StatusWord} (h : Config.sentinelOk sw = true)
    {sw1 : Byte} (h1 : sw1.toNat / 16 = 6 ∨ sw1.toNat / 16 = 9) (sw2 : Byte) :
    statusWord sw1 sw2 ≠ sw := by
  rintro rfl
  simp only [Config.sentinelOk, statusWord_div, Bool.and_eq_true, bne_iff_ne] at h
  omega

/-- Settles O55: a sentinel and a card's status word differ in the high nibble (R9). -/
theorem sentinelsAreNoCardStatus : Obligations.SentinelsAreNoCardStatus := by
  unfold Obligations.SentinelsAreNoCardStatus
  exact fun c sw1 sw2 hv h1 => ⟨statusWord_ne_of_sentinelOk hv.pbNibble h1 sw2,
    statusWord_ne_of_sentinelOk hv.rxNibble h1 sw2, statusWord_ne_of_sentinelOk hv.badNibble h1 sw2⟩

end Sys2Proof.Machine
end

section
/-! The Hardware Control Unit: what SET_POWER and SET_RESET write (40_hcu.md R121, R122), and that none of
its five commands faults or touches the session (R120). -/

namespace Sys2Proof.Machine

theorem returns_finish {s : State} {r : Result} {p : State → Prop} :
    Returns (s.finish r) p ↔ p (s.emit (.returned r)) := by
  simp [Returns, finish_next]

theorem emit_emit (s : State) (e f : Event) :
    (s.emit e).emit f = { s with trace := s.trace ++ [e, f] } := by
  simp [State.emit]

/-- Settles O7: a pin write and its event, then the result's event. -/
theorem setPowerEffect : Obligations.SetPowerEffect := by
  unfold Obligations.SetPowerEffect
  exact fun on s => ⟨rfl, finish_next.2 (emit_emit { s with vccOn := on } _ _).symm⟩

/-- Settles O8: as for SET_POWER, on the reset pin. -/
theorem setResetEffect : Obligations.SetResetEffect := by
  unfold Obligations.SetResetEffect
  exact fun asserted s => ⟨rfl, finish_next.2 (emit_emit { s with rstAsserted := asserted } _ _).symm⟩

/-- The pulse of GLITCH_PULSE writes its pin and the trace, and for 0 ticks nothing (R125). -/
theorem glitchPulse_eq (s : State) (d : Nat) :
    s.glitchPulse d = { s with
      glitchOut := if 0 < d then false else s.glitchOut,
      trace := s.trace ++ (if 0 < d then
        [.pin (.glitch true), .exactNs (d * s.cfg.tickNs), .pin (.glitch false)] else []) } := by
  unfold State.glitchPulse
  split <;> simp [State.setGlitch, State.emit]

/-- Settles O14: each command ends in `finish` after operations that write no session field. -/
theorem hcuCommandsAlwaysRun : Obligations.HcuCommandsAlwaysRun := by
  unfold Obligations.HcuCommandsAlwaysRun
  rintro i s (⟨on, rfl⟩ | ⟨asserted, rfl⟩ | ⟨run, rfl⟩ | ⟨d, rfl⟩ | rfl)
  · exact returns_finish.2 (by simp)
  · exact returns_finish.2 (by simp)
  · exact returns_finish.2 (by cases run <;> simp)
  · exact returns_finish.2 (by simp [glitchPulse_eq])
  · exact returns_finish.2 (by simp)

end Sys2Proof.Machine
end

section
/-! The transport layer: the frame and its parity bit (R153, R154), SET_LISTENING and the two convention
commands (41_transport.md R164, R170, R172), and which commands raise `DirectionFault` (R165). -/

namespace Sys2Proof.Machine

/-! ### The frame and its parity bit -/

/-- The inverse transform complements the data bits, in the opposite order (R88). -/
theorem popcount_inv_add (b : Byte) : popcount (inv b) + popcount b = 8 := by
  have hrev : (List.range 8).reverse = (List.range 8).map (7 - ·) := by decide
  have hinv : popcount (inv b) = (List.range 8).countP fun i => !b.getLsbD i :=
    calc popcount (inv b)
      _ = (List.range 8).reverse.countP (inv b).getLsbD := List.countP_reverse.symm
      _ = (List.range 8).countP fun i => (inv b).getLsbD (7 - i) := by
        rw [hrev, List.countP_map, Function.comp_def]
      _ = (List.range 8).countP fun i => !b.getLsbD i := List.countP_congr fun i hi => by
        rw [inv_getLsbD b ⟨i, List.mem_range.1 hi⟩]
  have hlen := List.length_eq_countP_add_countP b.getLsbD (l := List.range 8)
  simp only [List.length_range, Bool.not_eq_true, Bool.decide_eq_false] at hlen
  rw [hinv, popcount]
  omega

theorem toNat_parity_direct (r : Byte) : (parity .direct r).toNat = popcount r % 2 := by
  rcases Nat.mod_two_eq_zero_or_one (popcount r) with h | h <;> simp [parity, h]

theorem parity_inverse_eq_not (r : Byte) : parity .inverse r = !parity .direct r := by
  rcases Nat.mod_two_eq_zero_or_one (popcount r) with h | h <;> simp [parity, h]

theorem toNat_not (b : Bool) : (!b).toNat = 1 - b.toNat := by cases b <;> rfl

/-- Settles O16: the parity bit is the count modulo 2 under Direct and its complement under Inverse, and
`inv` takes the count from 8. -/
theorem parityOverDataAndParityBit : Obligations.ParityOverDataAndParityBit := by
  unfold Obligations.ParityOverDataAndParityBit
  intro r
  have hinv : popcount (translate .inverse r) + popcount r = 8 := popcount_inv_add r
  rw [parity_inverse_eq_not, Bool.not_not, toNat_not, toNat_parity_direct]
  omega

theorem levels_data (f : Frame) (i : Fin 8) : f.levels[i.val + 1]? = some (f.data.getLsbD i.val) := by
  simp [Frame.levels, List.getElem?_append_left]

/-- Settles O17: the levels are read off the list that `Frame.levels` writes. -/
theorem receiverIgnoresParityAndStop : Obligations.ReceiverIgnoresParityAndStop := by
  unfold Obligations.ReceiverIgnoresParityAndStop
  exact ⟨fun f => ⟨rfl, rfl, levels_data f, rfl, rfl, rfl, assemble_levels f⟩,
    fun _ _ => ⟨rfl, rfl, rfl, rfl⟩⟩

/-! ### SET_LISTENING and the convention -/

theorem withSession_of_valid {s : State} {opcode : Nat} {k : Host.Outcome State Fault Refusal}
    (h : s.sessionValid = true) : s.withSession opcode k = k := if_pos h

theorem withSession_of_not_valid {s : State} {opcode : Nat} {k : Host.Outcome State Fault Refusal}
    (h : s.sessionValid = false) : s.withSession opcode k = .fault (.noSession opcode) := by
  simp [State.withSession, h]

/-- Settles O19: `listen` writes the mode, the hold and the pin's event, then the result's event. -/
theorem setListeningEffect : Obligations.SetListeningEffect := by
  unfold Obligations.SetListeningEffect
  intro on s
  refine ⟨rfl, ?_⟩
  rintro m rfl
  exact finish_next.2 (emit_emit { s with
    ioMode := ioModeFor on, rxHold := if s.ioMode = ioModeFor on then s.rxHold else none } _ _).symm

/-- Settles O24: behind the session check stands `finish` of the state as it is. -/
theorem getConventionEffect : Obligations.GetConventionEffect := by
  unfold Obligations.GetConventionEffect
  exact fun s => ⟨rfl, withSession_of_not_valid, withSession_of_valid⟩

/-- Settles O25: behind the session check stands one write, then `finish`. -/
theorem setConventionEffect : Obligations.SetConventionEffect := by
  unfold Obligations.SetConventionEffect
  exact fun inverse s => ⟨rfl, withSession_of_not_valid, withSession_of_valid⟩

/-! ### How a command comes to fault -/

theorem finish_ne_fault {s : State} {r : Result} {f : Fault} : s.finish r ≠ .fault f := nofun

theorem withSession_fault {s : State} {opcode : Nat} {k : Host.Outcome State Fault Refusal}
    {f : Fault} : s.withSession opcode k = .fault f ↔
      s.sessionValid = false ∧ f = .noSession opcode ∨ s.sessionValid = true ∧ k = .fault f := by
  cases hv : s.sessionValid
  · simp [withSession_of_not_valid hv, eq_comm]
  · simp [withSession_of_valid hv]

theorem withTimeout_fault {s : State} {n : Nat} {k : Host.Outcome State Fault Refusal} {f : Fault} :
    s.withTimeout n k = .fault f ↔ s.admits n = true ∧ k = .fault f := by
  unfold State.withTimeout
  split <;> simp_all

/-- A command that only ends once it has its session faults without one. -/
theorem withSession_finish_fault {s t : State} {opcode : Nat} {r : Result} {f : Fault}
    (h : s.withSession opcode (t.finish r) = .fault f) :
    s.sessionValid = false ∧ f = .noSession opcode :=
  (withSession_fault.1 h).resolve_right fun hk => finish_ne_fault hk.2

/-- R191's loop never faults, so ACQUIRE_ATR faults without a session only. -/
theorem acquireAtr_fault {s : State} {f : Fault} (h : execAcquireAtr s = .fault f) :
    s.sessionValid = false ∧ f = .noSession 0x30 := by
  refine (withSession_fault.1 h).resolve_right fun ⟨hv, _⟩ => ?_
  obtain ⟨u, hl, -⟩ := atrLoop_good s.atrEntry (atrEntry_good s) 33 (by omega)
  rw [acquireAtr_eq hv hl] at h
  exact finish_ne_fault h

/-- SEND_APDU faults without a session, or under a flood of the card that keeps its sequencer from DONE
(R267). -/
theorem sendApdu_fault {timeoutMs : Nat} {cla ins p1 p2 p3 : Byte} {dir : Dir} {cap : Nat}
    {s : State} {f : Fault} (h : execSendApdu timeoutMs cla ins p1 p2 p3 dir cap s = .fault f) :
    s.sessionValid = false ∧ f = .noSession 0x40 ∨
      s.sessionValid = true ∧ f = .commandNeverEnds ∧ s.env.flood ≠ none := by
  refine (withSession_fault.1 h).imp_right fun ⟨hv, hk⟩ => ⟨hv, ?_⟩
  obtain ⟨ha, hk⟩ := withTimeout_fault.1 hk
  by_cases hc : cap < p3.toNat
  · rw [if_pos hc] at hk
    exact absurd hk finish_ne_fault
  · have hc := Nat.not_lt.1 hc
    rw [sendApdu_eq hv ha hc] at h
    rcases apduRun_ok (P := fun _ => True) (fun _ _ _ _ => trivial) (s.apduFuel p3) _
      (apduStart_ok s hc) trivial with ⟨u, sw, -, -, -, -, he⟩ | ⟨he, hfuel⟩
    · exact absurd (he.symm.trans h) finish_ne_fault
    · cases he.symm.trans h
      exact ⟨rfl, fun hf => Nat.not_lt.2 (hfuel hf) (apduStart_rank ..)⟩

/-! ### The direction of the line -/

/-- R165: only READ_BYTE and WRITE_BYTE raise `DirectionFault`. -/
theorem opcode_of_directionFault {i : Instr} {s : State} {op : Nat} {m : IoMode}
    (h : exec i s = .fault (.directionFault op m)) : i.opcode ∈ [0x21, 0x22] := by
  cases i with
  | readByte | writeByte => simp [Instr.opcode]
  | setPower | setReset | setClockFreerun | glitchPulse | triggerPulse | powerOn | powerOff
  | setListening => exact absurd h finish_ne_fault
  | getConvention | setConvention => exact nomatch (withSession_finish_fault h).2
  | acquireAtr => exact nomatch (acquireAtr_fault h).2
  | sendApdu => obtain ⟨-, hf⟩ | ⟨-, hf, -⟩ := sendApdu_fault h <;> cases hf

/-- Settles O27: the direction is checked right behind the session, and by no other command. -/
theorem wrongDirectionFaults : Obligations.WrongDirectionFaults := by
  unfold Obligations.WrongDirectionFaults
  exact fun s => ⟨fun _ hv _ hm => (withSession_of_valid hv).trans (if_neg hm),
    fun _ hv hm => (withSession_of_valid hv).trans (if_neg hm),
    fun _ _ _ => opcode_of_directionFault⟩

end Sys2Proof.Machine
end

section
/-! ACQUIRE_ATR: what the record says of the bytes received (42_atr.md R199, R205, R207), and the
auto-detect on the first byte (R196). -/

namespace Sys2Proof.Machine

/-! ### The record and the bytes received -/

/-- An ACQUIRE_ATR that answers a record has ended with registers in agreement, and answers their output
(R205). -/
theorem acquireAtr_record {s t : State} {rec : AtrRecord} (h : execAcquireAtr s = .next t)
    (hr : t.lastResult = some (.atr rec)) :
    ∃ u : State, s.atrEntry.SameButAtr u ∧ u.atr.Good ∧
      rec = { u.atrOutput with negotiation := (u.negotiate u.atrOutput).1 } := by
  obtain ⟨-, u, hs, hg, hf⟩ := acquireAtr_next h
  obtain rfl := finish_next.1 hf
  rw [lastResult_emit_returned] at hr
  cases hr
  exact ⟨u, hs, hg, rfl⟩

theorem lowNibble_eq (b : Byte) : lowNibble b = b.toNat % 16 := by
  simp [lowNibble, field]

/-- With fewer than two bytes nothing has been announced. -/
theorem AtrEngine.Tracks.of_length_le_one {a : AtrEngine} {bytes : List Byte} (h : a.Tracks bytes)
    (hl : bytes.length ≤ 1) : a.expected = 2 ∧ a.histLen = 0 ∧ a.ta1 = none := by
  match bytes, h with
  | [], h => exact h.2
  | [_], h => exact h.2
  | _ :: _ :: _, _ => simp at hl

/-- R207 and R199 at the end of the bytes: no more are to come, so what is still pending counts for
nothing. -/
theorem AtrEngine.Tracks.closedForm {a : AtrEngine} {ts t0 : Byte} {rest : List Byte}
    (h : a.Tracks (ts :: t0 :: rest)) :
    a.histLen = t0.toNat % 16 ∧
      a.expected = 2 + t0.toNat % 16 + groupSize (groupOf t0) + announced (groupOf t0) rest ∧
      a.ta1 = firstTa (groupOf t0) rest := by
  obtain ⟨-, hh, he, ht⟩ := h
  have he := he []
  have ht := ht []
  rw [List.append_nil, lowNibble_eq] at he
  rw [List.append_nil] at ht
  exact ⟨hh.trans (lowNibble_eq t0), he.symm, (ht.trans Option.or_none).symm⟩

/-- Settles O33: the record shows registers that `Tracks` ties to the bytes received. -/
theorem atrExpectedLengthClosedForm : Obligations.AtrExpectedLengthClosedForm := by
  unfold Obligations.AtrExpectedLengthClosedForm
  intro s t rec h hr
  obtain ⟨u, -, hg, rfl⟩ := acquireAtr_record h hr
  refine ⟨fun hl => ?_, fun ts t0 rest hb => ?_⟩
  · obtain ⟨he, hh, ht⟩ := hg.tracks.of_length_le_one hl
    simp [State.atrOutput, he, hh, ht]
  · have htr := hg.tracks
    rw [show Memory.take u.atr.buf u.atr.count = ts :: t0 :: rest from hb] at htr
    obtain ⟨hh, he, ht⟩ := htr.closedForm
    simp [State.atrOutput, he, hh, ht]

/-! ### The first byte -/

theorem conventionAfter_of_wrongGuess {s : State} {r : Byte} (hs : s.atr.state = .ts)
    (h : wrongGuess s.convention r = true) : s.conventionAfter r = s.convention.flip := if_pos ⟨hs, h⟩

theorem conventionAfter_of_not_wrongGuess {s : State} {r : Byte}
    (h : ¬wrongGuess s.convention r = true) : s.conventionAfter r = s.convention :=
  if_neg fun hw => h hw.2

theorem wrongGuess_iff {c : Convention} {r : Byte} :
    wrongGuess c r = true ↔ c = .direct ∧ r = 0x03#8 ∨ c = .inverse ∧ r = 0x3B#8 := by
  simp [wrongGuess]

/-- The first byte is counted, and stored as the convention it leaves in force translates it; T0 is next
(R196, R202). -/
theorem atrByte_ts {s : State} (r : Byte) (hs : s.atr.state = .ts) (hc : s.atr.count < 32)
    (hw : Memory.wf s.atr.buf = true) :
    ∃ t, s.atrByte r = .ok t ∧ t.atr.state = .t0 ∧ t.atr.count = s.atr.count + 1 ∧
      t.convention = s.conventionAfter r ∧
      Memory.read t.atr.buf s.atr.count = translate (s.conventionAfter r) r :=
  ⟨_, atrByte_eq s r hc, by simp [AtrEngine.read, hs], rfl, rfl, Memory.read_write_same hw _ _⟩

/-- Settles O34: the two patterns are the wrong guesses, and a wrong guess reads as the other convention's
TS. -/
theorem tsAutoDetect : Obligations.TsAutoDetect := by
  unfold Obligations.TsAutoDetect
  intro s r hs hc hw
  obtain ⟨t, hok, hst, hcnt, hcv, hrd⟩ := atrByte_ts r hs hc hw
  have hflip (h : wrongGuess s.convention r = true) : t.convention = s.convention.flip ∧
      Memory.read t.atr.buf s.atr.count = s.convention.flip.ts := by
    rw [conventionAfter_of_wrongGuess hs h] at hcv hrd
    exact ⟨hcv, hrd.trans (translate_wrongGuess h)⟩
  refine ⟨t, hok, hst, hcnt, fun hd h3 => ?_, fun hi h3 => ?_, fun hnd hni => ?_⟩
  · have h := hflip (wrongGuess_iff.2 (.inl ⟨hd, h3⟩))
    rw [hd] at h
    exact h
  · have h := hflip (wrongGuess_iff.2 (.inr ⟨hi, h3⟩))
    rw [hi] at h
    exact h
  · have hn : ¬wrongGuess s.convention r = true := fun h => (wrongGuess_iff.1 h).elim hnd hni
    rw [conventionAfter_of_not_wrongGuess hn] at hcv hrd
    exact ⟨hcv, hrd⟩

end Sys2Proof.Machine
end

section
/-! The negotiation step (43_negotiation.md R230, R231): what it does when it runs, what ACQUIRE_ATR leaves of
it, and that of all commands only POWER_ON clears its flag. -/

namespace Sys2Proof.Machine

/-! ### The tables -/

theorem tableEntry_of_getElem? {t : Vector (Option Nat) 16} {i : Nat} {e : Option Nat}
    (h : t[i]? = some e) : tableEntry t i = e := by
  simp [tableEntry, List.getD_eq_getElem?_getD, h]

/-- Two defined entries give the rate (R231, R235). -/
theorem negotiatedBaud_of_entries {c : Config} {ta1 : Byte} {fi di : Nat}
    (hf : c.fiTable[ta1.toNat / 16]? = some (some fi))
    (hd : c.diTable[ta1.toNat % 16]? = some (some di)) :
    negotiatedBaud c ta1 = some (c.fClk * di / fi) := by
  simp only [negotiatedBaud, highNibble_eq, lowNibble_eq, tableEntry_of_getElem? hf,
    tableEntry_of_getElem? hd]

/-- An RFU entry in either table gives none (R231). -/
theorem negotiatedBaud_of_rfu {c : Config} {ta1 : Byte}
    (h : c.fiTable[ta1.toNat / 16]? = some none ∨ c.diTable[ta1.toNat % 16]? = some none) :
    negotiatedBaud c ta1 = none := by
  rw [negotiatedBaud, highNibble_eq, lowNibble_eq]
  obtain hf | hd := h
  · rw [tableEntry_of_getElem? hf]
  · rw [tableEntry_of_getElem? hd]
    cases tableEntry c.fiTable (ta1.toNat / 16) <;> rfl

/-! ### The step -/

/-- R231's condition: the step runs on a complete record with a TA byte, once in a power cycle. -/
def State.negotiates (s : State) (rec : AtrRecord) : Bool :=
  rec.complete && rec.ta1Present && !s.negotiatedThisCycle

theorem negotiate_of_not_negotiates {s : State} {rec : AtrRecord} (h : s.negotiates rec = false) :
    s.negotiate rec = (.notRun, s) := if_neg (Bool.eq_false_iff.1 h)

theorem negotiate_of_baud_none {s : State} {rec : AtrRecord} (h : s.negotiates rec = true)
    (hb : negotiatedBaud s.cfg rec.ta1 = none) :
    s.negotiate rec = (.failed, { s with negotiatedThisCycle := true }) :=
  (if_pos h).trans (by rw [hb])

theorem negotiate_of_baud_some {s : State} {rec : AtrRecord} {baud : Nat}
    (h : s.negotiates rec = true) (hb : negotiatedBaud s.cfg rec.ta1 = some baud) :
    s.negotiate rec = (.ok baud, { s with negotiatedThisCycle := true, baudRate := baud }) :=
  (if_pos h).trans (by rw [hb])

/-- The flag stands if it stood or the step ran (R231). -/
theorem negotiate_flag (s : State) (rec : AtrRecord) :
    (s.negotiate rec).2.negotiatedThisCycle = (s.negotiatedThisCycle || s.negotiates rec) := by
  cases hr : s.negotiates rec
  case false => rw [negotiate_of_not_negotiates hr, Bool.or_false]
  case true =>
    rw [Bool.or_true]
    cases hb : negotiatedBaud s.cfg rec.ta1
    case none => rw [negotiate_of_baud_none hr hb]
    case some baud => rw [negotiate_of_baud_some hr hb]

/-! ### The end of ACQUIRE_ATR -/

theorem State.SameButAtr.cfg {s t : State} (h : s.SameButAtr t) : t.cfg = s.cfg := by
  unfold State.SameButAtr at h
  rw [h]

theorem State.SameButAtr.baudRate {s t : State} (h : s.SameButAtr t) : t.baudRate = s.baudRate := by
  unfold State.SameButAtr at h
  rw [h]

theorem State.SameButAtr.negotiatedThisCycle {s t : State} (h : s.SameButAtr t) :
    t.negotiatedThisCycle = s.negotiatedThisCycle := by
  unfold State.SameButAtr at h
  rw [h]

/-- An ACQUIRE_ATR that returns ends with the step, taken at the ATR rate with the flag as it stood
(R191, R192, R230). -/
theorem acquireAtr_negotiate {s t : State} (h : execAcquireAtr s = .next t) :
    ∃ u : State, u.cfg = s.cfg ∧ u.baudRate = u.cfg.fClk / 372 ∧
      u.negotiatedThisCycle = s.negotiatedThisCycle ∧
      t.baudRate = (u.negotiate u.atrOutput).2.baudRate ∧
      t.negotiatedThisCycle = (u.negotiate u.atrOutput).2.negotiatedThisCycle ∧
      t.lastResult =
        some (.atr { u.atrOutput with negotiation := (u.negotiate u.atrOutput).1 }) := by
  obtain ⟨-, u, hs, -, hf⟩ := acquireAtr_next h
  obtain rfl := finish_next.1 hf
  have hcfg : u.cfg = s.cfg := hs.cfg
  have hbaud : u.baudRate = s.cfg.fClk / 372 := hs.baudRate
  exact ⟨u, hcfg, hcfg ▸ hbaud, hs.negotiatedThisCycle, rfl, rfl, lastResult_emit_returned _ _⟩

/-- Settles O40: the step's three outcomes, from the ATR rate and the flag as it stood. -/
theorem atrRunsNegotiation : Obligations.AtrRunsNegotiation := by
  unfold Obligations.AtrRunsNegotiation
  rintro s t rec h hr runs rfl
  obtain ⟨u, hcfg, hbaud, hflag, htb, htf, hres⟩ := acquireAtr_negotiate h
  rw [hr] at hres
  cases hres
  rw [htb, htf, ← hcfg, ← hbaud, ← hflag]
  refine ⟨negotiate_flag u u.atrOutput, fun hn => ?_, fun hy hb => ?_, fun baud hy hb => ?_⟩
  · rw [negotiate_of_not_negotiates (rec := u.atrOutput) hn]
    exact ⟨rfl, rfl⟩
  · rw [negotiate_of_baud_none (rec := u.atrOutput) hy hb]
    exact ⟨rfl, rfl⟩
  · rw [negotiate_of_baud_some (rec := u.atrOutput) hy hb]
    exact ⟨rfl, rfl⟩

/-! ### The flag over all commands -/

theorem State.SameButApdu.negotiatedThisCycle {s t : State} (h : s.SameButApdu t) :
    t.negotiatedThisCycle = s.negotiatedThisCycle := by
  rw [h.frame]

theorem execSendApdu_negotiatedThisCycle {timeoutMs : Nat} {cla ins p1 p2 p3 : Byte} {dir : Dir}
    {cap : Nat} {s t : State} (h : execSendApdu timeoutMs cla ins p1 p2 p3 dir cap s = .next t) :
    t.negotiatedThisCycle = s.negotiatedThisCycle := by
  obtain ⟨-, -, ⟨-, rfl⟩ | ⟨-, u, sw, hu, -, -, hf⟩⟩ := sendApdu_next h
  · rfl
  · cases finish_next.1 hf
    exact hu.negotiatedThisCycle

/-- Beside POWER_ON, which clears the flag, and ACQUIRE_ATR, which may set it, no command writes it
(R27). -/
theorem exec_negotiatedThisCycle {i : Instr} {s t : State} (h : exec i s = .next t)
    (hp : i ≠ .powerOn) (ha : i ≠ .acquireAtr) :
    t.negotiatedThisCycle = s.negotiatedThisCycle := by
  cases i with
  | powerOn => exact absurd rfl hp
  | acquireAtr => exact absurd rfl ha
  | sendApdu => exact execSendApdu_negotiatedThisCycle h
  | readByte n => obtain ⟨-, -, -, rfl⟩ := readByte_next h; simp
  | writeByte b => obtain ⟨-, -, rfl⟩ := writeByte_next h; simp
  | getConvention => cases finish_next.1 (withSession_next.1 h).2; rfl
  | setConvention inverse => cases finish_next.1 (withSession_next.1 h).2; rfl
  | setClockFreerun run => cases finish_next.1 h; cases run <;> simp
  | glitchPulse d => cases finish_next.1 h; simp [glitchPulse_eq]
  | powerOff => cases finish_next.1 h; simp [State.powerDown]
  | setPower | setReset | triggerPulse | setListening => cases finish_next.1 h; simp

/-- ACQUIRE_ATR never clears the flag. -/
theorem acquireAtr_keeps_flag {s t : State} (h : execAcquireAtr s = .next t)
    (hs : s.negotiatedThisCycle = true) : t.negotiatedThisCycle = true := by
  obtain ⟨u, -, -, hflag, -, htf, -⟩ := acquireAtr_negotiate h
  rw [htf, negotiate_flag, hflag, hs, Bool.true_or]

/-- Settles O38: the step's cases with the rate read off the tables, and a command that is not POWER_ON
keeps a flag that stands. -/
theorem negotiationStep : Obligations.NegotiationStep := by
  unfold Obligations.NegotiationStep
  intro s rec
  refine ⟨fun h => negotiate_of_not_negotiates ?_, fun hc hta hn => ?_, fun i t h hs ht => ?_⟩
  · obtain h | h | h := h <;> simp [State.negotiates, h]
  · have hy : s.negotiates rec = true := by simp [State.negotiates, hc, hta, hn]
    exact ⟨fun fi di hf hd => negotiate_of_baud_some hy (negotiatedBaud_of_entries hf hd),
      fun hrfu => negotiate_of_baud_none hy (negotiatedBaud_of_rfu hrfu)⟩
  · by_contra hp
    have hkeep : t.negotiatedThisCycle = true := by
      by_cases ha : i = .acquireAtr
      · subst ha
        exact acquireAtr_keeps_flag h hs
      · exact (exec_negotiatedThisCycle h hp ha).trans hs
    exact absurd (ht.symm.trans hkeep) Bool.false_ne_true

end Sys2Proof.Machine
end

section
/-! SEND_APDU as a whole (44_apdu.md): what is rejected before any card I/O (R251), that the header goes out
first (R253, R254), and that the command ends if the card falls silent in the end (R267, R269). -/

namespace Sys2Proof.Machine

/-! ### The checks before the sequencer -/

theorem withTimeout_of_lt {s : State} {n : Nat} {k : Host.Outcome State Fault Refusal}
    (h : n < 2 ^ (s.cfg.timerWidth - 1)) : s.withTimeout n k = k := if_pos (decide_eq_true h)

/-- Settles O42: behind the session and the timeout stands the capacity check, which answers the sentinel. -/
theorem capacityFailure : Obligations.CapacityFailure := by
  unfold Obligations.CapacityFailure
  exact fun _ _ _ _ _ _ _ _ _ hv ht hc =>
    (withSession_of_valid hv).trans ((withTimeout_of_lt ht).trans (if_pos hc))

/-! ### The header -/

section
variable {timeoutMs : Nat} {cla ins p1 p2 p3 : Byte} {dir : Dir} {cap : Nat} {s : State}

/-- The sequencer's first step sends the header and releases the line, and its invariant holds from there
on (R253, R254). -/
theorem afterHeader_ok (h : p3.toNat ≤ cap) :
    (s.apduStart timeoutMs cla ins p1 p2 p3 dir cap).sendHeader.loopTest.ApduOk := by
  obtain ⟨-, hm, -, -, -, -, ha, -⟩ := sendHeader_facts (s.apduStart timeoutMs cla ins p1 p2 p3 dir cap)
  refine loopTest_ok ?_ ?_ hm <;> rw [ha]
  · exact h
  · exact Nat.zero_le _

/-- Once it has sent the header, the sequencer only adds to the trace. -/
theorem sendApdu_afterHeader {t : State} (hc : p3.toNat ≤ cap)
    (h : execSendApdu timeoutMs cla ins p1 p2 p3 dir cap s = .next t) :
    (s.apduStart timeoutMs cla ins p1 p2 p3 dir cap).sendHeader.trace <+: t.trace := by
  obtain ⟨hv, ha, -⟩ := sendApdu_next h
  rw [sendApdu_eq hv ha hc, State.apduFuel, apduRun_start] at h
  obtain ⟨u, sw, hs, -, -, -, he⟩ | ⟨he, -⟩ := apduRun_ok (P := fun _ => True)
    (fun _ _ _ _ => trivial) _ _ (afterHeader_ok hc) trivial
  · obtain rfl := finish_next.1 (he.symm.trans h)
    exact hs.trace.trans (List.prefix_append _ _)
  · cases he.symm.trans h

/-! ### The end -/

/-- With a card that falls silent in the end, `apduFuel` steps bring the sequencer to DONE (R267, R269). -/
theorem sendApdu_ends (hv : s.sessionValid = true) (ha : s.admits timeoutMs = true)
    (hc : p3.toNat ≤ cap) (hf : s.env.settles) :
    ∃ u sw, (s.apduStart timeoutMs cla ins p1 p2 p3 dir cap).SameButApdu u ∧ u.ApduOk ∧
      u.apdu.step = .done sw ∧
      execSendApdu timeoutMs cla ins p1 p2 p3 dir cap s = u.apduFinish sw := by
  rw [sendApdu_eq hv ha hc]
  obtain ⟨u, sw, hs, ho, -, hd, he⟩ | ⟨-, hfuel⟩ := apduRun_ok (P := fun _ => True)
    (fun _ _ _ _ => trivial) (s.apduFuel p3) _ (apduStart_ok s hc) trivial
  · exact ⟨u, sw, hs, ho, hd, he⟩
  · exact absurd (hfuel hf) (Nat.not_le.2 (apduStart_rank ..))

end

/-- Settles O45: `sendHeader_facts` says what the trace is after the header, and the rest of the command only
adds to it. -/
theorem headerGoesOutFirst : Obligations.HeaderGoesOutFirst := by
  unfold Obligations.HeaderGoesOutFirst
  intro timeoutMs cla ins p1 p2 p3 dir cap s t hc h
  obtain ⟨-, -, -, -, -, -, -, htr⟩ :=
    sendHeader_facts (s.apduStart timeoutMs cla ins p1 p2 p3 dir cap)
  exact htr ▸ sendApdu_afterHeader hc h

/-- Settles O43: the sequencer comes to DONE, where its invariant has the line released and `count` at most
P3. -/
theorem sendApduCompletes : Obligations.SendApduCompletes := by
  unfold Obligations.SendApduCompletes
  intro timeoutMs cla ins p1 p2 p3 dir cap s hv ht hc hf
  obtain ⟨u, sw, hs, ho, hd, he⟩ := sendApdu_ends (cla := cla) (ins := ins) (p1 := p1) (p2 := p2)
    (dir := dir) hv (decide_eq_true ht) hc hf
  have hp3 : u.apdu.p3 = p3 := by rw [hs.request]; rfl
  refine ⟨_, he, ho.listening (by simp [hd]), _, lastResult_emit_returned _ _, ?_⟩
  exact hp3 ▸ ho.count

end Sys2Proof.Machine
end

section
/-! The negotiated rates (43_negotiation.md R235, R238): they come from defined table entries, whose bounds
make them at least 1. -/

namespace Sys2Proof.Machine

/-- A defined table entry stands in the table. -/
theorem mem_of_tableEntry {t : Vector (Option Nat) 16} {i n : Nat} (h : tableEntry t i = some n) :
    some n ∈ t.toList := by
  rw [tableEntry, List.getD_eq_getElem?_getD, Option.getD_eq_iff] at h
  exact List.mem_of_getElem? (h.resolve_right nofun)

/-- A rate is negotiated from two defined entries (R231). -/
theorem negotiatedBaud_eq_some {c : Config} {ta1 : Byte} {baud : Nat}
    (h : negotiatedBaud c ta1 = some baud) :
    ∃ fi di, some fi ∈ c.fiTable.toList ∧ some di ∈ c.diTable.toList ∧ baud = c.fClk * di / fi := by
  unfold negotiatedBaud at h
  split at h
  · rename_i fi di hf hd
    exact ⟨fi, di, mem_of_tableEntry hf, mem_of_tableEntry hd, (Option.some.inj h).symm⟩
  · cases h

theorem negotiatedBaud_pos {c : Config} (hc : c.Valid) {ta1 : Byte} {baud : Nat}
    (h : negotiatedBaud c ta1 = some baud) : 1 ≤ baud := by
  obtain ⟨fi, di, hf, hd, rfl⟩ := negotiatedBaud_eq_some h
  obtain ⟨hf0, hf1⟩ := hc.fiEntries fi hf
  refine Nat.div_pos ?_ hf0
  calc fi
    _ ≤ c.fClk := hf1.trans hc.fClk
    _ ≤ c.fClk * di := Nat.le_mul_of_pos_right _ (hc.diEntries di hd)

theorem atrBaud_pos {c : Config} (hc : c.Valid) : 1 ≤ atrBaud c :=
  Nat.div_pos ((by decide : 372 ≤ 2048).trans hc.fClk) (by decide)

/-- Settles O39: the entries 1 of the tables are 372 and 1. -/
theorem negotiatedRates : Obligations.NegotiatedRates := by
  unfold Obligations.NegotiatedRates
  intro c hc
  have hf : c.fiTable[1]? = some (some 372) := by rw [Vector.getElem?_eq_getElem (by decide), hc.fiOne]
  have hd : c.diTable[1]? = some (some 1) := by rw [Vector.getElem?_eq_getElem (by decide), hc.diOne]
  refine ⟨?_, fun ta1 baud => negotiatedBaud_pos hc⟩
  rw [negotiatedBaud_of_entries (ta1 := 0x11#8) hf hd, Nat.mul_one]

end Sys2Proof.Machine
end

section
/-! The step: the command it runs, the descriptors it refuses and the idle step (10_state.md R20, 30_encoding.md
R84, 70_reset_and_hazards.md R331). -/

namespace Sys2Proof.Machine

/-! ### The host's next submission -/

/-- A submission's command is the well-formed one whose descriptor it is exactly (R80, R84). -/
theorem command_eq_ok_iff {c : Submission} {i : Instr} :
    c.command = .ok i ↔ i.WellFormed ∧ encode i = c.words := by
  have h : c.command = .ok i ↔ decode c.words = .ok (i, []) := by
    unfold Submission.command
    split <;> simp [*]
  rw [h, decode_eq_ok_iff, List.append_nil]

theorem step_nil {s : State} (h : s.pending = []) : step s = .next s.envTurn := by
  unfold step
  rw [h]

theorem step_of_command {s : State} {c : Submission} {rest : List Submission} {i : Instr}
    (hp : s.pending = c :: rest) (h : c.command = .ok i) : step s = exec i (s.accept c rest) := by
  unfold step
  rw [hp]
  dsimp only
  rw [h]

theorem step_of_command_error {s : State} {c : Submission} {rest : List Submission} {w : Word}
    (hp : s.pending = c :: rest) (h : c.command = .error w) :
    step s = .refused (.illegalCommand w) := by
  unfold step
  rw [hp]
  dsimp only
  rw [h]

theorem command_of_decode_error {c : Submission} {e : DecodeError} (h : decode c.words = .error e) :
    c.command = .error (refusedWord e) := by
  unfold Submission.command
  rw [h]

/-- The accepted state differs from the state by the submission and a turn of the environment. -/
theorem accept_same (s : State) (c : Submission) (rest : List Submission) :
    State.SameButEnv { s with pending := rest, buffer := c.bufferFor s.buffer } (s.accept c rest) :=
  envTurn_same _

/-- What a step that answers a next state has done. -/
theorem step_next {s t : State} (h : step s = .next t) :
    s.pending = [] ∧ t = s.envTurn ∨
      ∃ c rest i, s.pending = c :: rest ∧ exec i (s.accept c rest) = .next t := by
  match hp : s.pending with
  | [] =>
    rw [step_nil hp] at h
    cases h
    exact .inl ⟨rfl, rfl⟩
  | c :: rest =>
    match hc : c.command with
    | .ok i => exact .inr ⟨c, rest, i, rfl, step_of_command hp hc ▸ h⟩
    | .error w =>
      rw [step_of_command_error hp hc] at h
      cases h

/-! ### Illegal descriptors -/

/-- A word whose opcode is not in the map of R83 begins no descriptor. -/
theorem decode_undefinedOpcode {w : Word} (ws : List Word)
    (h : opcodeOf w ∉ [0x01, 0x02, 0x03, 0x04, 0x05, 0x10, 0x11, 0x20, 0x21, 0x22, 0x23, 0x24, 0x30,
      0x40]) : decode (w :: ws) = .error (.undefinedOpcode w) := by
  simp only [decode]
  split
  case h_15 => rfl
  all_goals simp_all

theorem withReserved_eq_error {w : Word} {n : Nat} {i : Instr} {rest : List Word} {e : DecodeError}
    (h : withReserved w n i rest = .error e) : refusedWord e = w := by
  unfold withReserved at h
  split at h
  · cases h
  · cases h
    rfl

/-- A descriptor of one word is refused with that word. -/
theorem decode_singleton_error {w : Word} {e : DecodeError} (h : decode [w] = .error e) :
    refusedWord e = w := by
  simp only [decode] at h
  split at h
  case h_9 => cases h
  case h_14 | h_15 => cases h; rfl
  all_goals exact withReserved_eq_error h

theorem command_error_of_no_encode {c : Submission} (h : ∀ i : Instr, i.WellFormed → encode i ≠ c.words) :
    ∃ w, c.command = .error w := by
  match hc : c.command with
  | .error w => exact ⟨w, rfl⟩
  | .ok i =>
    obtain ⟨hw, he⟩ := command_eq_ok_iff.1 hc
    exact absurd he (h i hw)

/-- One word that no command encodes to is refused with that word: its decoding leaves no word over. -/
theorem command_singleton_error {c : Submission} {w : Word} (hc : c.words = [w])
    (h : ∀ i : Instr, i.WellFormed → encode i ≠ [w]) : c.command = .error w := by
  match hd : decode c.words with
  | .error e =>
    rw [command_of_decode_error hd]
    rw [hc] at hd
    rw [decode_singleton_error hd]
  | .ok (i, rest) =>
    obtain ⟨hw, he⟩ := decode_eq_ok_iff.1 hd
    rw [hc, encode, List.cons_append, List.cons.injEq, List.append_eq_nil_iff] at he
    obtain ⟨hword, hlater, -⟩ := he
    exact absurd (by rw [encode, hword, hlater]) (h i hw)

/-- Settles O3: each clause names what the decoder answers, and a step refuses with the word of that
error. -/
theorem illegalDescriptorRefused : Obligations.IllegalDescriptorRefused := by
  unfold Obligations.IllegalDescriptorRefused
  refine ⟨fun s c rest w ws hp hc ho => ?_, fun s c rest w hp hc h => ?_, fun s c rest hp h => ?_⟩
  · exact step_of_command_error hp
      (command_of_decode_error (hc ▸ decode_undefinedOpcode ws ho))
  · exact step_of_command_error hp (command_singleton_error hc h)
  · obtain ⟨w, hw⟩ := command_error_of_no_encode h
    exact ⟨w, step_of_command_error hp hw⟩

/-- Settles O4: the decoder computes on the words of section 2.1. -/
theorem specWordsDecode : Obligations.SpecWordsDecode := by
  unfold Obligations.SpecWordsDecode
  exact ⟨rfl, rfl, rfl, rfl, rfl, rfl, rfl⟩

/-- Settles O5: what decodes with no word left is the submission's command. -/
theorem stepRunsDecodedCommand : Obligations.StepRunsDecodedCommand := by
  unfold Obligations.StepRunsDecodedCommand
  intro s c rest i hp hd
  obtain ⟨hw, he⟩ := decode_eq_ok_iff.1 hd
  rw [List.append_nil] at he
  exact ⟨step_of_command hp (command_eq_ok_iff.2 ⟨hw, he⟩), accept_same s c rest⟩

/-- Settles O6: an idle step is one turn of the environment. -/
theorem idleBlockWaits : Obligations.IdleBlockWaits := by
  unfold Obligations.IdleBlockWaits
  exact fun s hp => ⟨s.envTurn, step_nil hp, envTurn_same s⟩

end Sys2Proof.Machine
end

section
/-! The Hardware Control Unit and the power sequences (40_hcu.md R123, R125 to R127, R129, R131): the state in
which each command ends, up to what the environment writes in its waits. -/

namespace Sys2Proof.Machine

/-- Settles O9: a start is one write; a stop is `stopClock`, whose wait a stopped clock does not enter. -/
theorem setClockFreerunEffect : Obligations.SetClockFreerunEffect := by
  unfold Obligations.SetClockFreerunEffect
  intro s
  refine ⟨fun _ => rfl, ?_, fun hr => ?_, fun hr => ?_⟩
  · exact finish_next.2 (emit_emit { s with clkRunning := true } _ _).symm
  · refine finish_next.2 ?_
    rw [if_neg Bool.false_ne_true, stopClock_stopped hr]
    simp [State.emit]
  · refine returns_finish.2 ⟨?_, rfl⟩
    simpa [State.emit, hr] using (stopClock_same s).emit (.returned .nothing)

/-- Settles O10: latency, pulse and `Glitch(d)` go to the trace, then time goes on. -/
theorem glitchPulseEffect : Obligations.GlitchPulseEffect := by
  unfold Obligations.GlitchPulseEffect
  intro d s
  refine ⟨rfl, returns_finish.2 ?_⟩
  have h := (elapse_same (((s.emit (.exactNs s.cfg.glitchLatencyNs)).glitchPulse d).emit (.glitch d))
    ((s.cfg.glitchLatencyNs + d * s.cfg.tickNs) / 1000000)).emit (.returned .nothing)
  rw [glitchPulse_eq] at h ⊢
  simpa [State.emit] using h

/-- Settles O11: the edges and the hold go to the trace, then time goes on. -/
theorem triggerPulseEffect : Obligations.TriggerPulseEffect := by
  unfold Obligations.TriggerPulseEffect
  intro s
  refine ⟨rfl, returns_finish.2 ?_⟩
  have h := (elapse_same (((s.setTrigger true).emit (.holdNs s.cfg.triggerWidthNs)).setTrigger false)
    (s.cfg.triggerWidthNs / 1000000)).emit (.returned .nothing)
  simpa [State.setTrigger, State.emit] using h

/-- The wait of the cold reset moves the counter on by 13, or by what its turn counts (R130). -/
theorem powerUp_counter (s : State) :
    s.powerUp.msCounter = (s.msCounter + max 13 s.nextTicks) % 2 ^ s.cfg.timerWidth :=
  elapse_counter ((s.newSession.setRst true).emit (.waitMs Config.resetWaitMs)) 13

/-- The cold-reset order writes the session, the outputs and the trace, and its wait is the environment's
(R128, R129). -/
theorem powerUp_eq (s : State) :
    s.powerUp = { s with
      sessionValid := true, powerState := .resetting, convention := .direct,
      baudRate := atrBaud s.cfg, negotiatedThisCycle := false,
      rstAsserted := false, vccOn := true, ioMode := .released, rxHold := none,
      clkRunning := true, clkHigh := s.powerUp.clkHigh, msCounter := s.powerUp.msCounter,
      env := s.powerUp.env,
      trace := s.trace ++ [.pin (.rst true), .waitMs 12, .pin (.vcc true), .pin (.io .released),
        .pin (.clk true), .pin (.rst false)] } := by
  have h := waitMs_same (s.newSession.setRst true) Config.resetWaitMs
  unfold State.SameButEnv at h
  unfold State.powerUp
  rw [h]
  simp [State.emit, State.setVcc, State.setRst, State.idleLine, State.startClock, State.newSession,
    Config.resetWaitMs]

/-- Settles O12: the cold-reset order, then the power state Active and the result. -/
theorem powerOnEffect : Obligations.PowerOnEffect := by
  unfold Obligations.PowerOnEffect
  intro s
  refine ⟨rfl, returns_finish.2 ⟨?_, powerUp_counter s⟩⟩
  have h := powerUp_eq s
  rw [h]
  simp [State.emit, atrBaud]

/-- The power-down order writes the outputs and the trace, and the wait for a low phase is the environment's
(R131). -/
theorem powerDown_eq (s : State) :
    s.powerDown = { s with
      rstAsserted := true, clkRunning := false, clkHigh := false, ioMode := .driveLow, rxHold := none,
      vccOn := false, msCounter := s.powerDown.msCounter, env := s.powerDown.env,
      trace := s.trace ++ .pin (.rst true) :: (if s.clkRunning then [Event.clkLowWait] else []) ++
        [.pin (.clk false), .pin (.io .driveLow), .pin (.vcc false)] } := by
  have h := stopClock_same (s.setRst true)
  rw [setRst_clkRunning] at h
  unfold State.SameButEnv at h
  unfold State.powerDown
  rw [h]
  simp [State.emit, State.setVcc, State.setRst, State.idleLine]

/-- Settles O13: the power-down order, then the power state and the result; a stopped clock is not waited
for. -/
theorem powerOffEffect : Obligations.PowerOffEffect := by
  unfold Obligations.PowerOffEffect
  intro s
  refine ⟨rfl, returns_finish.2 ⟨?_, fun hr => ?_⟩⟩
  · have h := powerDown_eq s
    rw [h]
    simp [State.emit]
  · have hs := stopClock_stopped (s := s.setRst true) hr
    simp [State.powerDown, hs]

end Sys2Proof.Machine
end

section
/-! The deadline test (60_exceptions.md R311), the reception of a character (41_transport.md R159), and what
READ_BYTE and WRITE_BYTE do with characters (R160, R166, R168). -/

namespace Sys2Proof.Machine

/-! ### The deadline test -/

/-- A deadline has elapsed if the difference modulo `2^W` lies in the lower half of the range (R10, R311). -/
theorem elapsedAt_iff {w a b : Nat} :
    elapsedAt w a b = true ↔ (a + 2 ^ w - b % 2 ^ w) % 2 ^ w < 2 ^ (w - 1) := by
  have hd : (a + 2 ^ w - b % 2 ^ w) % 2 ^ w < 2 ^ w := Nat.mod_lt _ (Nat.two_pow_pos w)
  have hc : ((2 : Int) ^ w) = ((2 ^ w : Nat) : Int) := by push_cast; rfl
  rw [elapsedAt, decide_eq_true_iff, sdiffW, hc]
  split <;> omega

/-- The difference of two counter values that count from one start is the difference of the counts. -/
theorem counter_sub_mod {m n : Nat} (hm : 0 < m) (hn : n ≤ m) (t0 k : Nat) :
    ((t0 + k) % m + m - (t0 + n) % m % m) % m = (k + m - n) % m := by
  have hle : (t0 + n) % m % m ≤ (t0 + k) % m + m :=
    (Nat.mod_lt _ hm).le.trans (Nat.le_add_left ..)
  have hb : (t0 + n) % m % m ≡ t0 + n [MOD m] := (Nat.mod_modEq _ m).trans (Nat.mod_modEq _ m)
  refine Nat.ModEq.add_right_cancel hb ?_
  calc (t0 + k) % m + m - (t0 + n) % m % m + (t0 + n) % m % m
    _ = (t0 + k) % m + m := Nat.sub_add_cancel hle
    _ ≡ t0 + k + m [MOD m] := (Nat.mod_modEq _ m).add_right m
    _ = k + m - n + (t0 + n) := by omega

/-- Settles O30: the difference is `k - n`, and both sides of 0 fit in half of the counter's range. -/
theorem deadlineTestSurvivesWraparound : Obligations.DeadlineTestSurvivesWraparound := by
  unfold Obligations.DeadlineTestSurvivesWraparound
  intro w t0 n k hw hn hk
  have hM : 2 ^ w = 2 * 2 ^ (w - 1) := by
    conv_lhs => rw [← Nat.sub_add_cancel (Nat.one_le_of_lt hw), Nat.pow_succ']
  rw [elapsedAt_iff, counter_sub_mod (Nat.two_pow_pos w) (by omega), hM]
  rcases Nat.lt_or_ge k n with hlt | hge
  · rw [Nat.mod_eq_of_lt (by omega)]
    omega
  · rw [show k + 2 * 2 ^ (w - 1) - n = k - n + 2 * 2 ^ (w - 1) by omega, Nat.add_mod_right,
      Nat.mod_eq_of_lt (by omega)]
    omega

/-- A deadline `n` from now has elapsed exactly if `n` is 0 (R311). -/
theorem elapsed_deadlineIn {s : State} {n : Nat} (hw : 2 ≤ s.cfg.timerWidth)
    (hc : s.msCounter < 2 ^ s.cfg.timerWidth) (hn : n < 2 ^ (s.cfg.timerWidth - 1)) :
    s.elapsed (s.deadlineIn n) = true ↔ n = 0 := by
  have h := deadlineTestSurvivesWraparound s.cfg.timerWidth s.msCounter n 0 hw hn
    (Nat.add_pos_right _ (Nat.two_pow_pos _))
  rw [Nat.add_zero, Nat.mod_eq_of_lt hc, Nat.le_zero] at h
  exact h

/-- The time until a deadline `n` from now moves the counter on by `n`. -/
theorem expire_deadlineIn {s : State} {n : Nat} (hw : 2 ≤ s.cfg.timerWidth)
    (hc : s.msCounter < 2 ^ s.cfg.timerWidth) (hn : n < 2 ^ (s.cfg.timerWidth - 1)) :
    s.expire (s.deadlineIn n) =
      { s with msCounter := (s.msCounter + n) % 2 ^ s.cfg.timerWidth } := by
  unfold State.expire
  split
  · rename_i he
    obtain rfl := (elapsed_deadlineIn hw hc hn).1 he
    rw [Nat.add_zero, Nat.mod_eq_of_lt hc]
  · rfl

/-! ### The reception of a character -/

/-- The frame is at the block's current etu (R159). -/
def State.AtEtu (s : State) (c : CardFrame) : Prop :=
  c.rate = none ∨ s.sessionValid = true ∧ c.rate = some s.baudRate

theorem receive_of_atEtu {s : State} {c : CardFrame} (h : s.AtEtu c) (hl : s.ioMode = .released) :
    s.receive c = if s.rxHold = none ∨ c.replace = true then { s with rxHold := some c.frame.data }
      else s := by
  have ha : s.assembled c = some c.frame.data :=
    (if_pos h).trans (congrArg some (assemble_levels c.frame))
  simp only [State.receive, State.listening, hl, ha, beq_self_eq_true, if_true]

theorem receive_of_not_listening {s : State} (c : CardFrame) (hl : s.ioMode ≠ .released) :
    s.receive c = s := by
  simp [State.receive, State.listening, hl]

/-- Settles O18: what is assembled at the current etu is the data byte, and the three cases are the tests of
`receive`. -/
theorem characterReception : Obligations.CharacterReception := by
  unfold Obligations.CharacterReception
  intro s c h
  refine ⟨fun hl hr => ?_, fun hl hh hr => ?_, receive_of_not_listening c⟩
  · rw [receive_of_atEtu h hl, if_pos hr]
  · rw [receive_of_atEtu h hl, if_neg (by simp [hh, hr])]

/-- Without a script, a frame at the current etu that is next is the character RxChar returns (R160). -/
theorem rxChar_of_atEtu {s : State} {f : CardFrame} {more : List CardFrame} (hs : s.env.script = [])
    (hl : s.ioMode = .released) (hh : s.rxHold = none) (hc : s.env.card = f :: more)
    (hf : s.AtEtu f) (n : Nat) :
    s.rxChar n = (some (translate s.convention f.frame.data), s.withCard more) := by
  have hr : (s.withCard more).receive f = { s.withCard more with rxHold := some f.frame.data } := by
    rw [receive_of_atEtu (by exact hf) (by exact hl), if_pos (.inl hh)]
  have hpoll : tailPoll (s.deadlineIn n) (f :: more) s = (some f.frame.data, s.withCard more) := by
    rw [tailPoll, hr]
    simp [State.clearHold, State.withCard, ← hh]
  rw [rxChar_unscripted hs, awaitChar_unscripted hs, State.lastPolls, hh, hc]
  dsimp only
  rw [hpoll]
  rfl

/-- A character that RxChar returns has been taken. -/
theorem rxChar_taken {s : State} {n : Nat} {b : Byte} (h : (s.rxChar n).1 = some b) :
    (s.rxChar n).2.rxHold = none := by
  refine pollLoop_taken (s.envTurn.deadlineIn n) s.envTurn.env.script.length s.envTurn fun h0 => ?_
  simp [State.rxChar, State.awaitChar, h0] at h

/-- RxChar returns no character only once its deadline has elapsed. -/
theorem rxChar_timeout {s : State} {n : Nat} (h : (s.rxChar n).1 = none) :
    (s.rxChar n).2.elapsed (s.envTurn.deadlineIn n) = true :=
  pollLoop_timeout _ _ _ (deadlineIn_lt _ _) (Option.map_eq_none_iff.1 h)

/-! ### READ_BYTE and WRITE_BYTE -/

/-- READ_BYTE past its checks is RxChar and its result (R166). -/
theorem execReadByte_eq {s : State} {n : Nat} (hv : s.sessionValid = true) (hl : s.ioMode = .released)
    (hn : n < 2 ^ (s.cfg.timerWidth - 1)) :
    execReadByte n s = (s.rxChar n).2.finish (.byte (s.rxChar n).1) := by
  rw [execReadByte, withSession_of_valid hv, if_pos hl, withTimeout_of_lt hn]

/-- Settles O20: RxChar writes what the environment writes, and its two results are `rxChar_taken` with
`rxChar_source` and `rxChar_timeout`. -/
theorem readByteReturns : Obligations.ReadByteReturns := by
  unfold Obligations.ReadByteReturns
  intro n s hv hl hn _
  rw [show exec (.readByte n) s = _ from execReadByte_eq hv hl hn, returns_finish]
  exact ⟨(s.rxChar n).1, (rxChar_same s n).emit _,
    fun b hb => ⟨rxChar_taken hb, rxChar_source s n hb⟩, rxChar_timeout⟩

/-- Settles O21: without a script a held byte is taken at once, and else the card's next frame arrives. -/
theorem readByteHeldByteFirst : Obligations.ReadByteHeldByteFirst := by
  unfold Obligations.ReadByteHeldByteFirst
  intro n s hv hl hn hs
  refine ⟨fun r hh => ?_, fun f more hh hc hf => ?_⟩
  · rw [show exec (.readByte n) s = _ from execReadByte_eq hv hl hn, rxChar_held hs hh]
    rfl
  · have hf : s.AtEtu f := hf.imp_right fun h => ⟨hv, h⟩
    rw [show exec (.readByte n) s = _ from execReadByte_eq hv hl hn,
      rxChar_of_atEtu hs hl hh hc hf]
    rfl

/-- Settles O22: without a card the deadline passes, which is `n` counts on. -/
theorem readByteSilentCard : Obligations.ReadByteSilentCard := by
  unfold Obligations.ReadByteSilentCard
  intro n s hv hl hn hw hc hs hcard hf hh
  rw [show exec (.readByte n) s = _ from execReadByte_eq hv hl hn, rxChar_silent hs hh hcard hf,
    expire_deadlineIn hw hc hn]
  rfl

/-- Settles O23: past the two checks WRITE_BYTE is one `TxChar`, during which the block does not listen. -/
theorem writeByteSends : Obligations.WriteByteSends := by
  unfold Obligations.WriteByteSends
  intro b s hv hm
  have he : exec (.writeByte b) s = (s.txChar b).finish .nothing := by
    rw [show exec (.writeByte b) s = execWriteByte b s from rfl, execWriteByte,
      withSession_of_valid hv, if_pos hm]
  refine ⟨rfl, he ▸ returns_finish.2 ⟨?_, ?_⟩⟩
  · simpa [State.emit, State.txEvents, Config.guardUnitUs] using
      (txChar_same s b).emit (.returned .nothing)
  · exact txChar_hold_deaf (by simp [State.listening, hm]) b

end Sys2Proof.Machine
end

section
/-! How a command stops (60_exceptions.md R302, 70_reset_and_hazards.md R343): the faults and refusals of each
command and what they need. -/

namespace Sys2Proof.Machine

/-! ### Without a session, and with a wide timeout -/

/-- Settles O26: the six commands have the session check in front, and the eight others end in `finish`. -/
theorem noSessionFaults : Obligations.NoSessionFaults := by
  unfold Obligations.NoSessionFaults
  intro i s hv
  cases i with
  | readByte | writeByte | getConvention | setConvention | acquireAtr | sendApdu =>
    exact ⟨fun _ => withSession_of_not_valid hv, fun h => absurd (by simp [Instr.opcode]) h⟩
  | setPower | setReset | setClockFreerun | glitchPulse | triggerPulse | powerOn | powerOff
  | setListening =>
    exact ⟨fun h => absurd h (by simp [Instr.opcode]), fun _ => ⟨_, rfl⟩⟩

theorem withTimeout_of_le {s : State} {n : Nat} {k : Host.Outcome State Fault Refusal}
    (h : 2 ^ (s.cfg.timerWidth - 1) ≤ n) : s.withTimeout n k = .refused (.timeoutNotAdmitted n) :=
  if_neg (by simpa [State.admits] using h)

/-- Settles O28: the admission stands behind the session and the direction, and before the capacity. -/
theorem wideTimeoutRefused : Obligations.WideTimeoutRefused := by
  unfold Obligations.WideTimeoutRefused
  exact fun n s hv hn => ⟨
    fun hl => (withSession_of_valid hv).trans ((if_pos hl).trans (withTimeout_of_le hn)),
    fun _ _ _ _ _ _ _ => (withSession_of_valid hv).trans (withTimeout_of_le hn)⟩

/-! ### The faults of READ_BYTE and WRITE_BYTE -/

/-- READ_BYTE faults without a session or while it does not listen. -/
theorem readByte_fault {s : State} {n : Nat} {f : Fault} (h : execReadByte n s = .fault f) :
    s.sessionValid = false ∧ f = .noSession 0x21 ∨
      s.sessionValid = true ∧ f = .directionFault 0x21 s.ioMode ∧ s.ioMode ≠ .released := by
  refine (withSession_fault.1 h).imp_right fun ⟨hv, hk⟩ => ⟨hv, ?_⟩
  split at hk
  · exact absurd (withTimeout_fault.1 hk).2 finish_ne_fault
  · rename_i hl
    cases hk
    exact ⟨rfl, hl⟩

/-- WRITE_BYTE faults without a session or while it is not transmit-armed. -/
theorem writeByte_fault {s : State} {b : Byte} {f : Fault} (h : execWriteByte b s = .fault f) :
    s.sessionValid = false ∧ f = .noSession 0x22 ∨
      s.sessionValid = true ∧ f = .directionFault 0x22 s.ioMode ∧ s.ioMode ≠ .driveHigh := by
  refine (withSession_fault.1 h).imp_right fun ⟨hv, hk⟩ => ⟨hv, ?_⟩
  split at hk
  · exact absurd hk finish_ne_fault
  · rename_i hm
    cases hk
    exact ⟨rfl, hm⟩

/-! ### How a command comes to be refused -/

theorem finish_ne_refused {s : State} {r : Result} {e : Refusal} : s.finish r ≠ .refused e := nofun

theorem withSession_refused {s : State} {opcode : Nat} {k : Host.Outcome State Fault Refusal}
    {e : Refusal} : s.withSession opcode k = .refused e ↔ s.sessionValid = true ∧ k = .refused e := by
  unfold State.withSession
  split <;> simp_all

theorem withTimeout_refused {s : State} {n : Nat} {k : Host.Outcome State Fault Refusal} {e : Refusal} :
    s.withTimeout n k = .refused e ↔
      2 ^ (s.cfg.timerWidth - 1) ≤ n ∧ e = .timeoutNotAdmitted n ∨
        n < 2 ^ (s.cfg.timerWidth - 1) ∧ k = .refused e := by
  rcases Nat.lt_or_ge n (2 ^ (s.cfg.timerWidth - 1)) with h | h
  · simp [withTimeout_of_lt h, h]
  · simp [withTimeout_of_le h, Nat.not_lt.2 h, h, eq_comm]

/-- READ_BYTE refuses a wide timeout only. -/
theorem readByte_refused {s : State} {n : Nat} {e : Refusal} (h : execReadByte n s = .refused e) :
    e = .timeoutNotAdmitted n ∧ 2 ^ (s.cfg.timerWidth - 1) ≤ n := by
  have hk := (withSession_refused.1 h).2
  split at hk
  · obtain ⟨hn, he⟩ | ⟨-, hk⟩ := withTimeout_refused.1 hk
    · exact ⟨he, hn⟩
    · exact absurd hk finish_ne_refused
  · cases hk

theorem writeByte_ne_refused {s : State} {b : Byte} {e : Refusal} : execWriteByte b s ≠ .refused e := by
  intro h
  have hk := (withSession_refused.1 h).2
  split at hk <;> cases hk

/-- ACQUIRE_ATR ends or faults. -/
theorem acquireAtr_ne_refused {s : State} {e : Refusal} : execAcquireAtr s ≠ .refused e := by
  intro h
  have hv := (withSession_refused.1 h).1
  obtain ⟨u, hl, -⟩ := atrLoop_good s.atrEntry (atrEntry_good s) 33 (by omega)
  rw [acquireAtr_eq hv hl] at h
  exact finish_ne_refused h

/-- A SEND_APDU past its checks ends in a state that has what the steps of the sequencer keep, or never ends,
under a flood of the card (R267). -/
theorem sendApdu_outcome {P : State → Prop} (hP : ∀ u v, P u → u.apduStep = .ok v → P v) {n : Nat}
    {cla ins p1 p2 p3 : Byte} {dir : Dir} {cap : Nat} {s : State} (hv : s.sessionValid = true)
    (hn : n < 2 ^ (s.cfg.timerWidth - 1)) (hc : p3.toNat ≤ cap)
    (h0 : P (s.apduStart n cla ins p1 p2 p3 dir cap)) :
    (∃ u sw, (s.apduStart n cla ins p1 p2 p3 dir cap).SameButApdu u ∧ P u ∧ u.apdu.step = .done sw ∧
      execSendApdu n cla ins p1 p2 p3 dir cap s = u.apduFinish sw) ∨
    (execSendApdu n cla ins p1 p2 p3 dir cap s = .fault .commandNeverEnds ∧ s.env.flood ≠ none) := by
  rw [sendApdu_eq hv (decide_eq_true hn) hc]
  obtain ⟨u, sw, hs, -, hu, hd, he⟩ | ⟨he, hfuel⟩ :=
    apduRun_ok hP (s.apduFuel p3) _ (apduStart_ok s hc) h0
  · exact .inl ⟨u, sw, hs, hu, hd, he⟩
  · exact .inr ⟨he, fun hf => Nat.not_le.2 (apduStart_rank ..) (hfuel hf)⟩

/-- SEND_APDU refuses a wide timeout only. -/
theorem sendApdu_refused {n : Nat} {cla ins p1 p2 p3 : Byte} {dir : Dir} {cap : Nat} {s : State}
    {e : Refusal} (h : execSendApdu n cla ins p1 p2 p3 dir cap s = .refused e) :
    e = .timeoutNotAdmitted n ∧ 2 ^ (s.cfg.timerWidth - 1) ≤ n := by
  obtain ⟨hv, hk⟩ := withSession_refused.1 h
  obtain ⟨hn, he⟩ | ⟨hn, hk⟩ := withTimeout_refused.1 hk
  · exact ⟨he, hn⟩
  rcases Nat.lt_or_ge cap p3.toNat with hc | hc
  · rw [if_pos hc] at hk
    exact absurd hk finish_ne_refused
  · obtain ⟨u, sw, -, -, -, he⟩ | ⟨he, -⟩ := sendApdu_outcome (P := fun _ => True)
      (fun _ _ _ _ => trivial) (cla := cla) (ins := ins) (p1 := p1) (p2 := p2) (dir := dir) hv hn hc trivial
    · exact absurd (he.symm.trans h) finish_ne_refused
    · cases he.symm.trans h

/-- Settles O29: the commands without a check in front never stop, and the lemmas above list the stops of
the others. -/
theorem onlyTheNamedStops : Obligations.OnlyTheNamedStops := by
  unfold Obligations.OnlyTheNamedStops
  refine ⟨fun i s f h => ?_, fun i s e h => ?_⟩
  · cases i with
    | setPower | setReset | setClockFreerun | glitchPulse | triggerPulse | powerOn | powerOff
    | setListening => exact absurd h finish_ne_fault
    | readByte =>
      obtain ⟨hv, hf⟩ | ⟨hv, hf, hm⟩ := readByte_fault h
      · exact .inl ⟨hf, hv, by simp [Instr.opcode]⟩
      · exact .inr (.inl ⟨hf, hv, .inl ⟨rfl, hm⟩⟩)
    | writeByte =>
      obtain ⟨hv, hf⟩ | ⟨hv, hf, hm⟩ := writeByte_fault h
      · exact .inl ⟨hf, hv, by simp [Instr.opcode]⟩
      · exact .inr (.inl ⟨hf, hv, .inr ⟨rfl, hm⟩⟩)
    | getConvention | setConvention =>
      obtain ⟨hv, hf⟩ := withSession_finish_fault h
      exact .inl ⟨hf, hv, by simp [Instr.opcode]⟩
    | acquireAtr =>
      obtain ⟨hv, hf⟩ := acquireAtr_fault h
      exact .inl ⟨hf, hv, by simp [Instr.opcode]⟩
    | sendApdu =>
      obtain ⟨hv, hf⟩ | ⟨hv, hf, hfl⟩ := sendApdu_fault h
      · exact .inl ⟨hf, hv, by simp [Instr.opcode]⟩
      · exact .inr (.inr ⟨hf, rfl, hv, hfl⟩)
  · cases i with
    | setPower | setReset | setClockFreerun | glitchPulse | triggerPulse | powerOn | powerOff
    | setListening => exact absurd h finish_ne_refused
    | getConvention | setConvention => exact absurd (withSession_refused.1 h).2 finish_ne_refused
    | writeByte => exact absurd h writeByte_ne_refused
    | acquireAtr => exact absurd h acquireAtr_ne_refused
    | readByte n =>
      obtain ⟨he, hn⟩ := readByte_refused h
      exact ⟨n, he, hn, .inl rfl⟩
    | sendApdu n =>
      obtain ⟨he, hn⟩ := sendApdu_refused h
      exact ⟨n, he, hn, .inr ⟨_, _, _, _, _, _, _, rfl⟩⟩

end Sys2Proof.Machine
end

section
/-! The format bytes of the ATR (42_atr.md R195, R197 to R202): the registers after a byte that is not TS,
through the bits of the byte and of the pending group. -/

namespace Sys2Proof.Machine

/-! ### The presence bits -/

theorem toNat_presence (b : Byte) : (presence b).toNat = b.toNat / 16 := by
  rw [presence, highNibble_eq, BitVec.toNat_ofNat, Nat.mod_eq_of_lt (by omega)]

/-- The presence bits are the bits of the high nibble (R89). -/
theorem presence_getLsbD (b : Byte) (i : Nat) : (presence b).getLsbD i = b.getLsbD (i + 4) := by
  have h : b.toNat / 16 = b.toNat >>> 4 := (Nat.shiftRight_eq_div_pow b.toNat 4).symm
  rw [BitVec.getLsbD, toNat_presence, h, Nat.testBit_shiftRight, Nat.add_comm, BitVec.getLsbD]

theorem presenceCount_presence (b : Byte) : presenceCount (presence b) =
    (b.getLsbD 4).toNat + (b.getLsbD 5).toNat + (b.getLsbD 6).toNat + (b.getLsbD 7).toNat := by
  simp only [presenceCount_eq, groupSize, presence_getLsbD]

theorem nextAtrState_presence (b : Byte) : nextAtrState (presence b) =
    if b.getLsbD 4 then .ta else if b.getLsbD 5 then .tb else if b.getLsbD 6 then .tc
      else if b.getLsbD 7 then .td else .hist := by
  simp only [nextAtrState, presence_getLsbD]

/-- A byte that was read clears its own presence bit and no other (R199, R200). -/
theorem clearPending_getLsbD (p : BitVec 4) {i : Nat} (hi : i < 4) (k : Nat) :
    (clearPending p i).getLsbD k = (p.getLsbD k && k != i) := by
  have hbit : (1#4 <<< i).getLsbD k = (k == i) := by
    refine (BitVec.getLsbD_twoPow i k).trans ?_
    rw [Bool.eq_iff_iff]
    simp only [Bool.and_eq_true, decide_eq_true_eq, beq_iff_eq]
    omega
  rw [clearPending, BitVec.getLsbD_and, BitVec.getLsbD_not, hbit]
  rcases Nat.lt_or_ge k 4 with hk | hk
  · rw [decide_eq_true hk, Bool.true_and]
    rfl
  · rw [BitVec.getLsbD_of_ge p k hk, Bool.false_and, Bool.false_and]

/-- The next class is the first still pending beside the one just read (R198). -/
theorem nextAtrState_clearPending (p : BitVec 4) {i : Nat} (hi : i < 4) :
    nextAtrState (clearPending p i) =
      if p.getLsbD 0 && 0 != i then .ta else if p.getLsbD 1 && 1 != i then .tb
        else if p.getLsbD 2 && 2 != i then .tc else if p.getLsbD 3 && 3 != i then .td else .hist := by
  simp only [nextAtrState, clearPending_getLsbD p hi]

/-! ### A byte after TS -/

/-- A byte after the first is read and stored under the convention in force: there is no auto-detect
(R196). -/
theorem atrByte_of_ne_ts {s : State} (r : Byte) (hs : s.atr.state ≠ .ts) (hc : s.atr.count < 32) :
    s.atrByte r = .ok { s with
      atr := { ({ s.atr with
          deadline := (s.atr.deadline + s.cfg.atrExtendMs) % 2 ^ s.cfg.timerWidth }.read
            (translate s.convention r)) with
        buf := Memory.write s.atr.buf s.atr.count (translate s.convention r),
        count := s.atr.count + 1 } } := by
  have hcv : s.conventionAfter r = s.convention := if_neg fun h => hs h.1
  rw [atrByte_eq s r hc, hcv]

/-- Settles O35: the registers after the byte, by its class. -/
theorem formatBytesExtendTheLength : Obligations.FormatBytesExtendTheLength := by
  unfold Obligations.FormatBytesExtendTheLength
  rintro s r b rfl hc
  refine ⟨fun hs => ?_, fun hs => ?_, ?_, ?_⟩
  · refine ⟨_, atrByte_of_ne_ts r (by simp [hs]) hc, ?_⟩
    simp [AtrEngine.read, hs, lowNibble_eq, toNat_presence, presenceCount_presence,
      nextAtrState_presence]
  · refine ⟨_, atrByte_of_ne_ts r (by simp [hs]) hc, ?_⟩
    simp [AtrEngine.read, hs, toNat_presence, presenceCount_presence, nextAtrState_presence]
  · rintro p rfl hs
    refine ⟨_, atrByte_of_ne_ts r (by simp [hs]) hc, ?_⟩
    simp [AtrEngine.read, AtrEngine.clear, hs, nextAtrState_clearPending, clearPending_getLsbD]
  · rintro p rfl hs
    refine ⟨_, atrByte_of_ne_ts r (by simp [hs]) hc, ?_⟩
    simp [AtrEngine.read, AtrEngine.clear, hs, nextAtrState_clearPending, clearPending_getLsbD]

/-- Settles O36: the registers after a TA byte, and the byte read back from the buffer. -/
theorem firstTaRetained : Obligations.FirstTaRetained := by
  unfold Obligations.FirstTaRetained
  intro s r hs hc hw
  have hta : s.atr.ta1 ≠ none → s.atr.ta1.or (some (translate s.convention r)) = s.atr.ta1 := by
    cases s.atr.ta1 <;> simp
  refine ⟨_, atrByte_of_ne_ts r (by simp [hs]) hc, ?_⟩
  simp +contextual [AtrEngine.read, AtrEngine.clear, hs, hta, nextAtrState_clearPending, clearPending_getLsbD,
    Memory.read_write_same hw]

end Sys2Proof.Machine
end

section
/-! ACQUIRE_ATR as a whole (42_atr.md R191 to R206): that it ends, what its end leaves alone and when it is
short of the computed length, for every card. -/

namespace Sys2Proof.Machine

/-! ### The loop under every card -/

/-- `u` is a state of the loop of an ACQUIRE_ATR begun in `s`: the overall deadline has been extended once
for each byte received (R192, R195). -/
structure State.InAtrLoop (s u : State) : Prop where
  same : s.atrEntry.SameButAtr u
  good : u.atr.Good
  deadline : u.atr.deadline =
    (s.msCounter + s.cfg.atrTimeoutMs + u.atr.count * s.cfg.atrExtendMs) % 2 ^ s.cfg.timerWidth
  envOk : s.EnvOk → u.EnvOk

theorem atrEntry_inAtrLoop (s : State) : s.InAtrLoop s.atrEntry where
  same := State.SameButAtr.refl _
  good := atrEntry_good s
  deadline := by
    rw [show s.atrEntry.atr.count = 0 from rfl, Nat.zero_mul]
    rfl
  envOk h := by
    have hb : State.EnvOk { s with baudRate := atrBaud s.cfg } := ⟨h.counter, h.hold, h.clock⟩
    have hk := listen_ok hb true
    exact ⟨hk.counter, hk.hold, hk.clock⟩

theorem State.InAtrLoop.cfg {s u : State} (h : s.InAtrLoop u) : u.cfg = s.cfg := h.same.cfg

theorem State.InAtrLoop.deadline_lt {s u : State} (h : s.InAtrLoop u) :
    u.atr.deadline < 2 ^ u.cfg.timerWidth := by
  rw [h.deadline, h.cfg]
  exact Nat.mod_lt _ (Nat.two_pow_pos _)

/-- A poll keeps it, whatever it brings. -/
theorem State.InAtrLoop.awaitChar {s u : State} (h : s.InAtrLoop u) :
    s.InAtrLoop (u.awaitChar u.atr.deadline).2 where
  same := h.same.trans (awaitChar_same u _).toAtr
  good := by rw [awaitChar_atr]; exact h.good
  deadline := by rw [awaitChar_atr]; exact h.deadline
  envOk hs := awaitChar_ok (h.envOk hs) h.deadline_lt

/-- Reading a byte keeps it. -/
theorem State.InAtrLoop.atrByte {s u v : State} {r : Byte} (h : s.InAtrLoop u) (hc : u.atr.count < 32)
    (e : u.atrByte r = .ok v) : s.InAtrLoop v where
  same := h.same.trans (atrByte_same hc e)
  good := atrByte_good h.good hc e
  deadline := by
    rw [atrByte_eq u r hc] at e
    cases e
    dsimp only
    rw [read_deadline, h.deadline, h.cfg, Nat.mod_add_mod, Nat.succ_mul, Nat.add_assoc]
  envOk hs := by
    have hu := h.envOk hs
    rw [atrByte_eq u r hc] at e
    cases e
    exact ⟨hu.counter, hu.hold, hu.clock⟩

/-- R191's loop ends at the computed length, at 32 bytes or at the deadline (R203, R204). -/
theorem atrLoop_ends (s : State) :
    ∃ u, atrLoop 33 s.atrEntry = .ok u ∧ s.InAtrLoop u ∧
      (u.atr.count = u.atr.expected ∨ u.atr.count = 32 ∨ u.elapsed u.atr.deadline = true) := by
  refine atrLoop_induct (P := s.InAtrLoop) (Q := fun u => u.elapsed u.atr.deadline = true) ?_ ?_
    33 s.atrEntry (atrEntry_inAtrLoop s) (atrEntry_good s).count (by omega)
  · intro u r u1 u2 hP hc _ hw hb
    have hP1 := hP.awaitChar
    have ha := awaitChar_atr u u.atr.deadline
    rw [hw] at hP1 ha
    have hc1 : u1.atr.count < 32 := ha ▸ hc
    exact ⟨hP1.atrByte hc1 hb, ha ▸ atrByte_count hc1 hb⟩
  · intro u u1 hP _ _ hw
    have hP1 := hP.awaitChar
    have ha := awaitChar_atr u u.atr.deadline
    have ht := pollLoop_timeout u.atr.deadline _ u hP.deadline_lt (congrArg Prod.fst hw)
    rw [show pollLoop u.atr.deadline _ u = (none, u1) from hw] at ht
    rw [hw] at hP1 ha
    exact ⟨hP1, ha ▸ ht⟩

/-! ### The end -/

/-- The negotiation step writes the rate and its flag (R231). -/
theorem negotiate_same (s : State) (rec : AtrRecord) :
    (s.negotiate rec).2 = { s with
      baudRate := (s.negotiate rec).2.baudRate,
      negotiatedThisCycle := (s.negotiate rec).2.negotiatedThisCycle } := by
  unfold State.negotiate
  split
  · split <;> rfl
  · rfl

/-- Settles O31: the loop ends, and its end shows the registers as the record. -/
theorem acquireAtrCompletes : Obligations.AcquireAtrCompletes := by
  unfold Obligations.AcquireAtrCompletes
  intro s hv
  obtain ⟨u, hl, hu, hend⟩ := atrLoop_ends s
  have he : exec .acquireAtr s = u.atrFinish := acquireAtr_eq hv hl
  rw [he]
  refine returns_finish.2 ⟨{ u.atrOutput with negotiation := (u.negotiate u.atrOutput).1 }, ?_, ?_,
    hu.good.hist, ?_, fun hc hlt => ?_⟩
  · have hs := hu.same
    unfold State.SameButAtr at hs
    rw [negotiate_same, hs]
    simp [State.emit, State.atrEntry, ioModeFor, State.listen]
  · exact (Memory.length_take ..).trans_le hu.good.count
  · simp [State.atrOutput, Memory.length_take]
  · have hlen : (Memory.take u.atr.buf u.atr.count).length = u.atr.count := Memory.length_take ..
    have hne : u.atr.count ≠ u.atr.expected := by simpa [State.atrOutput] using hc
    have hlt : u.atr.count < 32 := hlen ▸ hlt
    have ht : u.elapsed u.atr.deadline = true :=
      (hend.resolve_left hne).resolve_left (Nat.ne_of_lt hlt)
    rw [hu.deadline] at ht
    rw [negotiate_same]
    simpa [State.elapsed, State.atrOutput, hlen] using ht

end Sys2Proof.Machine
end

section
/-! The bytes of the ATR (42_atr.md R194, R196, R202; 41_transport.md R163): from an unscripted card at the current
etu they are the character held at entry and the card's characters in order, each once. -/

namespace Sys2Proof.Machine

/-- `u` is a state of the loop of an ACQUIRE_ATR begun in `s` with the characters `held`, under an unscripted
card: `count` characters of `held` and the card have been taken and are stored, under the convention in force. -/
structure State.ReadsAtr (s : State) (held : List Byte) (u : State) : Prop where
  script : u.env.script = []
  flood : u.env.flood = none
  listening : u.ioMode = .released
  good : u.atr.Good
  hold : u.rxHold.toList = held.drop u.atr.count
  card : u.env.card = s.env.card.drop (u.atr.count - held.length)
  bytes : Memory.take u.atr.buf u.atr.count =
    ((held ++ rawBytesOf s.env.card).take u.atr.count).map (translate u.convention)

/-- `v` is `u`, without a script and a flood, after a poll has taken the byte held or the card's next
character, `r`. -/
structure State.Takes (u : State) (r : Byte) (v : State) : Prop where
  same : u.SameButEnv v
  script : v.env.script = []
  flood : v.env.flood = none
  hold : v.rxHold = none
  source : (u.rxHold = some r ∧ v.env.card = u.env.card) ∨
    ∃ f, u.rxHold = none ∧ u.env.card = f :: v.env.card ∧ f.frame.data = r

/-- Without a script a poll takes the byte held, or the card's next character, or sees the card silent. -/
theorem awaitChar_cases {u : State} (hs : u.env.script = []) (hf : u.env.flood = none)
    (hl : u.ioMode = .released) (hr : atCurrentEtu u.env.card) (d : Nat) :
    (u.rxHold = none ∧ u.env.card = [] ∧ u.awaitChar d = (none, u.expire d)) ∨
    ∃ r v, u.awaitChar d = (some r, v) ∧ u.Takes r v := by
  match hh : u.rxHold, hc : u.env.card with
  | some r, _ =>
    exact .inr ⟨r, u.clearHold, awaitChar_held hs hh d, clearHold_same u, hs, hf, rfl,
      .inl ⟨hh, rfl⟩⟩
  | none, [] => exact .inl ⟨rfl, rfl, awaitChar_silent hs hh hc hf d⟩
  | none, f :: more =>
    exact .inr ⟨f.frame.data, u.withCard more, awaitChar_card hs hl hh hc (hr f (by simp [hc])) d,
      withCard_same u more, hs, hf, hh, .inr ⟨f, hh, hc, rfl⟩⟩

section
variable {s u v : State} {held : List Byte}

theorem State.ReadsAtr.current (h : s.ReadsAtr held u) (hr : atCurrentEtu s.env.card) :
    atCurrentEtu u.env.card := by
  rw [h.card]
  exact fun f hf => hr f (List.mem_of_mem_drop hf)

/-- What is left of the characters: the byte held, then the card's. -/
theorem State.ReadsAtr.toCome (h : s.ReadsAtr held u) :
    (held ++ rawBytesOf s.env.card).drop u.atr.count = u.rxHold.toList ++ rawBytesOf u.env.card := by
  rw [List.drop_append, h.hold, h.card, rawBytesOf, rawBytesOf, List.map_drop]

/-- The byte stored for a taken character, after those before it: a change of the convention comes with the
first of them only (R196). -/
theorem State.ReadsAtr.bytes_snoc (h : s.ReadsAtr held u) {r : Byte} {rest : List Byte}
    (hr : (held ++ rawBytesOf s.env.card).drop u.atr.count = r :: rest) :
    Memory.take u.atr.buf u.atr.count ++ [translate (u.conventionAfter r) r] =
      ((held ++ rawBytesOf s.env.card).take (u.atr.count + 1)).map
        (translate (u.conventionAfter r)) := by
  have hr' : (held ++ rawBytesOf s.env.card)[u.atr.count]? = some r := by
    rw [← List.head?_drop, hr, List.head?_cons]
  rw [List.take_add_one, hr', List.map_append, h.bytes]
  congr 1
  by_cases hs : u.atr.state = .ts
  · rw [h.good.state_eq_ts_iff.1 hs]
    rfl
  · rw [show u.conventionAfter r = u.convention from if_neg fun hw => hs hw.1]

/-- Taking a character and reading it keeps it. -/
theorem State.ReadsAtr.atrByte (h : s.ReadsAtr held u) (hheld : held.length ≤ 1) {r : Byte} {w : State}
    (hc : u.atr.count < 32) (ht : u.Takes r v) (e : v.atrByte r = .ok w) : s.ReadsAtr held w := by
  have hv := ht.same
  have hg : v.atr.Good := hv.atr ▸ h.good
  have hcv : v.atr.count < 32 := hv.atr ▸ hc
  have hgw := atrByte_good hg hcv e
  have hconv : v.conventionAfter r = u.conventionAfter r := by
    rw [State.conventionAfter, hv.atr, hv.convention]
    rfl
  have hcome := h.toCome
  have hold := h.hold
  rw [atrByte_eq v r hcv, hconv, hv.atr] at e
  cases e
  have hrest : u.rxHold.toList ++ rawBytesOf u.env.card = r :: rawBytesOf v.env.card := by
    obtain ⟨hr, hcard⟩ | ⟨f, hr, hcard, rfl⟩ := ht.source
    · rw [hr, hcard]
      rfl
    · rw [hr, hcard]
      rfl
  refine ⟨ht.script, ht.flood, hv.ioMode.trans h.listening, hgw, ?_, ?_, ?_⟩
  · dsimp only
    rw [ht.hold, List.drop_eq_nil_of_le (hheld.trans (Nat.le_add_left ..))]
    rfl
  · dsimp only
    obtain ⟨hr, hcard⟩ | ⟨f, hr, hcard, -⟩ := ht.source
    · rw [hr] at hold
      have h1 : held.length - u.atr.count = 1 := by
        rw [← List.length_drop, ← hold]
        rfl
      rw [hcard, h.card, show u.atr.count - held.length = u.atr.count + 1 - held.length by omega]
    · rw [hr] at hold
      have h0 : held.length ≤ u.atr.count := List.drop_eq_nil_iff.1 hold.symm
      have hd := h.card
      rw [hcard] at hd
      rw [Nat.sub_add_comm h0, ← List.tail_drop, ← hd, List.tail_cons]
  · dsimp only
    rw [Memory.take_write h.good.wf, h.bytes_snoc (hcome.trans hrest)]

theorem atrEntry_readsAtr (hs : s.env.unscripted) (hf : s.env.flood = none)
    (hheld : held = if s.ioMode = .released then s.rxHold.toList else []) :
    s.ReadsAtr held s.atrEntry where
  script := hs
  flood := hf
  listening := rfl
  good := atrEntry_good s
  hold := by
    rw [hheld]
    show (if s.ioMode = ioModeFor true then s.rxHold else none).toList = _
    split <;> simp_all [ioModeFor, State.atrEntry, AtrEngine.idle]
  card := by simp [State.atrEntry, AtrEngine.idle]
  bytes := rfl

/-- R191's loop reads the characters in order, and ends at the computed length, at 32 bytes or when nothing is
held and the card is silent. -/
theorem atrLoop_readsAtr (hs : s.env.unscripted) (hf : s.env.flood = none)
    (hr : atCurrentEtu s.env.card) (hlen : held.length ≤ 1)
    (hheld : held = if s.ioMode = .released then s.rxHold.toList else []) :
    ∃ u, atrLoop 33 s.atrEntry = .ok u ∧ s.ReadsAtr held u ∧
      (u.atr.count = u.atr.expected ∨ u.atr.count = 32 ∨ u.rxHold = none ∧ u.env.card = []) := by
  refine atrLoop_induct (P := s.ReadsAtr held) (Q := fun u => u.rxHold = none ∧ u.env.card = []) ?_ ?_
    33 s.atrEntry (atrEntry_readsAtr hs hf hheld) (atrEntry_good s).count (by omega)
  · intro u r u1 u2 hP hc _ hw hb
    obtain ⟨-, -, he⟩ | ⟨r', v, he, ht⟩ :=
      awaitChar_cases hP.script hP.flood hP.listening (hP.current hr) u.atr.deadline
    · cases he.symm.trans hw
    · cases he.symm.trans hw
      have ha := ht.same.atr
      exact ⟨hP.atrByte hlen hc ht hb, ha ▸ atrByte_count (ha ▸ hc) hb⟩
  · intro u u1 hP _ _ hw
    obtain ⟨hh, hcard, he⟩ | ⟨r', v, he, -⟩ :=
      awaitChar_cases hP.script hP.flood hP.listening (hP.current hr) u.atr.deadline
    · cases he.symm.trans hw
      have hx := expire_same u u.atr.deadline
      have hxe := expire_env u u.atr.deadline
      have hxh := expire_hold u u.atr.deadline
      exact ⟨⟨by rw [hxe]; exact hP.script, by rw [hxe]; exact hP.flood, hx.ioMode.trans hP.listening,
        by rw [hx.atr]; exact hP.good, by rw [hxh, hx.atr]; exact hP.hold,
        by rw [hxe, hx.atr]; exact hP.card, by rw [hx.atr, hx.convention]; exact hP.bytes⟩,
        hxh.trans hh, by rw [hxe]; exact hcard⟩
    · cases he.symm.trans hw

/-- The loop does not end before a character held at entry is taken: two bytes are expected at first. -/
theorem State.ReadsAtr.held_taken (h : s.ReadsAtr held u) (hlen : held.length ≤ 1)
    (hend : u.atr.count = u.atr.expected ∨ u.atr.count = 32 ∨ u.rxHold = none ∧ u.env.card = []) :
    held.length ≤ u.atr.count := by
  obtain he | he | ⟨hh, -⟩ := hend
  · by_contra hlt
    have hc0 : u.atr.count = 0 := by omega
    have ht := (h.good.tracks.of_length_le_one (by rw [Memory.length_take]; omega)).1
    omega
  · omega
  · have hold := h.hold
    rw [hh] at hold
    exact List.drop_eq_nil_iff.1 hold.symm

end

/-- Settles O32: `ReadsAtr` at the end of the loop; the end of the command keeps the convention and what is
left of the card. -/
theorem atrBytesInOrderUnderFinalConvention : Obligations.AtrBytesInOrderUnderFinalConvention := by
  unfold Obligations.AtrBytesInOrderUnderFinalConvention
  intro s hv hs hr hf held hheld
  have hlen : held.length ≤ 1 := by
    rw [hheld]
    split
    · cases s.rxHold <;> simp
    · simp
  obtain ⟨u, hl, hu, hend⟩ := atrLoop_readsAtr hs hf hr hlen hheld
  have he : exec .acquireAtr s = u.atrFinish := acquireAtr_eq hv hl
  have hcount : (Memory.take u.atr.buf u.atr.count).length = u.atr.count := Memory.length_take ..
  rw [he]
  refine returns_finish.2 ⟨_, lastResult_emit_returned _ _, ?_, ?_, ?_, fun hc => ?_⟩
  · simpa [State.atrOutput, hcount] using hu.bytes
  · simpa [State.atrOutput, hcount] using hu.held_taken hlen hend
  · rw [negotiate_same]
    simpa [State.atrOutput, hcount] using hu.card
  · have hne : u.atr.count ≠ u.atr.expected := by simpa [State.atrOutput] using hc
    rw [negotiate_same]
    simpa [State.atrOutput, hcount] using (hend.resolve_left hne).imp_right And.right

end Sys2Proof.Machine
end

section
/-! SEND_APDU step by step (44_apdu.md R255 to R262, R266): one procedure byte, one granted transfer, and what
the whole command leaves unchanged. -/

namespace Sys2Proof.Machine

/-! ### The frame of the command -/

/-- Settles O44: a capacity failure writes the trace only; the sequencer writes what `SameButApdu` says. -/
theorem sendApduFrame : Obligations.SendApduFrame := by
  unfold Obligations.SendApduFrame
  intro timeoutMs cla ins p1 p2 p3 dir cap s t h
  obtain ⟨-, -, ⟨hc, rfl⟩ | ⟨hc, u, sw, hu, -, -, hf⟩⟩ := sendApdu_next h
  · exact ⟨rfl, List.prefix_append _ _, fun h => absurd hc (Nat.not_lt.2 h), fun _ => rfl, fun _ => rfl,
      _, lastResult_emit_returned _ _, fun _ _ => rfl⟩
  · obtain rfl := finish_next.1 hf
    refine ⟨?_, hu.trace.trans (List.prefix_append _ _), fun _ => rfl,
      fun h => absurd h (Nat.not_lt.2 hc), hu.send, _, lastResult_emit_returned _ _, hu.above⟩
    have hframe := hu.frame
    rw [hframe]
    rfl

/-! ### A procedure byte -/

/-- Settles O48: the character is the card's next frame, and the dispatch is by its class. -/
theorem procedureByteDispatch : Obligations.ProcedureByteDispatch := by
  unfold Obligations.ProcedureByteDispatch
  rintro s f more pb hs hh hl hc hf rfl
  rw [State.procStep, rxChar_card hs hl hh hc hf]
  dsimp only
  rw [State.dispatchProc]
  dsimp only [withCard_apdu]
  cases classify (translate s.convention f.frame.data) s.apdu.ins <;> rfl

/-! ### A granted transfer -/

/-- A Send transfer: the bytes go out in order between the two direction switches, and nothing is held
(R266). -/
theorem transfer_send {s : State} {n : Nat} (hd : s.apdu.dir = .send)
    (hn : s.apdu.count + n ≤ s.apdu.cap) :
    ∃ t, s.transfer n = .ok (true, t) ∧ t.rxHold = none ∧ (s.env.script = [] → t.env = s.env) ∧
      State.SameButEnv { s with
        ioMode := .released,
        apdu := { s.apdu with count := s.apdu.count + n },
        trace := s.trace ++ .pin (.io .driveHigh) :: ((List.range n).map fun i =>
          Memory.read s.buffer (s.apdu.count + i)).flatMap s.txEvents ++ [.pin (.io .released)] } t := by
  obtain ⟨u, e, k⟩ := sendBytes_eq n (s.listen false) hn
  refine ⟨u.listen true, ?_, ?_, fun hs => ?_, ?_⟩
  · rw [State.transfer, hd]
    dsimp only
    rw [e]
  · rw [listen_rxHold, k.ioMode]
    rfl
  · exact sendBytes_env (t := u) n (s := s.listen false) hs e
  · have hev : (s.listen false).txEvents = s.txEvents := rfl
    unfold State.SameButEnv at k ⊢
    rw [k, hev]
    simp [State.listen, State.emit, ioModeFor]

theorem transfer_receive {s : State} (hd : s.apdu.dir = .receive) (n : Nat) :
    s.transfer n = receiveBytes n s := by
  rw [State.transfer, hd]

/-- A Receive transfer that goes through leaves the later bytes to the state it reaches. -/
theorem receiveBytes_add {k : Nat} (m : Nat) {s t : State} (h : receiveBytes k s = .ok (true, t)) :
    receiveBytes (k + m) s = receiveBytes m t := by
  induction k generalizing s with
  | zero =>
    cases h
    rw [Nat.zero_add]
  | succ k ih =>
    rw [Nat.succ_add]
    rw [receiveBytes] at h ⊢
    match hr : s.rxChar s.apdu.timeoutMs with
    | (none, s1) =>
      rw [hr] at h
      cases h
    | (some d, s1) =>
      rw [hr] at h
      dsimp only at h ⊢
      split at h
      · cases h
      · exact ih h

/-- `s` with `m` as buffer, `k` more bytes moved and `more` left of the card. -/
def State.received (s : State) (m : Memory) (k : Nat) (more : List CardFrame) : State :=
  { s with
    buffer := m, apdu := { s.apdu with count := s.apdu.count + k },
    env := { s.env with card := more } }

/-- What the buffer reads after the characters of `data` have been stored from index `count` on (R266). -/
def State.Stores (s : State) (data : List CardFrame) (m : Memory) : Prop :=
  ∀ a, Memory.read m a =
    if s.apdu.count ≤ a ∧ a < s.apdu.count + data.length then
      ((rawBytesOf data).map (translate s.convention)).getD (a - s.apdu.count) 0x00#8
    else Memory.read s.buffer a

/-- A Receive transfer of as many characters as the card sends, or more, stores them. -/
theorem receiveBytes_stores {data more : List CardFrame} {s : State} (hs : s.env.script = [])
    (hl : s.ioMode = .released) (hh : s.rxHold = none) (hc : s.env.card = data ++ more)
    (hr : atCurrentEtu data) (hw : Memory.wf s.buffer = true)
    (hn : s.apdu.count + data.length ≤ s.apdu.cap) :
    ∃ m, receiveBytes data.length s = .ok (true, s.received m data.length more) ∧ s.Stores data m := by
  obtain ⟨m, e, -, hm⟩ := receiveBytes_card data more s hs hl hh hc hr hw hn
  exact ⟨m, e, hm⟩

/-- A Receive transfer from a card that falls silent too early reports it with the characters stored (R266, R262). -/
theorem receiveBytes_silent {data : List CardFrame} {n : Nat} {s : State} (hs : s.env.script = [])
    (hl : s.ioMode = .released) (hh : s.rxHold = none) (hc : s.env.card = data)
    (hf : s.env.flood = none) (hr : atCurrentEtu data) (hw : Memory.wf s.buffer = true)
    (hn : s.apdu.count + data.length ≤ s.apdu.cap) (hlt : data.length < n) :
    ∃ m d, receiveBytes n s = .ok (false, (s.received m data.length []).expire d) ∧
      s.Stores data m := by
  obtain ⟨m, e, hm⟩ :=
    receiveBytes_stores hs hl hh (hc.trans (List.append_nil data).symm) hr hw hn
  obtain ⟨k, rfl⟩ := Nat.exists_eq_add_of_lt hlt
  have hx := rxChar_silent (s := s.received m data.length []) hs hh rfl hf s.apdu.timeoutMs
  refine ⟨m, (s.received m data.length []).deadlineIn s.apdu.timeoutMs, ?_, hm⟩
  rw [Nat.add_assoc, receiveBytes_add (k + 1) e, receiveBytes,
    show (s.received m data.length []).apdu.timeoutMs = s.apdu.timeoutMs from rfl, hx]

/-- Settles O49: `transfer_send`, `receiveBytes_card` and `receiveBytes_silent`. -/
theorem grantedTransfer : Obligations.GrantedTransfer := by
  unfold Obligations.GrantedTransfer
  intro s n hn
  refine ⟨fun hd => ?_, fun data hd hw hs hh hl hr => ⟨fun more hlen hc => ?_, fun hlt hc hf => ?_⟩⟩
  · obtain ⟨t, e, -, -, k⟩ := transfer_send hd hn
    exact ⟨t, e, k.apdu, k.buffer, k.ioMode, k.trace⟩
  · subst hlen
    obtain ⟨m, e, hm⟩ := receiveBytes_stores hs hl hh hc hr hw hn
    exact ⟨_, (transfer_receive hd _).trans e, rfl, rfl, rfl, hm⟩
  · obtain ⟨m, d, e, hm⟩ := receiveBytes_silent hs hl hh hc hf hr hw (by omega) hlt
    refine ⟨_, (transfer_receive hd _).trans e, ?_, ?_, fun a => ?_⟩
    · rw [expire_apdu]
      rfl
    · rw [expire_trace]
      rfl
    · rw [expire_buffer]
      exact hm a

end Sys2Proof.Machine
end

section
/-! SEND_APDU against an unscripted card (44_apdu.md R255 to R268): the run of the sequencer step by step, and
the ends that one procedure byte or none leads to. -/

namespace Sys2Proof.Machine

/-! ### A run and its end -/

/-- The sequencer of a SEND_APDU begun in `s` has come to `u`, with no script: the engine's registers are `a`,
`card` is still to come, `m` is in the buffer, and the events `evs` have been added to the trace. -/
structure State.Run (s : State) (a : ApduEngine) (card : List CardFrame) (m : Memory)
    (evs : List Event) (u : State) : Prop where
  script : u.env.script = []
  card : u.env.card = card
  flood : u.env.flood = s.env.flood
  hold : u.rxHold = none
  listening : u.ioMode = .released
  cfg : u.cfg = s.cfg
  convention : u.convention = s.convention
  baudRate : u.baudRate = s.baudRate
  buffer : u.buffer = m
  apdu : u.apdu = a
  trace : u.trace = s.trace ++ evs

/-- `t` is the end of a SEND_APDU begun in `s` with result `r`. -/
structure State.Ended (s : State) (r : ApduResult) (card : List CardFrame) (m : Memory)
    (evs : List Event) (t : State) : Prop where
  card : t.env.card = card
  buffer : t.buffer = m
  trace : t.trace = s.trace ++ evs ++ [.returned (.apdu r)]

section
variable {s u t : State} {a : ApduEngine} {f g : CardFrame} {card more : List CardFrame} {m : Memory}
  {evs : List Event} {r : ApduResult}

theorem State.Ended.lastResult (h : s.Ended r card m evs t) : t.lastResult = some (.apdu r) := by
  rw [State.lastResult, h.trace, List.reverse_append]
  rfl

theorem State.Run.toStep (h : s.Run a card m evs u) (st : ApduStep) :
    s.Run { a with step := st } card m evs (u.toStep st) :=
  ⟨h.script, h.card, h.flood, h.hold, h.listening, h.cfg, h.convention, h.baudRate, h.buffer,
    h.apdu ▸ rfl, h.trace⟩

theorem State.Run.withCard (h : s.Run a card m evs u) (more : List CardFrame) :
    s.Run a more m evs (u.withCard more) :=
  ⟨h.script, rfl, h.flood, h.hold, h.listening, h.cfg, h.convention, h.baudRate, h.buffer, h.apdu,
    h.trace⟩

/-- The loop test goes to PROC while `count < P3`, and else to FINAL (R255, R263). -/
theorem State.Run.loopTest (h : s.Run a card m evs u) :
    s.Run { a with step := if a.count < a.p3.toNat then .proc else .final } card m evs u.loopTest := by
  have k := h.toStep (if a.count < a.p3.toNat then .proc else .final)
  rwa [State.loopTest, h.apdu]

/-- DONE answers the result that `count` and `proc` stand at (R250, R264). -/
theorem State.Run.returns (h : s.Run a card m evs u) (sw : StatusWord) :
    Returns (u.apduFinish sw) (s.Ended ⟨sw, a.count, a.proc⟩ card m evs) := by
  refine returns_finish.2 ⟨h.card, h.buffer, ?_⟩
  rw [← h.trace, ← h.apdu]
  rfl

/-! ### The steps -/

/-- The registers after a procedure byte (R255 to R261, R264). -/
def ApduEngine.afterProc (a : ApduEngine) (pb : Byte) : ApduEngine :=
  { a with
    proc := some pb
    step := match classify pb a.ins with
      | .ack1 => .xfer 1
      | .ackAll => .xfer (a.p3.toNat - a.count)
      | .null => a.step
      | .sw1 => .sw2 pb
      | .other => a.step }

theorem afterProc_ackAll {pb : Byte} (h : classify pb a.ins = .ackAll) :
    a.afterProc pb = { a with proc := some pb, step := .xfer (a.p3.toNat - a.count) } := by
  rw [ApduEngine.afterProc, h]

theorem afterProc_sw1 {pb : Byte} (h : classify pb a.ins = .sw1) :
    a.afterProc pb = { a with proc := some pb, step := .sw2 pb } := by
  rw [ApduEngine.afterProc, h]

/-- PROC reads the card's next character as a procedure byte. -/
theorem State.Run.proc (h : s.Run a (f :: more) m evs u) (hst : a.step = .proc) (hf : f.rate = none) :
    ∃ v, s.Run (a.afterProc (translate s.convention f.frame.data)) more m evs v ∧
      ∀ n, apduRun (n + 1) u = apduRun n v := by
  have e := procedureByteDispatch u f more _ h.script h.hold h.listening h.card hf rfl
  rw [h.apdu] at e
  rw [← h.convention]
  refine ⟨u.procStep, ?_, fun n => apduRun_succ n (by simp [h.apdu, hst]) ?_⟩
  · rw [e]
    exact ⟨h.script, rfl, h.flood, h.hold, h.listening, h.cfg, h.convention, h.baudRate, h.buffer, rfl,
      h.trace⟩
  · rw [State.apduStep, h.apdu, hst]

/-- A Send transfer within the buffer (R258, R266). -/
theorem State.Run.send {n : Nat} (h : s.Run a card m evs u) (hst : a.step = .xfer n)
    (hd : a.dir = .send) (hn : a.count + n ≤ a.cap) :
    ∃ v, s.Run { a with count := a.count + n } card m
        (evs ++ .pin (.io .driveHigh) :: ((List.range n).map fun i =>
          Memory.read m (a.count + i)).flatMap s.txEvents ++ [.pin (.io .released)]) v ∧
      ∀ k, apduRun (k + 1) u = apduRun k v.loopTest := by
  have ha := h.apdu
  subst ha
  obtain ⟨v, e, hh, he, k⟩ := transfer_send hd hn
  have he := he h.script
  refine ⟨v, ⟨by rw [he]; exact h.script, by rw [he]; exact h.card, by rw [he]; exact h.flood, hh,
    k.ioMode, k.cfg.trans h.cfg, k.convention.trans h.convention, k.baudRate.trans h.baudRate,
    k.buffer.trans h.buffer, k.apdu, ?_⟩, fun j => apduRun_succ j (by simp [hst]) ?_⟩
  · have hev : u.txEvents = s.txEvents := funext (txEvents_congr h.cfg h.convention h.baudRate)
    rw [k.trace]
    dsimp only
    rw [h.trace, h.buffer, hev]
    simp
  · rw [State.apduStep, hst]
    dsimp only
    rw [State.xferStep, e]

/-- A Receive transfer of as many characters as the card sends, or more (R258, R266, R268). -/
theorem State.Run.receive {data : List CardFrame} (h : s.Run a (data ++ more) m evs u)
    (hst : a.step = .xfer data.length) (hd : a.dir = .receive) (hn : a.count + data.length ≤ a.cap)
    (hr : atCurrentEtu data) (hw : Memory.wf m = true) :
    ∃ v m', s.Run { a with count := a.count + data.length } more m' evs v ∧ u.Stores data m' ∧
      ∀ k, apduRun (k + 1) u = apduRun k v.loopTest := by
  have ha := h.apdu
  subst ha
  obtain ⟨m', e, hm⟩ := receiveBytes_stores h.script h.listening h.hold h.card hr
    (by rw [h.buffer]; exact hw) hn
  refine ⟨u.received m' data.length more, m', ⟨h.script, rfl, h.flood, h.hold, h.listening, h.cfg,
    h.convention, h.baudRate, rfl, rfl, h.trace⟩, hm, fun j => apduRun_succ j (by simp [hst]) ?_⟩
  rw [State.apduStep, hst]
  dsimp only
  rw [State.xferStep, transfer_receive hd, e]

/-- SW2 reads the card's next character (R260). -/
theorem State.Run.sw2 {sw1 : Byte} (h : s.Run a (g :: more) m evs u) (hst : a.step = .sw2 sw1)
    (hg : g.rate = none) (n : Nat) :
    Returns (apduRun (n + 2) u) (s.Ended
      ⟨statusWord sw1 (translate s.convention g.frame.data), a.count, a.proc⟩ more m evs) := by
  rw [apduRun_sw2 n (by rw [h.apdu, hst]) h.script h.listening h.hold h.card hg, h.convention]
  exact ((h.withCard more).toStep _).returns _

/-- FINAL and SW2 read the card's next two characters (R263). -/
theorem State.Run.final (h : s.Run a (f :: g :: more) m evs u) (hst : a.step = .final)
    (hf : f.rate = none) (hg : g.rate = none) (n : Nat) :
    Returns (apduRun (n + 3) u) (s.Ended
      ⟨statusWord (translate s.convention f.frame.data) (translate s.convention g.frame.data),
        a.count, a.proc⟩ more m evs) := by
  rw [apduRun_final n (by rw [h.apdu, hst]) h.script h.listening h.hold h.card hf hg, h.convention]
  exact ((h.withCard more).toStep _).returns _

/-- PROC and FINAL of a silent card end with the sentinel (R255, R263). -/
theorem State.Run.silent (h : s.Run a [] m evs u) (hst : a.step = .proc ∨ a.step = .final)
    (hf : s.env.flood = none) (n : Nat) :
    Returns (apduRun (n + 2) u) (s.Ended ⟨s.cfg.swPbTimeout, a.count, a.proc⟩ [] m evs) := by
  have hx := rxChar_silent h.script h.hold h.card (h.flood.trans hf) u.apdu.timeoutMs
  generalize u.deadlineIn u.apdu.timeoutMs = d at hx
  have k := expire_same u d
  have he := expire_env u d
  have hv : s.Run a [] m evs (u.expire d) := ⟨by rw [he]; exact h.script, by rw [he]; exact h.card,
    by rw [he]; exact h.flood, (expire_hold u d).trans h.hold, k.ioMode.trans h.listening,
    k.cfg.trans h.cfg, k.convention.trans h.convention, k.baudRate.trans h.baudRate,
    k.buffer.trans h.buffer, k.apdu.trans h.apdu, k.trace.trans h.trace⟩
  have e : u.apduStep = .ok ((u.expire d).toStep (.done s.cfg.swPbTimeout)) := by
    rw [State.apduStep, h.apdu]
    rcases hst with hst | hst <;> rw [hst] <;> dsimp only
    · rw [State.procStep, hx, ← hv.cfg]
    · rw [State.finalStep, hx, ← hv.cfg]
  rw [apduRun_succ (n + 1) (by rcases hst with hst | hst <;> simp [h.apdu, hst]) e,
    apduRun_done n rfl]
  exact (hv.toStep _).returns _

end

end Sys2Proof.Machine
end

section
/-! The ends of SEND_APDU from an unscripted card (44_apdu.md, the cases of section 2.7 of the test vectors): each
is a run of the sequencer put together from its steps. -/

namespace Sys2Proof.Machine

theorem Returns.imp {o : Host.Outcome State Fault Refusal} {p q : State → Prop} (h : Returns o p)
    (hpq : ∀ t, p t → q t) : Returns o q :=
  let ⟨t, e, ht⟩ := h
  ⟨t, e, hpq t ht⟩

/-- The engine's registers at the start of a SEND_APDU. -/
def ApduEngine.request (timeoutMs : Nat) (cla ins p1 p2 p3 : Byte) (dir : Dir) (cap : Nat) : ApduEngine where
  timeoutMs := timeoutMs
  cla := cla
  ins := ins
  p1 := p1
  p2 := p2
  p3 := p3
  dir := dir
  cap := cap
  count := 0
  proc := none
  step := .header

/-- The events of a header (R253, R254). -/
def State.headerEvents (s : State) (cla ins p1 p2 p3 : Byte) : List Event :=
  .pin (.io .driveHigh) :: [cla, ins, p1, p2, p3].flatMap s.txEvents ++ [.pin (.io .released)]

/-- SEND_APDU past its checks sends the header and makes the loop test, with steps to spare. -/
theorem sendApdu_run {timeoutMs : Nat} {p3 : Byte} {cap : Nat} {s : State} (cla ins p1 p2 : Byte)
    (dir : Dir) (hv : s.sessionValid = true) (ht : timeoutMs < 2 ^ (s.cfg.timerWidth - 1))
    (hc : p3.toNat ≤ cap) (hs : s.env.unscripted) :
    ∃ u n, s.Run { ApduEngine.request timeoutMs cla ins p1 p2 p3 dir cap with
        step := if 0 < p3.toNat then .proc else .final } s.env.card s.buffer
        (s.headerEvents cla ins p1 p2 p3) u ∧
      exec (.sendApdu timeoutMs cla ins p1 p2 p3 dir cap) s = apduRun (n + 5) u := by
  obtain ⟨hh, hl, hcfg, hcv, hb, hbuf, ha, htr⟩ :=
    sendHeader_facts (s.apduStart timeoutMs cla ins p1 p2 p3 dir cap)
  have he := sendHeader_env (s := s.apduStart timeoutMs cla ins p1 p2 p3 dir cap) hs
  have hu : s.Run (.request timeoutMs cla ins p1 p2 p3 dir cap) s.env.card s.buffer
      (s.headerEvents cla ins p1 p2 p3) (s.apduStart timeoutMs cla ins p1 p2 p3 dir cap).sendHeader :=
    ⟨by rw [he]; exact hs, by rw [he]; rfl, by rw [he]; rfl, hh, hl, hcfg, hcv, hb, hbuf, ha,
      htr.trans (List.append_assoc ..)⟩
  exact ⟨_, 2 * (s.env.script.length + s.env.card.length + p3.toNat) + 2, hu.loopTest,
    (sendApdu_eq hv (decide_eq_true ht) hc).trans (apduRun_start ..)⟩

/-- Settles O46: PROC, the Send transfer of all bytes, FINAL and SW2. -/
theorem ackAllSend : Obligations.AckAllSend := by
  unfold Obligations.AckAllSend
  intro timeoutMs cla ins p1 p2 p3 cap s ack sw1 sw2 more hv ht hp hc hs hcard hr hcl
  obtain ⟨u, n, hu, he⟩ := sendApdu_run cla ins p1 p2 .send hv ht hc hs
  rw [if_pos hp, hcard] at hu
  obtain ⟨v, hv, hev⟩ := hu.proc rfl (hr ack (by simp))
  rw [afterProc_ackAll hcl] at hv
  obtain ⟨w, hw, hew⟩ := hv.send rfl rfl (by simpa [ApduEngine.request] using hc)
  have hw := hw.loopTest
  rw [if_neg (by simp [ApduEngine.request])] at hw
  rw [he, hev, hew]
  refine (hw.final rfl (hr sw1 (by simp)) (hr sw2 (by simp)) n).imp fun t hend => ?_
  refine ⟨hend.card, hend.buffer, hend.trace.trans ?_⟩
  simp [State.headerEvents, ApduEngine.request, Memory.take]

/-- Settles O47: PROC, the Receive transfer of all bytes, FINAL and SW2. -/
theorem ackAllReceive : Obligations.AckAllReceive := by
  unfold Obligations.AckAllReceive
  intro timeoutMs cla ins p1 p2 p3 cap s ack sw1 sw2 data more hv ht hp hc hwf hs hcard hlen hr hcl
  obtain ⟨u, n, hu, he⟩ := sendApdu_run cla ins p1 p2 .receive hv ht hc hs
  rw [if_pos hp, hcard, List.cons_append] at hu
  obtain ⟨v, hv, hev⟩ := hu.proc rfl (hr ack (by simp))
  rw [afterProc_ackAll hcl] at hv
  obtain ⟨w, m, hw, hm, hew⟩ := hv.receive (by simp [hlen, ApduEngine.request]) rfl
    (by simpa [ApduEngine.request, hlen] using hc) (fun f hf => hr f (by simp [hf])) hwf
  have hw := hw.loopTest
  rw [if_neg (by simp [ApduEngine.request, hlen])] at hw
  rw [he, hev, hew]
  refine (hw.final rfl (hr sw1 (by simp)) (hr sw2 (by simp)) n).imp fun t hend => ?_
  refine ⟨hend.card, ?_, fun a => ?_⟩
  · simpa [ApduEngine.request, hlen] using hend.lastResult
  · rw [hend.buffer, hm a, hv.apdu, hv.convention, hv.buffer]
    simp [ApduEngine.request, hlen]

/-- Settles O50: PROC and SW2. -/
theorem statusAtOnce : Obligations.StatusAtOnce := by
  unfold Obligations.StatusAtOnce
  intro timeoutMs cla ins p1 p2 p3 dir cap s sw1 sw2 more hv ht hp hc hs hcard hr hcl
  obtain ⟨u, n, hu, he⟩ := sendApdu_run cla ins p1 p2 dir hv ht hc hs
  rw [if_pos hp, hcard] at hu
  obtain ⟨v, hv, hev⟩ := hu.proc rfl (hr sw1 (by simp))
  rw [afterProc_sw1 hcl] at hv
  rw [he, hev]
  exact (hv.sw2 rfl (hr sw2 (by simp)) (n + 2)).imp fun t hend =>
    ⟨hend.card, hend.buffer, hend.lastResult⟩

/-- Settles O51: the loop test goes to FINAL at once. -/
theorem zeroLengthReadsStatus : Obligations.ZeroLengthReadsStatus := by
  unfold Obligations.ZeroLengthReadsStatus
  intro timeoutMs cla ins p1 p2 dir cap s sw1 sw2 more hv ht hs hcard hr
  obtain ⟨u, n, hu, he⟩ := sendApdu_run (p3 := 0x00#8) (cap := cap) cla ins p1 p2 dir hv ht
    (Nat.zero_le cap) hs
  rw [if_neg (show ¬0 < (0x00#8 : Byte).toNat by decide), hcard] at hu
  rw [he]
  exact (hu.final rfl (hr sw1 (by simp)) (hr sw2 (by simp)) (n + 2)).imp fun t hend =>
    ⟨hend.card, hend.buffer, hend.lastResult⟩

/-- Settles O52: PROC and FINAL alike end with the sentinel. -/
theorem apduOfSilentCard : Obligations.ApduOfSilentCard := by
  unfold Obligations.ApduOfSilentCard
  intro timeoutMs cla ins p1 p2 p3 dir cap s hv ht hc hs hcard hf
  obtain ⟨u, n, hu, he⟩ := sendApdu_run cla ins p1 p2 dir hv ht hc hs
  rw [hcard] at hu
  rw [he]
  refine (hu.silent ?_ hf (n + 3)).imp fun t hend => hend.lastResult
  exact ite_eq_or_eq ..

/-! ### A flood of NULL or OTHER -/

theorem dispatchProc_ignored {s : State} {pb : Byte}
    (h : classify pb s.apdu.ins = .null ∨ classify pb s.apdu.ins = .other) : s.dispatchProc pb = s := by
  rcases h with h | h <;> rw [State.dispatchProc, h]

/-- PROC with a flood of an ignored byte comes to PROC again, whatever number of steps is left (R259, R261,
R267). -/
theorem apduRun_flood {s u : State} {a : ApduEngine} {f : CardFrame} {m : Memory} {evs : List Event}
    (n : Nat) (h : s.Run a [] m evs u) (hst : a.step = .proc) (hf : s.env.flood = some f)
    (hr : f.rate = none)
    (hcl : classify (translate s.convention f.frame.data) a.ins = .null ∨
      classify (translate s.convention f.frame.data) a.ins = .other) :
    apduRun n u = .fault .commandNeverEnds := by
  induction n generalizing u a with
  | zero => rfl
  | succ n ih =>
    have hx := rxChar_flood h.script h.listening h.hold h.card (h.flood.trans hf) hr u.apdu.timeoutMs
    rw [h.convention] at hx
    have hv : s.Run { a with proc := some (translate s.convention f.frame.data) } [] m evs
        { u with apdu := { u.apdu with proc := some (translate s.convention f.frame.data) } } :=
      ⟨h.script, h.card, h.flood, h.hold, h.listening, h.cfg, h.convention, h.baudRate, h.buffer,
        h.apdu ▸ rfl, h.trace⟩
    have e : u.procStep =
        { u with apdu := { u.apdu with proc := some (translate s.convention f.frame.data) } } := by
      rw [State.procStep, hx]
      refine dispatchProc_ignored ?_
      dsimp only
      rwa [h.apdu]
    have hstep : u.apduStep = .ok u.procStep := by rw [State.apduStep, h.apdu, hst]
    rw [apduRun_succ n (by simp [h.apdu, hst]) (hstep.trans (congrArg _ e))]
    exact ih hv hst hcl

/-- Settles O54: `apduRun_flood` from the header on. -/
theorem nullFloodNeverEnds : Obligations.NullFloodNeverEnds := by
  unfold Obligations.NullFloodNeverEnds
  intro timeoutMs cla ins p1 p2 p3 dir cap s f hv ht hp hc hs hcard hf hr hcl
  obtain ⟨u, n, hu, he⟩ := sendApdu_run cla ins p1 p2 dir hv ht hc hs
  rw [if_pos hp, hcard] at hu
  exact he.trans (apduRun_flood _ hu rfl hf hr hcl)

end Sys2Proof.Machine
end

section
/-! SEND_APDU from any card that sends characters at the current etu and falls silent (44_apdu.md R255 to R268,
R262): it ends as the function `exchange` says. -/

namespace Sys2Proof.Machine

/-- The header is no part of the exchange. -/
theorem sendHeader_exchange {u : State} (hs : u.env.script = []) (hst : u.apdu.step = .header)
    (got : List Byte) : u.sendHeader.loopTest.exchangeToCome got = u.exchangeToCome got := by
  obtain ⟨-, -, hcfg, hcv, -, -, ha, -⟩ := sendHeader_facts u
  have hl : u.sendHeader.logicalBytes = u.logicalBytes := by
    rw [State.logicalBytes, sendHeader_env hs, hcv]
    rfl
  rw [loopTest_exchange, State.exchangeFrom, hcfg, ha, hl, State.exchangeToCome, hst]
  rfl

theorem loopTest_ne_header (u : State) : u.loopTest.apdu.step ≠ .header := by
  unfold State.loopTest State.toStep
  dsimp only
  split <;> simp

/-- `u` is a state of the SEND_APDU begun in `s` with the registers of `start`: `start` itself, or a later one
that has the same exchange to come. -/
def State.ComesFrom (s start u : State) : Prop :=
  u = start ∨ u.ApduOk ∧ u.apdu.step ≠ .header ∧
    ∃ got, s.Talks u got ∧ u.exchangeToCome got = start.exchangeToCome []

/-- The steps of the sequencer keep the exchange to come, the header included. -/
theorem apduStep_comesFrom {s start u v : State} (h0 : start.ApduOk) (hst : start.apdu.step = .header)
    (hs : start.env.script = []) (ht : s.Talks start.sendHeader.loopTest [])
    (h : s.ComesFrom start u) (e : u.apduStep = .ok v) : s.ComesFrom start v := by
  obtain rfl | ⟨ho, hh, got, htu, hx⟩ := h
  · obtain ⟨v', e', hv', -⟩ := apduStep_ok u h0
    cases e'.symm.trans e
    rw [State.apduStep, hst] at e
    cases e
    exact .inr ⟨hv', loopTest_ne_header _, [], ht, sendHeader_exchange hs hst []⟩
  · obtain ⟨v', e', hv', -⟩ := apduStep_ok u ho
    obtain ⟨w, got', ew, hw, htw, hxw⟩ := htu.apduStep ho hh
    cases e'.symm.trans e
    cases ew.symm.trans e
    exact .inr ⟨hv', hw, got', htw, hxw.trans hx⟩

/-- After the header, from such a card, nothing has been received. -/
theorem apduStart_talks {s : State} (hs : s.env.unscripted) (hf : s.env.flood = none)
    (hr : atCurrentEtu s.env.card) (hw : Memory.wf s.buffer = true) (timeoutMs : Nat)
    (cla ins p1 p2 p3 : Byte) (dir : Dir) (cap : Nat) :
    s.Talks (s.apduStart timeoutMs cla ins p1 p2 p3 dir cap).sendHeader.loopTest [] := by
  obtain ⟨hh, hl, hcfg, hcv, -, hbuf, ha, -⟩ :=
    sendHeader_facts (s.apduStart timeoutMs cla ins p1 p2 p3 dir cap)
  have he : (s.apduStart timeoutMs cla ins p1 p2 p3 dir cap).sendHeader.env = s.env :=
    sendHeader_env (s := s.apduStart timeoutMs cla ins p1 p2 p3 dir cap) hs
  refine State.Talks.toStep ?_ _
  exact ⟨by rw [he]; exact hs, by rw [he]; exact hf, by rw [he]; exact hr, hl, hh,
    by rw [hbuf]; exact hw, hcfg, hcv, fun a => by rw [hbuf]; rfl, fun _ => by rw [ha]; rfl,
    by rw [he]⟩

/-- Settles O53: the status by its test; and the sequencer comes to DONE with the exchange of its start. -/
theorem receiveTimeoutStatus : Obligations.ReceiveTimeoutStatus := by
  unfold Obligations.ReceiveTimeoutStatus
  refine ⟨fun s hc => ⟨fun hfb h2 => ?_, fun h => ?_⟩, ?_⟩
  · rw [State.rxTimeoutStatus, if_pos ⟨hfb, h2⟩, memRead, memRead, if_pos (by omega), if_pos (by omega)]
  · refine if_neg fun ⟨hfb, h2⟩ => ?_
    obtain h | h := h
    · exact Bool.false_ne_true (h.symm.trans hfb)
    · omega
  · intro timeoutMs cla ins p1 p2 p3 dir cap s e hv ht hc hw hs hr hf hx0
    have hx0 : e = (s.apduStart timeoutMs cla ins p1 p2 p3 dir cap).exchangeToCome [] := hx0
    have hrun := sendApdu_outcome (fun u v => apduStep_comesFrom (apduStart_ok s hc) rfl hs
      (apduStart_talks hs hf hr hw timeoutMs cla ins p1 p2 p3 dir cap)) hv ht hc (.inl rfl)
    obtain ⟨u, sw, -, hu, hd, he⟩ := hrun.resolve_right fun h => h.2 hf
    rw [show exec (.sendApdu timeoutMs cla ins p1 p2 p3 dir cap) s = _ from he]
    obtain rfl | ⟨-, -, got, htk, hx⟩ := hu
    · cases hd
    · rw [← hx0, State.exchangeToCome, hd] at hx
      subst hx
      refine returns_finish.2 ⟨lastResult_emit_returned _ _, htk.buffer, ?_⟩
      have hcard := List.suffix_iff_eq_drop.1 htk.card
      simpa [State.logicalBytes, rawBytesOf] using hcard

end Sys2Proof.Machine
end

section
/-! The invariant of the states between commands (10_state.md sections 3 to 8, 70_reset_and_hazards.md R330): it
holds at block reset, and every step keeps it. -/

namespace Sys2Proof.Machine

/-! ### What keeps the invariant -/

theorem State.Inv.envOk {s : State} (h : s.Inv) : s.EnvOk := ⟨h.counter, h.hold, h.clock⟩

theorem State.Inv.emit {s : State} (h : s.Inv) (e : Event) : (s.emit e).Inv := { h with }

/-- What the environment writes keeps it if its own part is kept. -/
theorem State.Inv.of_env {s t : State} (h : s.Inv) (k : s.SameButEnv t) (e : t.EnvOk) : t.Inv where
  cfg := by rw [k.cfg]; exact h.cfg
  counter := e.counter
  buffer := by rw [k.buffer]; exact h.buffer
  hold := e.hold
  glitch := k.glitchOut.trans h.glitch
  trigger := k.triggerOut.trans h.trigger
  clock := e.clock
  atr := k.atr.trans h.atr
  apdu := k.apdu.trans h.apdu
  baud := by rw [k.sessionValid, k.baudRate]; exact h.baud
  power := by rw [k.powerState]; exact h.power

theorem State.Inv.envTurn {s : State} (h : s.Inv) : s.envTurn.Inv :=
  h.of_env (envTurn_same s) (envTurn_ok h.envOk)

theorem State.Inv.elapse {s : State} (h : s.Inv) (n : Nat) : (s.elapse n).Inv :=
  h.of_env (elapse_same s n) (elapse_ok h.envOk n)

theorem State.Inv.listen {s : State} (h : s.Inv) (on : Bool) : (s.listen on).Inv :=
  { h with hold := (listen_ok h.envOk on).hold }

theorem State.Inv.stopClock {s : State} (h : s.Inv) : s.stopClock.Inv := by
  refine State.Inv.of_env (s := { s with clkRunning := false, clkHigh := false, trace := _ }) ?_
    (stopClock_same s) (stopClock_ok h.envOk)
  exact { h with clock := fun _ => rfl }

theorem State.Inv.glitchPulse {s : State} (h : s.Inv) (d : Nat) : (s.glitchPulse d).Inv := by
  have hg : (if 0 < d then false else s.glitchOut) = false := by
    split
    · rfl
    · exact h.glitch
  rw [glitchPulse_eq]
  exact { h with glitch := hg }

theorem State.Inv.txChar {s : State} (h : s.Inv) (b : Byte) : (s.txChar b).Inv := by
  refine State.Inv.of_env (s := { s with trace := _ }) ?_ (txChar_same s b) (txChar_ok h.envOk b)
  exact { h with }

/-- The cold-reset order makes a session at the ATR rate, whose power state POWER_ON sets to Active (R129). -/
theorem State.Inv.powerUp {s : State} (h : s.Inv) : State.Inv { s.powerUp with powerState := .active } := by
  have hc : s.powerUp.msCounter < 2 ^ s.cfg.timerWidth := by
    rw [powerUp_counter]
    exact Nat.mod_lt _ (Nat.two_pow_pos _)
  rw [powerUp_eq]
  exact { h with
    counter := hc, hold := fun _ => rfl, clock := nofun, baud := fun _ => atrBaud_pos h.cfg,
    power := nofun }

/-- The power-down order stops the clock low and leaves the line driven with nothing held (R131). -/
theorem State.Inv.powerDown {s : State} (h : s.Inv) :
    State.Inv { s.powerDown with powerState := if s.sessionValid then .off else s.powerState } := by
  have hs : State.EnvOk (s.setRst true) := ⟨h.counter, h.hold, h.clock⟩
  have hc : s.powerDown.msCounter < 2 ^ s.cfg.timerWidth := by
    have k := (stopClock_ok hs).counter
    rwa [stopClock_cfg] at k
  have hp : (if s.sessionValid then .off else s.powerState) ≠ PowerState.resetting := by
    split
    · nofun
    · exact h.power
  rw [powerDown_eq]
  exact { h with counter := hc, hold := fun _ => rfl, clock := fun _ => rfl, power := hp }

/-! ### ACQUIRE_ATR and SEND_APDU -/

theorem negotiate_baud_pos {s : State} (hc : s.cfg.Valid) (hb : 1 ≤ s.baudRate) (rec : AtrRecord) :
    1 ≤ (s.negotiate rec).2.baudRate := by
  unfold State.negotiate
  split
  · split
    · exact hb
    · rename_i baud hn
      exact negotiatedBaud_pos hc hn
  · exact hb

/-- The loop keeps the environment's part, and the rate at its end is the ATR rate or a negotiated one (R192,
R231). -/
theorem acquireAtr_inv {s t : State} (h : s.Inv) (e : execAcquireAtr s = .next t) : t.Inv := by
  obtain ⟨u, hl, hu, -⟩ := atrLoop_ends s
  rw [acquireAtr_eq (withSession_next.1 e).1 hl] at e
  obtain rfl := finish_next.1 e
  refine State.Inv.emit ?_ _
  have hs := hu.same
  have ho := hu.envOk h.envOk
  have hcfg : u.cfg.Valid := hu.cfg ▸ h.cfg
  have hb : 1 ≤ u.baudRate := hs.baudRate ▸ atrBaud_pos h.cfg
  rw [negotiate_same]
  unfold State.SameButAtr at hs
  exact {
    cfg := hcfg
    counter := ho.counter
    buffer := by rw [hs]; exact h.buffer
    hold := ho.hold
    glitch := by rw [hs]; exact h.glitch
    trigger := by rw [hs]; exact h.trigger
    clock := ho.clock
    atr := rfl
    apdu := by rw [hs]; exact h.apdu
    baud := fun _ => negotiate_baud_pos hcfg hb _
    power := by rw [hs]; exact h.power }

/-- The sequencer's steps keep the environment's part (R252). -/
theorem sendApdu_inv {timeoutMs : Nat} {cla ins p1 p2 p3 : Byte} {dir : Dir} {cap : Nat} {s t : State}
    (h : s.Inv) (e : execSendApdu timeoutMs cla ins p1 p2 p3 dir cap s = .next t) : t.Inv := by
  obtain ⟨hv, ha, ⟨-, rfl⟩ | ⟨hc, -⟩⟩ := sendApdu_next e
  · exact h.emit _
  · obtain ⟨u, sw, hs, ho, -, he⟩ | ⟨he, -⟩ := sendApdu_outcome (P := State.EnvOk)
      (fun _ _ => apduStep_envOk) (cla := cla) (ins := ins) (p1 := p1) (p2 := p2) (dir := dir) hv
      (of_decide_eq_true ha) hc ⟨h.counter, h.hold, h.clock⟩
    · obtain rfl := finish_next.1 (he.symm.trans e)
      refine State.Inv.emit ?_ _
      have hf := hs.frame
      exact {
        cfg := by rw [hf]; exact h.cfg
        counter := ho.counter
        buffer := hs.wf h.buffer
        hold := ho.hold
        glitch := by rw [hf]; exact h.glitch
        trigger := by rw [hf]; exact h.trigger
        clock := ho.clock
        atr := by rw [hf]; exact h.atr
        apdu := rfl
        baud := by rw [hf]; exact h.baud
        power := by rw [hf]; exact h.power }
    · cases he.symm.trans e

/-! ### The step -/

theorem State.Inv.of_finish {s t : State} {r : Result} (e : s.finish r = .next t) (h : s.Inv) : t.Inv :=
  finish_next.1 e ▸ h.emit _

/-- Every command that ends keeps the invariant. -/
theorem exec_inv {i : Instr} {s t : State} (h : s.Inv) (e : exec i s = .next t) : t.Inv := by
  cases i with
  | setPower on => exact .of_finish e { h with }
  | setReset asserted => exact .of_finish e { h with }
  | setClockFreerun run =>
    refine .of_finish e ?_
    cases run
    · exact h.stopClock
    · exact { h with clock := nofun }
  | glitchPulse d => exact .of_finish e ((((h.emit _).glitchPulse d).emit _).elapse _)
  | triggerPulse =>
    refine .of_finish e (State.Inv.elapse ?_ _)
    exact { h with trigger := rfl }
  | powerOn => exact .of_finish e h.powerUp
  | powerOff => exact .of_finish e h.powerDown
  | setListening on => exact .of_finish e (h.listen on)
  | readByte n =>
    obtain ⟨-, -, -, rfl⟩ := readByte_next e
    exact (h.of_env (rxChar_same s n) (rxChar_ok h.envOk n)).emit _
  | writeByte b =>
    obtain ⟨-, -, rfl⟩ := writeByte_next e
    exact (h.txChar b).emit _
  | getConvention => exact .of_finish (withSession_next.1 e).2 h
  | setConvention inverse => exact .of_finish (withSession_next.1 e).2 { h with }
  | acquireAtr => exact acquireAtr_inv h e
  | sendApdu => exact sendApdu_inv h e

/-- A submission leaves the canonical form of the buffer and a turn to the environment (R62). -/
theorem State.Inv.accept {s : State} (h : s.Inv) (c : Submission) (rest : List Submission) :
    (s.accept c rest).Inv := by
  have hb : Memory.wf (c.bufferFor s.buffer) = true := by
    unfold Submission.bufferFor
    split
    · exact Memory.wf_ofBytes _ 0
    · exact h.buffer
  refine State.Inv.envTurn ?_
  exact { h with buffer := hb }

/-- Settles O56: the idle step is a turn of the environment, and any other accepts a submission and executes its
command. -/
theorem stepKeepsInv : Obligations.StepKeepsInv := by
  unfold Obligations.StepKeepsInv
  intro s t h e
  obtain ⟨-, rfl⟩ | ⟨c, rest, i, -, e⟩ := step_next e
  · exact h.envTurn
  · exact exec_inv (h.accept c rest) e

/-! ### Block reset -/

theorem blockReset_inv {c : Config} (hc : c.Valid) (d : ResetDraws) : (State.blockReset c d).Inv where
  cfg := hc
  counter := Nat.mod_lt _ (Nat.two_pow_pos _)
  buffer := rfl
  hold _ := rfl
  glitch := rfl
  trigger := rfl
  clock h := congrArg (· && d.clkHigh) h
  atr := rfl
  apdu := rfl
  baud := nofun
  power := nofun

/-- The parameters of the reset state are admitted (R9). -/
theorem config_vectors_valid : Config.vectors.Valid := by
  constructor
  case fiEntries =>
    intro n hn
    simp [Config.vectors, Config.isoFiTable] at hn
    omega
  case diEntries =>
    intro n hn
    simp [Config.vectors, Config.isoDiTable] at hn
    omega
  all_goals decide

/-- Settles O57: the fields by computation, for every draw; and the reset state's parameters are admitted. -/
theorem resetMeetsInv : Obligations.ResetMeetsInv := by
  unfold Obligations.ResetMeetsInv
  exact ⟨fun c d hc => ⟨rfl, rfl, rfl, rfl, blockReset_inv hc d⟩,
    blockReset_inv config_vectors_valid _⟩

end Sys2Proof.Machine
end

section
/-! The writers of the whole machine (10_state.md section 3, 00_scope.md R8, R13, 20_memory.md R62): which
commands write a session field, and what a command leaves of the trace, the buffer, the parameters and the
queue. -/

namespace Sys2Proof.Machine

/-! ### The session fields -/

/-- `t` has the session, its convention and its rate as in `s`. -/
structure State.SameSession (s t : State) : Prop where
  sessionValid : t.sessionValid = s.sessionValid
  convention : t.convention = s.convention
  baudRate : t.baudRate = s.baudRate

/-- Beside POWER_ON, SET_CONVENTION and ACQUIRE_ATR no command writes the session, its convention or its rate, and
of these only POWER_OFF writes the power state. -/
theorem exec_sameSession {i : Instr} {s t : State} (h : exec i s = .next t)
    (hi : i.opcode ∉ [0x10, 0x24, 0x30]) :
    s.SameSession t ∧ (i ≠ .powerOff → t.powerState = s.powerState) := by
  cases i with
  | powerOn | setConvention | acquireAtr => exact absurd (by simp [Instr.opcode]) hi
  | setPower | setReset | triggerPulse | setListening =>
    cases finish_next.1 h
    exact ⟨by constructor <;> simp, by simp⟩
  | setClockFreerun run =>
    cases finish_next.1 h
    cases run <;> exact ⟨by constructor <;> simp, by simp⟩
  | glitchPulse d =>
    cases finish_next.1 h
    rw [glitchPulse_eq]
    exact ⟨by constructor <;> simp, by simp⟩
  | powerOff =>
    cases finish_next.1 h
    rw [powerDown_eq]
    exact ⟨⟨rfl, rfl, rfl⟩, by simp⟩
  | readByte n =>
    obtain ⟨-, -, -, rfl⟩ := readByte_next h
    exact ⟨by constructor <;> simp, by simp⟩
  | writeByte b =>
    obtain ⟨-, -, rfl⟩ := writeByte_next h
    exact ⟨by constructor <;> simp, by simp⟩
  | getConvention =>
    cases finish_next.1 (withSession_next.1 h).2
    exact ⟨⟨rfl, rfl, rfl⟩, fun _ => rfl⟩
  | sendApdu =>
    obtain ⟨hf, -⟩ := sendApduFrame _ _ _ _ _ _ _ _ _ _ h
    rw [hf]
    exact ⟨⟨rfl, rfl, rfl⟩, fun _ => rfl⟩

/-- ACQUIRE_ATR writes the convention, the rate and the negotiation flag, but no other session field. -/
theorem acquireAtr_session {s t : State} (h : exec .acquireAtr s = .next t) :
    t.sessionValid = s.sessionValid ∧ t.powerState = s.powerState := by
  obtain ⟨t', e, rec, ht, -⟩ := acquireAtrCompletes s (withSession_next.1 h).1
  cases e.symm.trans h
  rw [ht]
  exact ⟨rfl, rfl⟩

/-- Settles O59: the three writers of session fields one by one; for the others `exec_sameSession`, and
`exec_negotiatedThisCycle` for the flag. -/
theorem sessionWriters : Obligations.SessionWriters := by
  unfold Obligations.SessionWriters
  intro i s t h
  by_cases hi : i.opcode ∈ [0x10, 0x24, 0x30]
  · cases i with
    | powerOn =>
      cases finish_next.1 h
      simp [Instr.opcode, State.powerUp, State.newSession]
    | setConvention inverse =>
      cases finish_next.1 (withSession_next.1 h).2
      simp [Instr.opcode]
    | acquireAtr =>
      obtain ⟨hv, hp⟩ := acquireAtr_session h
      simp [Instr.opcode, hv, hp]
    | _ => simp [Instr.opcode] at hi
  · obtain ⟨k, hp⟩ := exec_sameSession h hi
    have hn : t.negotiatedThisCycle = s.negotiatedThisCycle := by
      refine exec_negotiatedThisCycle h ?_ ?_ <;> rintro rfl <;> simp [Instr.opcode] at hi
    refine ⟨absurd k.sessionValid, absurd k.convention, absurd k.baudRate, fun hne => ?_, absurd hn⟩
    by_cases ho : i = .powerOff
    · subst ho
      simp [Instr.opcode]
    · exact absurd (hp ho) hne

/-! ### The trace, the buffer, the parameters and the queue -/

/-- `u` has the parameters and the queue of `s`, its trace with more events at the end, and its buffer unless the
command `i` is SEND_APDU. -/
structure State.Adds (s : State) (i : Instr) (u : State) : Prop where
  trace : s.trace <+: u.trace
  buffer : i.opcode ≠ 0x40 → u.buffer = s.buffer
  cfg : u.cfg = s.cfg
  pending : u.pending = s.pending

/-- What a command that returns has done before its result. -/
theorem exec_adds {i : Instr} {s t : State} (h : exec i s = .next t) :
    ∃ u r, t = u.emit (.returned r) ∧ s.Adds i u := by
  cases i with
  | setPower | setReset | triggerPulse | setListening =>
    exact ⟨_, _, finish_next.1 h, by constructor <;> simp⟩
  | setClockFreerun run =>
    refine ⟨_, _, finish_next.1 h, ?_⟩
    cases run <;> constructor <;> simp
  | glitchPulse d =>
    refine ⟨_, _, finish_next.1 h, ?_⟩
    rw [glitchPulse_eq]
    constructor <;> simp
  | powerOn =>
    refine ⟨_, _, finish_next.1 h, ?_⟩
    rw [powerUp_eq]
    exact ⟨List.prefix_append _ _, fun _ => rfl, rfl, rfl⟩
  | powerOff =>
    refine ⟨_, _, finish_next.1 h, ?_⟩
    rw [powerDown_eq]
    exact ⟨by simp, fun _ => rfl, rfl, rfl⟩
  | readByte n =>
    obtain ⟨-, -, -, ht⟩ := readByte_next h
    exact ⟨_, _, ht, by constructor <;> simp⟩
  | writeByte b =>
    obtain ⟨-, -, ht⟩ := writeByte_next h
    exact ⟨_, _, ht, by constructor <;> simp⟩
  | getConvention | setConvention =>
    exact ⟨_, _, finish_next.1 (withSession_next.1 h).2, List.prefix_refl _, fun _ => rfl, rfl, rfl⟩
  | acquireAtr =>
    obtain ⟨-, u, hu, -, hf⟩ := acquireAtr_next h
    refine ⟨_, _, finish_next.1 hf, ?_⟩
    unfold State.SameButAtr at hu
    rw [negotiate_same, hu]
    exact ⟨List.prefix_append _ _, fun _ => rfl, rfl, rfl⟩
  | sendApdu =>
    obtain ⟨-, -, ⟨-, ht⟩ | ⟨-, u, sw, hu, -, -, hf⟩⟩ := sendApdu_next h
    · exact ⟨s, _, ht, List.prefix_refl _, fun _ => rfl, rfl, rfl⟩
    · have hframe := hu.frame
      refine ⟨_, _, finish_next.1 hf, hu.trace, absurd rfl, ?_, ?_⟩ <;> rw [hframe] <;> rfl

/-- Settles O60: the events of `exec_adds`, then the result. -/
theorem commandsAppendToTheTrace : Obligations.CommandsAppendToTheTrace := by
  unfold Obligations.CommandsAppendToTheTrace
  intro i s t h
  obtain ⟨u, r, rfl, k⟩ := exec_adds h
  obtain ⟨evs, he⟩ := k.trace
  exact ⟨⟨evs, r, by rw [he]; rfl⟩, k.buffer, k.cfg, k.pending⟩

end Sys2Proof.Machine
end
